-- ==== Sys2Proof/Word.lean ====
section
/-! DEFINITION. Widths of the core's data (spec 00_scope.md R14, R15): a byte is 8 bits, a word `u32` 32, a register of the
argument file 64; a byte sequence is a list, first byte first. -/

namespace Sys2Proof

/-- A byte (R14). -/
abbrev Byte := BitVec 8

/-- A 32-bit value: a command word, STATUS, FAULT, a ChaCha20 word (R15, R23). -/
abbrev Word := BitVec 32

/-- A 64-bit value: an argument register or RESULT (R22, R26). -/
abbrev DWord := BitVec 64

/-- A byte sequence `bytes`, `m[0]` first (R14). -/
abbrev Bytes := List Byte

end Sys2Proof
end

