-- ==== Sys2Proof/Config.lean ====
section
/-! DEFINITION. The named parameters of the model (spec 00_scope.md R6 to R13, 20_memory.md R51) as plain data, the reference
configuration (R13), and the free values, which have no body: nothing can be proved of their values. -/

namespace Sys2Proof

/-- Which function a hash engine computes (R8). SHA-256 is the hash the spec names (R13); any other is known by a number and
its digests are free values, `Config.hashByte`. -/
inductive HashAlg where
  | sha256
  | external (id : Nat)
  deriving DecidableEq, Repr

/-- One entry of HASHES: the record of R8, with `B_h`, `L_h`, `H_h` and `SER_h`. -/
structure HashEngine where
  blockSize : Nat
  digestLen : Nat
  alg : HashAlg
  ser : Bool
  deriving DecidableEq, Repr

/-- A run of admitted host addresses, `base` to `base + size - 1`. -/
structure Region where
  base : Nat
  size : Nat
  deriving DecidableEq, Repr

/-- The configuration: constant for the life of the machine (R6 to R11, R51). -/
structure Params where
  /-- ADDR_W (R6). -/
  addrW : Nat
  /-- N_CTX (R7). -/
  nCtx : Nat
  /-- HASHES; its length is N_HASH (R8). -/
  hashes : List HashEngine
  /-- ENTROPY_AVAILABLE (R9). -/
  entropyAvailable : Bool
  /-- HKDF_INFO_MAX, `none` for unbounded (R10). -/
  hkdfInfoMax : Option Nat
  /-- HKDF_REQUIRES_SERIALIZABLE (R11). -/
  hkdfRequiresSer : Bool
  /-- The admitted addresses, as a union of regions (R51; log 19). -/
  admitted : List Region
  deriving DecidableEq, Repr

/-- SHA-256 with B = 64, L = 32 and SER = true (R13). -/
def HashEngine.sha256 : HashEngine := ⟨64, 32, .sha256, true⟩

/-- The reference configuration (R13): every vector of 95_test_vectors.md runs in it. -/
def Params.reference : Params where
  addrW := 64
  nCtx := 4
  hashes := [HashEngine.sha256]
  entropyAvailable := true
  hkdfInfoMax := none
  hkdfRequiresSer := false
  admitted := [⟨0, 0x10000⟩]

namespace Config

/-- Free value: the byte the entropy device gives at a place of its stream, past the bytes State lists (R101, R240; log 6). -/
opaque freeByte : Nat → Byte

/-- Free value: how many discarded draws a random string can meet, past those State lists, before the run hangs (R108; log 7). -/
opaque rejectBudget : Nat → Nat

/-- Free value: one byte of an output buffer after a reset inside a command (R251; log 13). -/
opaque tornByte : Nat → Byte

/-- Free value: byte `i` of the digest of a message under the external hash `id` (R8; log 3). -/
opaque hashByte : (id : Nat) → (message : Bytes) → (i : Nat) → Byte

/-- Free value: byte `i` of the SHA-256 digest of a message of 2^61 bytes or more, for which FIPS 180-4 defines none (R8, R13;
log 3). -/
opaque longMessageByte : (message : Bytes) → (i : Nat) → Byte

end Config

end Sys2Proof
end

