-- ==== Sys2Proof/Syntax.lean ====
section
/-! DEFINITION. The 26 commands of the opcode map (spec 30_encoding.md R75), one constructor per row of opcode_table.json. -/

namespace Sys2Proof

/-- A command. `c` is the CTX field and `h` the HASH field (R70, R72, R73); the operands stand in the argument registers (R76). -/
inductive Instr where
  /-- RAND_BYTES, OP 0x10 (R102). -/
  | randBytes
  /-- RAND_UINT32, OP 0x11 (R103). -/
  | randUint32
  /-- RAND_STRING, OP 0x12 (R105). -/
  | randString
  /-- RAND_STRING_ENTROPY, OP 0x13 (R106). -/
  | randStringEntropy
  /-- CHACHA_STREAM, OP 0x20 (R125). -/
  | chachaStream
  /-- CHACHA_STREAM_XOR, OP 0x21 (R126). -/
  | chachaStreamXor
  /-- POLY1305_AUTH, OP 0x30 (R143). -/
  | poly1305Auth
  /-- AEAD_INIT, OP 0x40 (R150). -/
  | aeadInit (c : BitVec 4)
  /-- AEAD_SEAL, OP 0x41 (R154). -/
  | aeadSeal (c : BitVec 4)
  /-- AEAD_OPEN, OP 0x42 (R155). -/
  | aeadOpen (c : BitVec 4)
  /-- AEAD_CLEAN, OP 0x43 (R158). -/
  | aeadClean (c : BitVec 4)
  /-- HMAC_INIT, OP 0x50 (R172). -/
  | hmacInit (c h : BitVec 4)
  /-- HMAC_UPDATE, OP 0x51 (R173). -/
  | hmacUpdate (c : BitVec 4)
  /-- HMAC_FINISH, OP 0x52 (R174). -/
  | hmacFinish (c : BitVec 4)
  /-- HMAC_RESET, OP 0x53 (R175). -/
  | hmacReset (c : BitVec 4)
  /-- HMAC_SAVE, OP 0x54 (R176). -/
  | hmacSave (c : BitVec 4)
  /-- HMAC_RESTORE, OP 0x55 (R177). -/
  | hmacRestore (c : BitVec 4)
  /-- HMAC_CLEAN_SAVED, OP 0x56 (R178). -/
  | hmacCleanSaved (c : BitVec 4)
  /-- HMAC_CLEAN, OP 0x57 (R179). -/
  | hmacClean (c : BitVec 4)
  /-- HKDF_INIT, OP 0x60 (R190). -/
  | hkdfInit (c h : BitVec 4)
  /-- HKDF_EXPAND, OP 0x61 (R194). -/
  | hkdfExpand (c : BitVec 4)
  /-- HKDF_CLEAN, OP 0x62 (R197). -/
  | hkdfClean (c : BitVec 4)
  /-- CT_SELECT, OP 0x70 (R210). -/
  | ctSelect
  /-- CT_LESS_OR_EQUAL, OP 0x71 (R211). -/
  | ctLessOrEqual
  /-- CT_COMPARE, OP 0x72 (R212). -/
  | ctCompare
  /-- CT_EQUAL, OP 0x73 (R213). -/
  | ctEqual
  deriving DecidableEq, Repr

end Sys2Proof
end

