-- ==== Sys2Proof/WellFormed.lean ====
section
/-! DEFINITION. Which configurations are well formed (spec 00_scope.md R6 to R12) and which commands a configuration has
(30_encoding.md R72, R73). -/

namespace Sys2Proof

/-- R8, R12: `1 ≤ L ≤ B`; SHA-256 has B = 64 and L = 32 (R13). -/
def HashEngine.wf (e : HashEngine) : Bool :=
  decide (1 ≤ e.digestLen) && decide (e.digestLen ≤ e.blockSize) &&
    match e.alg with
    | .sha256 => decide (e.blockSize = 64) && decide (e.digestLen = 32)
    | .external _ => true

/-- R6, R7, R8, R12: the bounds of the parameters. -/
def Params.wf (p : Params) : Bool :=
  decide (1 ≤ p.addrW) && decide (p.addrW ≤ 64) && decide (1 ≤ p.nCtx) && decide (p.nCtx ≤ 16) &&
    decide (1 ≤ p.hashes.length) && decide (p.hashes.length ≤ 16) && p.hashes.all HashEngine.wf

/-- R72: a context index of this configuration. -/
def Params.hasCtx (p : Params) (c : BitVec 4) : Bool := decide (c.toNat < p.nCtx)

/-- R73: a hash index of this configuration. -/
def Params.hasHash (p : Params) (h : BitVec 4) : Bool := decide (h.toNat < p.hashes.length)

/-- R72, R73: the command's CTX and HASH fields name a context and a hash of the configuration. -/
def Instr.wf (p : Params) : Instr → Bool
  | .randBytes | .randUint32 | .randString | .randStringEntropy => true
  | .chachaStream | .chachaStreamXor | .poly1305Auth => true
  | .aeadInit c | .aeadSeal c | .aeadOpen c | .aeadClean c => p.hasCtx c
  | .hmacInit c h | .hkdfInit c h => p.hasCtx c && p.hasHash h
  | .hmacUpdate c | .hmacFinish c | .hmacReset c | .hmacSave c | .hmacRestore c | .hmacCleanSaved c | .hmacClean c => p.hasCtx c
  | .hkdfExpand c | .hkdfClean c => p.hasCtx c
  | .ctSelect | .ctLessOrEqual | .ctCompare | .ctEqual => true

end Sys2Proof
end

