-- ==== Sys2Proof/Decode.lean ====
section
/-! DEFINITION. Decoding a command word (spec 30_encoding.md R70 to R75, R79 to R82) and the encoder. The decoder is total on
32-bit words; a word that does not decode is named by the first check of R79 it fails, and every such word is IllegalCommand. -/

namespace Sys2Proof

/-- Why a word does not decode, in the order of R79. -/
inductive DecodeError where
  /-- A bit of RES [31:16] is set (R74). -/
  | reservedBits
  /-- OP is not in the table of R75 (R81). -/
  | unassignedOpcode
  /-- CTX is not below N_CTX, or not 0 where the command has no context (R72). -/
  | contextField
  /-- HASH is not below N_HASH, or not 0 where the command takes no hash (R73). -/
  | hashField
  deriving DecidableEq, Repr

/-- OP, bits [7:0] (R70). -/
def wordOp (w : Word) : BitVec 8 := w.extractLsb' 0 8

/-- CTX, bits [11:8] (R70). -/
def wordCtx (w : Word) : BitVec 4 := w.extractLsb' 8 4

/-- HASH, bits [15:12] (R70). -/
def wordHash (w : Word) : BitVec 4 := w.extractLsb' 12 4

/-- RES, bits [31:16] (R70). -/
def wordRes (w : Word) : BitVec 16 := w.extractLsb' 16 16

/-- The opcode map (R75). -/
def instrOfOpcode (op : BitVec 8) (c h : BitVec 4) : Option Instr :=
  match op with
  | 0x10#8 => some .randBytes
  | 0x11#8 => some .randUint32
  | 0x12#8 => some .randString
  | 0x13#8 => some .randStringEntropy
  | 0x20#8 => some .chachaStream
  | 0x21#8 => some .chachaStreamXor
  | 0x30#8 => some .poly1305Auth
  | 0x40#8 => some (.aeadInit c)
  | 0x41#8 => some (.aeadSeal c)
  | 0x42#8 => some (.aeadOpen c)
  | 0x43#8 => some (.aeadClean c)
  | 0x50#8 => some (.hmacInit c h)
  | 0x51#8 => some (.hmacUpdate c)
  | 0x52#8 => some (.hmacFinish c)
  | 0x53#8 => some (.hmacReset c)
  | 0x54#8 => some (.hmacSave c)
  | 0x55#8 => some (.hmacRestore c)
  | 0x56#8 => some (.hmacCleanSaved c)
  | 0x57#8 => some (.hmacClean c)
  | 0x60#8 => some (.hkdfInit c h)
  | 0x61#8 => some (.hkdfExpand c)
  | 0x62#8 => some (.hkdfClean c)
  | 0x70#8 => some .ctSelect
  | 0x71#8 => some .ctLessOrEqual
  | 0x72#8 => some .ctCompare
  | 0x73#8 => some .ctEqual
  | _ => none

/-- R72: the families AEAD, HMAC and HKDF, OP[7:4] in 4, 5, 6, use a context. -/
def opUsesCtx (op : BitVec 8) : Bool :=
  let family := op.extractLsb' 4 4
  family == 4 || family == 5 || family == 6

/-- R73: HMAC_INIT and HKDF_INIT take a hash index. -/
def opUsesHash (op : BitVec 8) : Bool := op == 0x50 || op == 0x60

/-- CTX is below N_CTX where the command uses a context, and 0 where it does not (R72). -/
def ctxFieldOk (p : Params) (w : Word) : Bool := if opUsesCtx (wordOp w) then p.hasCtx (wordCtx w) else wordCtx w == 0

/-- HASH is below N_HASH where the command takes a hash, and 0 where it does not (R73). -/
def hashFieldOk (p : Params) (w : Word) : Bool := if opUsesHash (wordOp w) then p.hasHash (wordHash w) else wordHash w == 0

/-- `decode(w)` of R79. -/
def decode (p : Params) (w : Word) : Except DecodeError Instr :=
  if wordRes w ≠ 0 then .error .reservedBits
  else
    match instrOfOpcode (wordOp w) (wordCtx w) (wordHash w) with
    | none => .error .unassignedOpcode
    | some i =>
      if !ctxFieldOk p w then .error .contextField
      else if !hashFieldOk p w then .error .hashField
      else .ok i

/-- The OP of a command (R75). -/
def opcode : Instr → BitVec 8
  | .randBytes => 0x10
  | .randUint32 => 0x11
  | .randString => 0x12
  | .randStringEntropy => 0x13
  | .chachaStream => 0x20
  | .chachaStreamXor => 0x21
  | .poly1305Auth => 0x30
  | .aeadInit _ => 0x40
  | .aeadSeal _ => 0x41
  | .aeadOpen _ => 0x42
  | .aeadClean _ => 0x43
  | .hmacInit _ _ => 0x50
  | .hmacUpdate _ => 0x51
  | .hmacFinish _ => 0x52
  | .hmacReset _ => 0x53
  | .hmacSave _ => 0x54
  | .hmacRestore _ => 0x55
  | .hmacCleanSaved _ => 0x56
  | .hmacClean _ => 0x57
  | .hkdfInit _ _ => 0x60
  | .hkdfExpand _ => 0x61
  | .hkdfClean _ => 0x62
  | .ctSelect => 0x70
  | .ctLessOrEqual => 0x71
  | .ctCompare => 0x72
  | .ctEqual => 0x73

/-- The CTX field of a command: 0 where it has no context (R72). -/
def ctxField : Instr → BitVec 4
  | .randBytes | .randUint32 | .randString | .randStringEntropy => 0
  | .chachaStream | .chachaStreamXor | .poly1305Auth => 0
  | .aeadInit c | .aeadSeal c | .aeadOpen c | .aeadClean c => c
  | .hmacInit c _ | .hmacUpdate c | .hmacFinish c | .hmacReset c => c
  | .hmacSave c | .hmacRestore c | .hmacCleanSaved c | .hmacClean c => c
  | .hkdfInit c _ | .hkdfExpand c | .hkdfClean c => c
  | .ctSelect | .ctLessOrEqual | .ctCompare | .ctEqual => 0

/-- The HASH field of a command: 0 but for the two INITs (R73). -/
def hashField : Instr → BitVec 4
  | .hmacInit _ h | .hkdfInit _ h => h
  | .randBytes | .randUint32 | .randString | .randStringEntropy => 0
  | .chachaStream | .chachaStreamXor | .poly1305Auth => 0
  | .aeadInit _ | .aeadSeal _ | .aeadOpen _ | .aeadClean _ => 0
  | .hmacUpdate _ | .hmacFinish _ | .hmacReset _ | .hmacSave _ | .hmacRestore _ | .hmacCleanSaved _ | .hmacClean _ => 0
  | .hkdfExpand _ | .hkdfClean _ => 0
  | .ctSelect | .ctLessOrEqual | .ctCompare | .ctEqual => 0

/-- The command word of R70: `0000000000000000 hhhh cccc oooooooo`. -/
def encode (i : Instr) : Word := 0#16 ++ hashField i ++ ctxField i ++ opcode i

/-- What the decoder, in the reference configuration (R13), reads from the first `nbits` bits of `w`; a command word is one
32-bit value, bit 0 its least significant bit, so nothing is laid out in bytes (R23, R70, R82; log 18). -/
def decodeTableWord (nbits w : Nat) : Option Instr :=
  match decode Params.reference (BitVec.ofNat 32 (w % 2 ^ nbits)) with
  | .ok i => some i
  | .error _ => none

end Sys2Proof
end

