-- ==== Sys2Proof/Machine/State.lean ====
section
/-! DEFINITION. The state of the machine (spec 10_state.md, 20_memory.md R50, 70_reset_and_hazards.md R250) as plain data, the
outcomes of a command, the reasons a step can stop, and the state after reset. -/

namespace Sys2Proof.Machine

/-- One entry of the AEAD context file (R31). -/
structure AeadCtx where
  valid : Bool
  key : Bytes
  deriving DecidableEq, Repr

/-- An AEAD context that holds no key (R31, R250). -/
def AeadCtx.blank : AeadCtx := ⟨false, List.replicate 32 0⟩

/-- One entry of the HMAC context file (R32). -/
structure HmacCtx where
  valid : Bool
  hash : Nat
  ipad : Bytes
  opad : Bytes
  inner : Bytes
  finished : Bool
  cached : Bytes
  savedValid : Bool
  saved : Bytes
  deriving DecidableEq, Repr

/-- An HMAC context that is not keyed (R32, R250). -/
def HmacCtx.blank : HmacCtx := ⟨false, 0, [], [], [], false, [], false, []⟩

/-- One entry of the HKDF context file (R33). -/
structure HkdfCtx where
  valid : Bool
  hash : Nat
  prk : Bytes
  info : Bytes
  t : Bytes
  pos : Nat
  ctr : Nat
  deriving DecidableEq, Repr

/-- An HKDF context that is not built (R33, R250). -/
def HkdfCtx.blank : HkdfCtx := ⟨false, 0, [], [], [], 0, 0⟩

/-- Host buffer memory: address and byte, addresses strictly rising, no entry holding the value an unlisted address reads as. -/
abbrev Memory := List Host.Cell

/-- One access of the host to the core or to its own memory, or a reset (R20, R22, R23, R38, R50, R60, R251). -/
inductive HostAction where
  /-- A write access of `width` bytes at a register offset (R38, R60, R61). -/
  | regWrite (offset width : Nat) (value : DWord)
  /-- A read access of `width` bytes at a register offset (R38, R60, R61). -/
  | regRead (offset width : Nat)
  /-- The host writes its own buffer memory between commands (R50, R62). -/
  | memWrite (addr : Nat) (data : Bytes)
  /-- Reset, between commands (R251, R252). -/
  | reset
  /-- A CMD write of `w` whose command a platform's reset cuts short (R251). -/
  | resetDuring (w : Word)
  deriving DecidableEq, Repr

/-- The registers of the interface (R38, R60). -/
inductive Reg where
  | cmd
  | arg (i : Fin 8)
  | status
  | result
  | fault
  | config
  deriving DecidableEq, Repr

/-- The machine. -/
structure State where
  /-- The configuration, constant (R6 to R11, R51); CONFIG is computed from it (R29). -/
  params : Params
  /-- CMD (R23). -/
  cmd : Word
  /-- A0..A7 (R22). -/
  args : Vector DWord 8
  /-- STATUS (R24). -/
  status : Word
  /-- RESULT (R26). -/
  result : DWord
  /-- FAULT (R27). -/
  fault : Word
  /-- The AEAD context file (R31); slots from N_CTX on are not of the configuration (log 2). -/
  aead : Vector AeadCtx 16
  /-- The HMAC context file (R32; log 2). -/
  hmac : Vector HmacCtx 16
  /-- The HKDF context file (R33; log 2). -/
  hkdf : Vector HkdfCtx 16
  /-- Host buffer memory HM (R50). -/
  mem : Memory
  /-- The model's own: the bytes the entropy device gives next, free values after them (R240; log 6). -/
  entropy : Bytes
  /-- The model's own: how many bytes were drawn (log 6). -/
  drawn : Nat
  /-- The model's own: how many bytes a reset inside a command left open (R251; log 13). -/
  torn : Nat
  /-- The model's own: the host accesses still to come, first one first (R20; log 4). -/
  host : List HostAction
  /-- The model's own: what the host's last register read returned (R38; log 12). -/
  readData : DWord
  deriving DecidableEq, Repr

/-- Why the machine has no next state though nothing is refused. -/
inductive Fault where
  /-- Raised by RAND_STRING and RAND_STRING_ENTROPY when the draws never give enough accepted bytes: the run hangs (R108; log 7).
  Safe: the model has no next state where the hardware has none. -/
  | entropyHang
  /-- Raised by an HMAC or HKDF command whose context or HASH field names no entry of HASHES. No decoded command in a state of a
  run does (log 16). Safe: the model stops. -/
  | noSuchHash
  /-- Raised by a host write to an address HM does not have (R50; log 11). Safe: the model stops. -/
  | outsideHostMemory
  deriving DecidableEq, Repr

/-- Why the model gives a step no meaning. -/
inductive Refusal where
  /-- Raised by the dispatch alone, for a command without a meaning. Safe: no effect is claimed. -/
  | notModelled (mnemonic : String)
  /-- Raised by every step and every command in a configuration outside R6 to R12: "A configuration with L_h > B_h is ill-formed
  and the model refuses it" (R12; log 16). Safe: no effect is claimed. -/
  | illFormedConfiguration
  /-- Raised by every command in the fault state: "From a state with FAULT.F = 1 there is no command step" (R220, R231; log 9).
  Safe: no effect is claimed; `step` never asks for it, it takes the CMD write as ignored. -/
  | faultState
  /-- Raised by a partial-width or unmapped register access: it "has no meaning in this spec, and the model refuses it" (R61;
  log 12). Safe: no effect is claimed. -/
  | noSuchRegister
  deriving DecidableEq, Repr

/-- The errors (R25, R222). -/
inductive ErrorKind where
  | invalidKeyLength
  | invalidNonceLength
  | destinationLengthMismatch
  | expansionLimitExceeded
  | randomSourceUnavailable
  | capabilityUnsupported
  | invalidCharset
  | illegalCommand
  | capacityExceeded
  deriving DecidableEq, Repr

/-- The fault causes (R28, R234). -/
inductive FaultCause where
  | counterOverflow
  | bufferFault
  | aliasViolation
  | contextInvalid
  | stateViolation
  | operandOutOfContract
  deriving DecidableEq, Repr

/-- How a command's own checks and computation end, after the prologue (R220, R233 item 6). -/
inductive Verdict where
  /-- Completed: the effects are in `s`, RESULT becomes `result`. -/
  | done (result : DWord) (s : State)
  /-- `raise e`; RESULT becomes `result`, 0 but in the case of R106 (R221). -/
  | raise (e : ErrorKind) (result : DWord)
  /-- `fault c` (R230). -/
  | fault (c : FaultCause)
  /-- No next state. -/
  | stop (f : Fault)
  deriving DecidableEq, Repr

/-- The machine right after reset (R250), in the reference configuration (R13; log 1), nothing listed in host memory. -/
def State.reset : State where
  params := Params.reference
  cmd := 0
  args := Vector.replicate 8 0
  status := 0
  result := 0
  fault := 0
  aead := Vector.replicate 16 AeadCtx.blank
  hmac := Vector.replicate 16 HmacCtx.blank
  hkdf := Vector.replicate 16 HkdfCtx.blank
  mem := []
  entropy := []
  drawn := 0
  torn := 0
  host := []
  readData := 0

end Sys2Proof.Machine
end

