-- ==== Sys2Proof/Machine/Bytes.lean ====
section
/-! DEFINITION. Byte sequences and the integers read from them (spec 00_scope.md R14, R15; 20_memory.md R56). -/

namespace Sys2Proof.Machine

/-- `zeros(n)` (R14). -/
def zeros (n : Nat) : Bytes := List.replicate n 0

/-- `a ⊕ b` on sequences (R14): bytewise, over the shorter length. -/
def xorBytes (a b : Bytes) : Bytes := List.zipWith (· ^^^ ·) a b

/-- `m ⊕ k` with `k` a byte (R14). -/
def xorByte (m : Bytes) (k : Byte) : Bytes := m.map (· ^^^ k)

/-- `LE(m)` (R15). -/
def leNat : Bytes → Nat
  | [] => 0
  | b :: m => b.toNat + 256 * leNat m

/-- `LEbytes_n(v)` (R15). -/
def leBytes : Nat → Nat → Bytes
  | 0, _ => []
  | n + 1, v => BitVec.ofNat 8 v :: leBytes n (v / 256)

/-- `LE32(m, i)` as a word (R15). -/
def le32 (m : Bytes) (i : Nat) : Word := BitVec.ofNat 32 (leNat ((m.drop i).take 4))

end Sys2Proof.Machine
end

