-- ==== Sys2Proof/Machine/Flags.lean ====
section
/-! DEFINITION. The core has no flags (spec 10_state.md R30); what it reports are the words of STATUS, FAULT and CONFIG (R24, R25,
R27, R28, R29), computed here. -/

namespace Sys2Proof.Machine

/-- STATUS.CODE of a completed command (R25). -/
def codeOk : BitVec 8 := 0x00

/-- STATUS.CODE in the fault state (R25, R230). -/
def codeFaulted : BitVec 8 := 0xFF

/-- STATUS.CODE of an error (R25). -/
def errorCode : ErrorKind → BitVec 8
  | .invalidKeyLength => 0x01
  | .invalidNonceLength => 0x02
  | .destinationLengthMismatch => 0x03
  | .expansionLimitExceeded => 0x04
  | .randomSourceUnavailable => 0x05
  | .capabilityUnsupported => 0x06
  | .invalidCharset => 0x07
  | .illegalCommand => 0x08
  | .capacityExceeded => 0x09

/-- STATUS with a code; bits [31:8] are 0 (R24). -/
def statusWord (code : BitVec 8) : Word := code.zeroExtend 32

/-- STATUS.CODE, bits [7:0] (R24). -/
def statusCode (status : Word) : BitVec 8 := status.extractLsb' 0 8

/-- FAULT.CAUSE of a fault (R28). -/
def causeCode : FaultCause → BitVec 8
  | .counterOverflow => 0x01
  | .bufferFault => 0x02
  | .aliasViolation => 0x03
  | .contextInvalid => 0x04
  | .stateViolation => 0x05
  | .operandOutOfContract => 0x06

/-- The FAULT word of a fault of command word `w`: `(1 << 31) | (w[11:8] << 16) | (w[7:0] << 8) | cause` (R230, R27). -/
def faultWord (w : Word) (c : FaultCause) : Word :=
  0x80000000 ||| ((wordCtx w).zeroExtend 32 <<< 16) ||| ((wordOp w).zeroExtend 32 <<< 8) ||| (causeCode c).zeroExtend 32

/-- FAULT.F, bit 31 (R27). -/
def faultF (fault : Word) : Bool := fault.getLsbD 31

/-- CONFIG: NCTX [4:0], NHASH [12:8], ENT 16, AW [30:24] (R29). -/
def configWord (p : Params) : Word :=
  (BitVec.ofNat 5 p.nCtx).zeroExtend 32 ||| ((BitVec.ofNat 5 p.hashes.length).zeroExtend 32 <<< 8) |||
    ((BitVec.ofBool p.entropyAvailable).zeroExtend 32 <<< 16) ||| ((BitVec.ofNat 7 p.addrW).zeroExtend 32 <<< 24)

end Sys2Proof.Machine
end

