-- ==== Sys2Proof/Machine/Ops.lean ====
section
/-! DEFINITION. The named operations over memory, registers, contexts and the entropy device, and what ending in an error or a
fault does (spec 20_memory.md, 60_exceptions.md R221, R230, R240, 70_reset_and_hazards.md R250 to R252). -/

namespace Sys2Proof.Machine

/-! Host buffer memory (R50, R58). -/

/-- What an address no entry lists reads as (log 5). -/
def Memory.unlisted : Byte := 0

/-- The byte at an address (R58). -/
def Memory.get : Memory → Nat → Byte
  | [], _ => Memory.unlisted
  | (x, v) :: m, a => if x = a then v else Memory.get m a

/-- The memory without an entry for `a`. -/
def Memory.erase (m : Memory) (a : Nat) : Memory := m.filter (fun cell => cell.1 ≠ a)

/-- An entry put before the first one with a greater address. -/
def Memory.insert (a : Nat) (b : Byte) : Memory → Memory
  | [] => [(a, b)]
  | (x, v) :: m => if a < x then (a, b) :: (x, v) :: m else (x, v) :: Memory.insert a b m

/-- The memory with byte `b` at `a`; the value an unlisted address reads as is not listed. -/
def Memory.set (m : Memory) (a : Nat) (b : Byte) : Memory :=
  if b = Memory.unlisted then m.erase a else Memory.insert a b (m.erase a)

/-- The canonical form: addresses strictly rising, no entry equal to what an unlisted address reads as. -/
def Memory.wf : Memory → Bool
  | [] => true
  | [(_, v)] => v != Memory.unlisted
  | (x, v) :: (y, w) :: m => v != Memory.unlisted && decide (x < y) && Memory.wf ((y, w) :: m)

/-- `MemRead(p, n)`: the bytes at `p` to `p + n - 1`, in address order (R16). -/
def memRead (m : Memory) : (p n : Nat) → Bytes
  | _, 0 => []
  | p, n + 1 => m.get p :: memRead m (p + 1) n

/-- `MemWrite(p, |bs|, bs)`: `bs[i]` to address `p + i` (R16). -/
def memWrite (m : Memory) : (p : Nat) → (bs : Bytes) → Memory
  | _, [] => m
  | p, b :: bs => memWrite (m.set p b) (p + 1) bs

/-! Registers and descriptors (R17, R22). -/

/-- Argument register `A[i]` (R22). -/
def State.arg (s : State) (i : Fin 8) : DWord := s.args[i]

/-- `Pk`, the pointer of descriptor `Dk` (R17). -/
def State.ptr (s : State) (k : Fin 4) : Nat := (s.arg ⟨2 * k.val, by omega⟩).toNat

/-- `Nk`, the length of descriptor `Dk` (R17). -/
def State.len (s : State) (k : Fin 4) : Nat := (s.arg ⟨2 * k.val + 1, by omega⟩).toNat

/-- `buf(Dk) = MemRead(Pk, Nk)` (R17). -/
def State.buf (s : State) (k : Fin 4) : Bytes := memRead s.mem (s.ptr k) (s.len k)

/-- `MemWrite(Pk, Nk, bs)`: the first `Nk` bytes of `bs`, from `Pk` on; never more than the buffer holds (R16, R59). -/
def State.writeBuf (s : State) (k : Fin 4) (bs : Bytes) : State :=
  { s with mem := memWrite s.mem (s.ptr k) (bs.take (s.len k)) }

/-- A host write to `A[i]` (R22). -/
def State.setArg (s : State) (i : Fin 8) (v : DWord) : State := { s with args := s.args.set i v }

/-- FAULT.F: the core is in the fault state (R27). -/
def State.faulted (s : State) : Bool := faultF s.fault

/-- CONFIG (R29). -/
def State.config (s : State) : Word := configWord s.params

/-! The context files (R31 to R33). -/

/-- `aead[c]` (R31). -/
def State.aeadCtx (s : State) (c : BitVec 4) : AeadCtx := s.aead[c.toNat]'(c.isLt)

/-- `hmac[c]` (R32). -/
def State.hmacCtx (s : State) (c : BitVec 4) : HmacCtx := s.hmac[c.toNat]'(c.isLt)

/-- `hkdf[c]` (R33). -/
def State.hkdfCtx (s : State) (c : BitVec 4) : HkdfCtx := s.hkdf[c.toNat]'(c.isLt)

/-- `aead[c] <- x` (R31). -/
def State.setAead (s : State) (c : BitVec 4) (x : AeadCtx) : State := { s with aead := s.aead.set c.toNat x c.isLt }

/-- `hmac[c] <- x` (R32). -/
def State.setHmac (s : State) (c : BitVec 4) (x : HmacCtx) : State := { s with hmac := s.hmac.set c.toNat x c.isLt }

/-- `hkdf[c] <- x` (R33). -/
def State.setHkdf (s : State) (c : BitVec 4) (x : HkdfCtx) : State := { s with hkdf := s.hkdf.set c.toNat x c.isLt }

/-- HASHES[h] (R8). -/
def hashEngine? (p : Params) (h : Nat) : Option HashEngine := p.hashes[h]?

/-! The entropy device (R240, R101). -/

/-- The `k`-th byte the device gives from now on: the bytes State lists, then free values (log 6). -/
def State.entropyByte (s : State) (k : Nat) : Byte := (s.entropy[k]?).getD (Config.freeByte (s.drawn + k))

/-- The bytes `Draw(n)` returns (R16, R240). -/
def State.draw (s : State) (n : Nat) : Bytes := (List.range n).map s.entropyByte

/-- The state after `n` bytes were drawn: every draw is fresh (R101). -/
def State.afterDraw (s : State) (n : Nat) : State := { s with entropy := s.entropy.drop n, drawn := s.drawn + n }

/-! How a command ends (R220, R221, R230). -/

/-- STATUS and RESULT of a command that completed or raised an error, the whole of what an error writes (R24, R26, R221). -/
def State.report (s : State) (code : BitVec 8) (result : DWord) : State :=
  { s with status := statusWord code, result := result }

/-- `fault c` of command word `w`: the one way into the fault state (R230). -/
def State.enterFault (s : State) (w : Word) (c : FaultCause) : State :=
  { s with fault := faultWord w c, status := statusWord codeFaulted, result := 0 }

/-- The reset of the core: every register and every context as R250 says; HM, the entropy device, the configuration and what is
the host's stay (R251, R252). The only way out of the fault state (R231). -/
def State.resetCore (s : State) : State :=
  { s with
    cmd := 0
    args := Vector.replicate 8 0
    status := 0
    result := 0
    fault := 0
    aead := Vector.replicate 16 AeadCtx.blank
    hmac := Vector.replicate 16 HmacCtx.blank
    hkdf := Vector.replicate 16 HkdfCtx.blank }

/-- What the end of a command's own checks and computation makes of the state `s` it started from (R220): an error and a fault keep
all of `s` but the report (R221, R230). -/
def conclude (i : Instr) (s : State) : Verdict → Host.Outcome State Fault Refusal
  | .done r t => .next (t.report codeOk r)
  | .raise e r => .next (s.report (errorCode e) r)
  | .fault c => .next (s.enterFault (encode i) c)
  | .stop f => .fault f

end Sys2Proof.Machine
end

