-- ==== Sys2Proof/Machine/Operands.lean ====
section
/-! DEFINITION. The operands of each command and the common prologue (spec 30_encoding.md R76; 20_memory.md R51 to R55;
60_exceptions.md R232, R233). -/

namespace Sys2Proof.Machine

/-- The "in" descriptors of R76. -/
def inputs : Instr → List (Fin 4)
  | .randBytes => []
  | .randUint32 => []
  | .randString => [0]
  | .randStringEntropy => [0]
  | .chachaStream => [0, 1]
  | .chachaStreamXor => [0, 1, 2]
  | .poly1305Auth => [0, 1]
  | .aeadInit _ => [0]
  | .aeadSeal _ => [0, 1, 2]
  | .aeadOpen _ => [0, 1, 2]
  | .aeadClean _ => []
  | .hmacInit _ _ => [0]
  | .hmacUpdate _ => [0]
  | .hmacFinish _ => []
  | .hmacReset _ => []
  | .hmacSave _ => []
  | .hmacRestore _ => []
  | .hmacCleanSaved _ => []
  | .hmacClean _ => []
  | .hkdfInit _ _ => [0, 1, 2]
  | .hkdfExpand _ => []
  | .hkdfClean _ => []
  | .ctSelect => []
  | .ctLessOrEqual => []
  | .ctCompare => [0, 1]
  | .ctEqual => [0, 1]

/-- The "out" descriptor of R76; no command has two. -/
def output : Instr → Option (Fin 4)
  | .randBytes => some 0
  | .randUint32 => none
  | .randString => some 1
  | .randStringEntropy => some 1
  | .chachaStream => some 2
  | .chachaStreamXor => some 3
  | .poly1305Auth => some 2
  | .aeadInit _ => none
  | .aeadSeal _ => some 3
  | .aeadOpen _ => some 3
  | .aeadClean _ => none
  | .hmacInit _ _ => none
  | .hmacUpdate _ => none
  | .hmacFinish _ => some 0
  | .hmacReset _ => none
  | .hmacSave _ => none
  | .hmacRestore _ => none
  | .hmacCleanSaved _ => none
  | .hmacClean _ => none
  | .hkdfInit _ _ => none
  | .hkdfExpand _ => some 0
  | .hkdfClean _ => none
  | .ctSelect => none
  | .ctLessOrEqual => none
  | .ctCompare => none
  | .ctEqual => none

/-- Every descriptor a command uses (R76). -/
def descriptors (i : Instr) : List (Fin 4) := inputs i ++ (output i).toList

/-- `Admits(a)` (R51; log 19). -/
def admits (p : Params) (a : Nat) : Bool :=
  p.admitted.any (fun r => decide (r.base ≤ a) && decide (a < r.base + r.size))

/-- The interval `[lo, hi)`, as no interval when it is empty. -/
def interval (lo hi : Nat) : List (Nat × Nat) := if lo < hi then [(lo, hi)] else []

/-- What a region leaves of an interval `[lo, hi)`. -/
def outsideRegion (r : Region) (iv : Nat × Nat) : List (Nat × Nat) :=
  interval iv.1 (min iv.2 r.base) ++ interval (max iv.1 (r.base + r.size)) iv.2

/-- What the regions leave of a list of intervals. -/
def outsideRegions : List Region → List (Nat × Nat) → List (Nat × Nat)
  | [], ivs => ivs
  | r :: rs, ivs => outsideRegions rs (ivs.flatMap (outsideRegion r))

/-- `Admits(a)` for every `a` with `lo ≤ a < hi` (R52). -/
def admitsRange (p : Params) (lo hi : Nat) : Bool := (outsideRegions p.admitted (interval lo hi)).isEmpty

/-- Descriptor `Dk` is admissible (R52): empty, or inside the address space without wrapping and admitted throughout. -/
def State.admissible (s : State) (k : Fin 4) : Bool :=
  s.len k == 0 ||
    (decide (s.ptr k + s.len k ≤ 2 ^ s.params.addrW) && admitsRange s.params (s.ptr k) (s.ptr k + s.len k))

/-- `Dj` and `Dk` overlap (R54). -/
def State.overlap (s : State) (j k : Fin 4) : Bool :=
  decide (0 < s.len j) && decide (0 < s.len k) && decide (s.ptr j < s.ptr k + s.len k) && decide (s.ptr k < s.ptr j + s.len j)

/-- `Dj` and `Dk` are identical (R54). -/
def State.identical (s : State) (j k : Fin 4) : Bool := s.ptr j == s.ptr k && s.len j == s.len k

/-- The one pair R55 lets be identical: the output D3 and the input D2 of CHACHA_STREAM_XOR. -/
def inPlaceAllowed (i : Instr) (out inp : Fin 4) : Bool := i == .chachaStreamXor && out == 3 && inp == 2

/-- R55: the output overlaps no input, but for the allowed identical pair. -/
def State.aliasFree (s : State) (i : Instr) : Bool :=
  match output i with
  | none => true
  | some o => (inputs i).all (fun k => !s.overlap o k || (inPlaceAllowed i o k && s.identical o k))

/-- R232: the context a command needs is initialised; true for a command that needs none. -/
def State.contextReady (s : State) : Instr → Bool
  | .randBytes | .randUint32 | .randString | .randStringEntropy => true
  | .chachaStream | .chachaStreamXor | .poly1305Auth => true
  | .aeadInit _ | .aeadClean _ => true
  | .aeadSeal c | .aeadOpen c => (s.aeadCtx c).valid
  | .hmacInit _ _ | .hmacClean _ => true
  | .hmacUpdate c | .hmacFinish c | .hmacReset c | .hmacSave c | .hmacRestore c | .hmacCleanSaved c => (s.hmacCtx c).valid
  | .hkdfInit _ _ | .hkdfClean _ => true
  | .hkdfExpand c => (s.hkdfCtx c).valid
  | .ctSelect | .ctLessOrEqual | .ctCompare | .ctEqual => true

/-- Items 3 to 5 of the prologue, the first that applies (R233). -/
def State.prologueFault (s : State) (i : Instr) : Option FaultCause :=
  if !(descriptors i).all s.admissible then some .bufferFault
  else if !s.aliasFree i then some .aliasViolation
  else if !s.contextReady i then some .contextInvalid
  else none

/-- A command: the prologue of R233, then its own checks and computation `body`. In an ill-formed configuration (R12) and in the
fault state (R231) there is no command step. -/
def runCommand (i : Instr) (s : State) (body : State → Verdict) : Host.Outcome State Fault Refusal :=
  if !s.params.wf then .refused .illFormedConfiguration
  else if s.faulted then .refused .faultState
  else
    match s.prologueFault i with
    | some c => .next (s.enterFault (encode i) c)
    | none => conclude i s (body s)

end Sys2Proof.Machine
end

