-- ==== Sys2Proof/Machine/ChaCha.lean ====
section
/-! DEFINITION. The ChaCha20 stream cipher: the block function, the keystream, CHACHA_STREAM and CHACHA_STREAM_XOR (spec
42_chacha20.md). -/

namespace Sys2Proof.Machine

/-- The state matrix: 16 words in row order (R120). -/
abbrev Matrix16 := Vector Word 16

/-- The initial state (R120). -/
def chachaInit (key cb : Bytes) : Matrix16 :=
  #v[0x61707865, 0x3320646e, 0x79622d32, 0x6b206574,
     le32 key 0, le32 key 4, le32 key 8, le32 key 12,
     le32 key 16, le32 key 20, le32 key 24, le32 key 28,
     le32 cb 0, le32 cb 4, le32 cb 8, le32 cb 12]

/-- `QR(x, a, b, c, d)` (R121). -/
def quarterRound (x : Matrix16) (a b c d : Fin 16) : Matrix16 :=
  let x := x.set a (x[a] + x[b])
  let x := x.set d ((x[d] ^^^ x[a]).rotateLeft 16)
  let x := x.set c (x[c] + x[d])
  let x := x.set b ((x[b] ^^^ x[c]).rotateLeft 12)
  let x := x.set a (x[a] + x[b])
  let x := x.set d ((x[d] ^^^ x[a]).rotateLeft 8)
  let x := x.set c (x[c] + x[d])
  x.set b ((x[b] ^^^ x[c]).rotateLeft 7)

/-- One double-round: the column round, then the diagonal round (R122). -/
def doubleRound (x : Matrix16) : Matrix16 :=
  let x := quarterRound x 0 4 8 12
  let x := quarterRound x 1 5 9 13
  let x := quarterRound x 2 6 10 14
  let x := quarterRound x 3 7 11 15
  let x := quarterRound x 0 5 10 15
  let x := quarterRound x 1 6 11 12
  let x := quarterRound x 2 7 8 13
  quarterRound x 3 4 9 14

/-- `ChaChaBlock(key, cb)`: ten double-rounds, the feed-forward, little-endian output (R122). -/
def chachaBlock (key cb : Bytes) : Bytes :=
  let s := chachaInit key cb
  (Vector.zipWith (· + ·) (doubleRound^[10] s) s).toList.flatMap (fun w => leBytes 4 w.toNat)

/-- `cb = zeros(16 − n) ++ nonce` (R123, R151). -/
def counterBlock (nonce : Bytes) : Bytes := zeros (16 - nonce.length) ++ nonce

/-- `ctr(cb) = LE32(cb, 0)` (R123). -/
def blockCounter (cb : Bytes) : Nat := leNat (cb.take 4)

/-- `cb@v` (R123). -/
def withCounter (cb : Bytes) (v : Nat) : Bytes := leBytes 4 v ++ cb.drop 4

/-- `k = ceil(N / 64)`, the blocks `N` bytes need (R124). -/
def blockCount (n : Nat) : Nat := (n + 63) / 64

/-- `Keystream(key, cb, N)` (R124). -/
def keystream (key cb : Bytes) (n : Nat) : Bytes :=
  ((List.range (blockCount n)).flatMap (fun j => chachaBlock key (withCounter cb (blockCounter cb + j)))).take n

/-- R125. -/
def chachaStream (s : State) : Verdict :=
  if s.len 0 ≠ 32 then .raise .invalidKeyLength 0
  else if 16 < s.len 1 then .raise .invalidNonceLength 0
  else
    let cb := counterBlock (s.buf 1)
    let next := blockCounter cb + blockCount (s.len 2)
    if 2 ^ 32 ≤ next then .fault .counterOverflow
    else .done (BitVec.ofNat 64 next) (s.writeBuf 2 (keystream (s.buf 0) cb (s.len 2)))

/-- CHACHA_STREAM (R125). -/
def execChachaStream (s : State) : Host.Outcome State Fault Refusal := runCommand .chachaStream s chachaStream

/-- R126. -/
def chachaStreamXor (s : State) : Verdict :=
  if s.len 0 ≠ 32 then .raise .invalidKeyLength 0
  else if 16 < s.len 1 then .raise .invalidNonceLength 0
  else if s.len 3 ≠ s.len 2 then .raise .destinationLengthMismatch 0
  else
    let cb := counterBlock (s.buf 1)
    let next := blockCounter cb + blockCount (s.len 2)
    if 2 ^ 32 ≤ next then .fault .counterOverflow
    else .done (BitVec.ofNat 64 next) (s.writeBuf 3 (xorBytes (s.buf 2) (keystream (s.buf 0) cb (s.len 2))))

/-- CHACHA_STREAM_XOR (R126). -/
def execChachaStreamXor (s : State) : Host.Outcome State Fault Refusal := runCommand .chachaStreamXor s chachaStreamXor

end Sys2Proof.Machine
end

