-- ==== Sys2Proof/Machine/CtCompare.lean ====
section
/-! DEFINITION. The constant-time comparator: CT_SELECT, CT_LESS_OR_EQUAL, CT_COMPARE, CT_EQUAL (spec 47_ct_compare.md). The time
they take is not modelled (R215; log 15). -/

namespace Sys2Proof.Machine

/-- The masking of R210 on a 0/1 subject and two 32-bit values. -/
def ctMask (bit : DWord) (ifOne ifZero : Word) : Word :=
  let m : Word := 0 - bit.setWidth 32
  (m &&& ifOne) ||| (~~~m &&& ifZero)

/-- R210. -/
def ctSelect (s : State) : Verdict :=
  if 1 < (s.arg 0).toNat ∨ 2 ^ 32 ≤ (s.arg 1).toNat ∨ 2 ^ 32 ≤ (s.arg 2).toNat then .fault .operandOutOfContract
  else .done ((ctMask (s.arg 0) ((s.arg 1).setWidth 32) ((s.arg 2).setWidth 32)).setWidth 64) s

/-- CT_SELECT (R210). -/
def execCtSelect (s : State) : Host.Outcome State Fault Refusal := runCommand .ctSelect s ctSelect

/-- R211. -/
def ctLessOrEqual (s : State) : Verdict :=
  if 2 ^ 31 ≤ (s.arg 0).toNat ∨ 2 ^ 31 ≤ (s.arg 1).toNat then .fault .operandOutOfContract
  else .done (if (s.arg 0).toNat ≤ (s.arg 1).toNat then 1 else 0) s

/-- CT_LESS_OR_EQUAL (R211). -/
def execCtLessOrEqual (s : State) : Host.Outcome State Fault Refusal := runCommand .ctLessOrEqual s ctLessOrEqual

/-- The accumulator of R212: the OR of all pairwise XORs, over the full length. -/
def ctAccumulate (a b : Bytes) : Byte := (xorBytes a b).foldl (· ||| ·) 0

/-- `CTCompare(a, b)` (R212): two empty sequences give 1 (R214). -/
def ctCompare (a b : Bytes) : DWord :=
  if a.length ≠ b.length then 0 else if ctAccumulate a b = 0 then 1 else 0

/-- `CTEqual(a, b)` (R213): two empty sequences give 0 (R214). -/
def ctEqual (a b : Bytes) : DWord :=
  if a.length = 0 ∨ b.length = 0 then 0 else ctCompare a b

/-- CT_COMPARE (R212). -/
def execCtCompare (s : State) : Host.Outcome State Fault Refusal :=
  runCommand .ctCompare s (fun s => .done (ctCompare (s.buf 0) (s.buf 1)) s)

/-- CT_EQUAL (R213). -/
def execCtEqual (s : State) : Host.Outcome State Fault Refusal :=
  runCommand .ctEqual s (fun s => .done (ctEqual (s.buf 0) (s.buf 1)) s)

end Sys2Proof.Machine
end

