-- ==== Sys2Proof/Machine/Poly1305.lean ====
section
/-! DEFINITION. The Poly1305 one-time MAC and POLY1305_AUTH (spec 43_poly1305.md). -/

namespace Sys2Proof.Machine

/-- The clamped `r` of a one-time key (R140). -/
def polyR (key : Bytes) : Nat := leNat (key.take 16) &&& 0x0ffffffc0ffffffc0ffffffc0fffffff

/-- The `s` of a one-time key (R140). -/
def polyS (key : Bytes) : Nat := leNat ((key.drop 16).take 16)

/-- The modulus `2^130 − 5` (R142). -/
def polyP : Nat := 2 ^ 130 - 5

/-- `q = ceil(|m| / 16)` (R141). -/
def polyChunks (m : Bytes) : Nat := (m.length + 15) / 16

/-- The accumulator after `q` chunks of `m`, each with its padding bit directly above its last byte (R141, R142). -/
def polyAccumulate (r : Nat) : (q : Nat) → (m : Bytes) → (acc : Nat) → Nat
  | 0, _, acc => acc
  | q + 1, m, acc => polyAccumulate r q (m.drop 16) ((acc + leNat (m.take 16 ++ [0x01])) * r % polyP)

/-- `Poly1305(key, m)` (R142). -/
def poly1305 (key m : Bytes) : Bytes :=
  leBytes 16 ((polyAccumulate (polyR key) (polyChunks m) m 0 + polyS key) % 2 ^ 128)

/-- R143. -/
def poly1305Auth (s : State) : Verdict :=
  if s.len 0 ≠ 32 then .raise .invalidKeyLength 0
  else if s.len 2 ≠ 16 then .raise .destinationLengthMismatch 0
  else .done 0 (s.writeBuf 2 (poly1305 (s.buf 0) (s.buf 1)))

/-- POLY1305_AUTH (R143). -/
def execPoly1305Auth (s : State) : Host.Outcome State Fault Refusal := runCommand .poly1305Auth s poly1305Auth

end Sys2Proof.Machine
end

