-- ==== Sys2Proof/Machine/Aead.lean ====
section
/-! DEFINITION. ChaCha20-Poly1305: AEAD_INIT, AEAD_SEAL, AEAD_OPEN, AEAD_CLEAN (spec 44_aead.md). -/

namespace Sys2Proof.Machine

/-- The one-time MAC key: the first 32 bytes of block `c0` (R152). -/
def oneTimeKey (key cb : Bytes) : Bytes := (chachaBlock key (withCounter cb (blockCounter cb))).take 32

/-- `pad16(x)` (R153). -/
def pad16 (x : Bytes) : Bytes := zeros ((16 - x.length % 16) % 16)

/-- `MacData(aad, ct)` (R153). -/
def macData (aad ct : Bytes) : Bytes :=
  aad ++ pad16 aad ++ ct ++ pad16 ct ++ leBytes 8 aad.length ++ leBytes 8 ct.length

/-- `Tag(key, cb, aad, ct)` (R153). -/
def aeadTag (key cb aad ct : Bytes) : Bytes := poly1305 (oneTimeKey key cb) (macData aad ct)

/-- The XOR with the keystream from block `c0 + 1` on, which encrypts and decrypts (R152). -/
def aeadCrypt (key cb data : Bytes) : Bytes :=
  xorBytes data (keystream key (withCounter cb (blockCounter cb + 1)) data.length)

/-- R150. -/
def aeadInit (c : BitVec 4) (s : State) : Verdict :=
  if s.len 0 ≠ 32 then .raise .invalidKeyLength 0
  else .done 0 (s.setAead c ⟨true, s.buf 0⟩)

/-- AEAD_INIT (R150). -/
def execAeadInit (c : BitVec 4) (s : State) : Host.Outcome State Fault Refusal := runCommand (.aeadInit c) s (aeadInit c)

/-- R154. -/
def aeadSeal (c : BitVec 4) (s : State) : Verdict :=
  if 16 < s.len 0 then .raise .invalidNonceLength 0
  else if s.len 3 ≠ s.len 1 + 16 then .raise .destinationLengthMismatch 0
  else
    let key := (s.aeadCtx c).key
    let cb := counterBlock (s.buf 0)
    if 2 ^ 32 ≤ blockCounter cb + 1 + blockCount (s.len 1) then .fault .counterOverflow
    else
      let ct := aeadCrypt key cb (s.buf 1)
      .done 0 (s.writeBuf 3 (ct ++ aeadTag key cb (s.buf 2) ct))

/-- AEAD_SEAL (R154). -/
def execAeadSeal (c : BitVec 4) (s : State) : Host.Outcome State Fault Refusal := runCommand (.aeadSeal c) s (aeadSeal c)

/-- R155; `null` is completed with RESULT 0 and nothing written (R156). -/
def aeadOpen (c : BitVec 4) (s : State) : Verdict :=
  if 16 < s.len 0 then .raise .invalidNonceLength 0
  else if s.len 1 < 16 then .done 0 s
  else if s.len 3 ≠ s.len 1 - 16 then .raise .destinationLengthMismatch 0
  else
    let key := (s.aeadCtx c).key
    let cb := counterBlock (s.buf 0)
    let ct := (s.buf 1).take (s.len 1 - 16)
    let tag := (s.buf 1).drop (s.len 1 - 16)
    if 2 ^ 32 ≤ blockCounter cb + 1 then .fault .counterOverflow
    else if ctEqual (aeadTag key cb (s.buf 2) ct) tag = 0 then .done 0 s
    else if 2 ^ 32 ≤ blockCounter cb + 1 + blockCount (s.len 1 - 16) then .fault .counterOverflow
    else .done 1 (s.writeBuf 3 (aeadCrypt key cb ct))

/-- AEAD_OPEN (R155). -/
def execAeadOpen (c : BitVec 4) (s : State) : Host.Outcome State Fault Refusal := runCommand (.aeadOpen c) s (aeadOpen c)

/-- AEAD_CLEAN (R158). -/
def execAeadClean (c : BitVec 4) (s : State) : Host.Outcome State Fault Refusal :=
  runCommand (.aeadClean c) s (fun s => .done 0 (s.setAead c AeadCtx.blank))

end Sys2Proof.Machine
end

