-- ==== Sys2Proof/Machine/Sha256.lean ====
section
/-! DEFINITION. SHA-256, the hash of the reference configuration (spec 00_scope.md R13). The spec names the function and leaves its
content to FIPS 180-4, as general knowledge (93_implementation_defined.md GK8): PRESUMED, log 3. Its constants are computed here from
what they are: fractions of roots of the first primes. -/

namespace Sys2Proof.Machine

/-! Big-endian numbers. -/

/-- The unsigned integer of a byte sequence, most significant byte first. -/
def beNat (m : Bytes) : Nat := m.foldl (fun v b => v * 256 + b.toNat) 0

/-- The `n`-byte encoding of a number, most significant byte first. -/
def beBytes : Nat → Nat → Bytes
  | 0, _ => []
  | n + 1, v => beBytes n (v / 256) ++ [BitVec.ofNat 8 v]

/-- The first `n` big-endian words of a byte sequence. -/
def beWords : Nat → Bytes → List Word
  | 0, _ => []
  | n + 1, m => BitVec.ofNat 32 (beNat (m.take 4)) :: beWords n (m.drop 4)

/-! The constants. -/

/-- The first 64 primes: those below 312, each with no divisor from 2 to 17 but itself. -/
def shaPrimes : List Nat :=
  (List.range 312).filter (fun q => 2 ≤ q && (List.range' 2 16).all (fun d => q ≤ d || q % d != 0))

/-- The greatest `r` with `r^k ≤ v` that agrees with `acc` above its lowest `n` bits, found from the highest bit down. -/
def rootBits (k v : Nat) : (n acc : Nat) → Nat
  | 0, acc => acc
  | n + 1, acc => rootBits k v n (if (acc + 2 ^ n) ^ k ≤ v then acc + 2 ^ n else acc)

/-- PRESUMED (log 3): the first 32 bits of the fraction of the `k`-th root of `q`, a number below 2^10. -/
def rootFraction (k q : Nat) : Word := BitVec.ofNat 32 (rootBits k (q * 2 ^ (32 * k)) 37 0)

/-- PRESUMED (log 3): the 64 round constants, from the cube roots of the primes. -/
def shaRoundConstants : List Word := shaPrimes.map (rootFraction 3)

/-! The working variables. -/

/-- Four of the eight working variables, `w` the newest: each round puts one in front and drops `z`. -/
structure ShaHalf where
  (w x y z : Word)
  deriving DecidableEq, Repr

/-- The half after a round that computed `v` for it. -/
def ShaHalf.push (q : ShaHalf) (v : Word) : ShaHalf := ⟨v, q.w, q.x, q.y⟩

/-- Wordwise addition. -/
def ShaHalf.add (p q : ShaHalf) : ShaHalf := ⟨p.w + q.w, p.x + q.x, p.y + q.y, p.z + q.z⟩

/-- The 16 bytes of a half. -/
def ShaHalf.bytes (q : ShaHalf) : Bytes := [q.w, q.x, q.y, q.z].flatMap (fun v => beBytes 4 v.toNat)

/-- The eight working variables: `a` to `d` and `e` to `h` of FIPS 180-4. -/
structure ShaState where
  abcd : ShaHalf
  efgh : ShaHalf
  deriving DecidableEq, Repr

/-- PRESUMED (log 3): the initial hash value, from the square roots of the first eight primes. -/
def shaInit : ShaState :=
  let root (i : Nat) : Word := rootFraction 2 (shaPrimes.getD i 0)
  ⟨⟨root 0, root 1, root 2, root 3⟩, ⟨root 4, root 5, root 6, root 7⟩⟩

/-! The compression. -/

/-- The XOR of the rotations of `v` to the right by each of `ns`. -/
def rotXor (ns : List Nat) (v : Word) : Word := ns.foldl (fun acc n => acc ^^^ v.rotateRight n) 0

/-- PRESUMED (log 3): one round, `kw` the sum of the round constant and the schedule word. -/
def shaRound (s : ShaState) (kw : Word) : ShaState :=
  let ⟨a, b, c, d⟩ := s.abcd
  let ⟨e, f, g, h⟩ := s.efgh
  let t := kw + h + rotXor [6, 11, 25] e + (g ^^^ (e &&& (f ^^^ g)))
  ⟨s.abcd.push (t + rotXor [2, 13, 22] a + ((a &&& b) ||| (c &&& (a ||| b)))), s.efgh.push (d + t)⟩

/-- PRESUMED (log 3): the next `n` words of the message schedule, from a window of 16 words, oldest first. -/
def shaSchedule : Nat → List Word → List Word
  | 0, _ => []
  | n + 1, win =>
    let old := win.getD 1 0
    let new := win.getD 14 0
    let next := rotXor [17, 19] new ^^^ (new >>> 10)
    win.getD 0 0 ::
      shaSchedule n (win.drop 1 ++ [next + win.getD 9 0 + (rotXor [7, 18] old ^^^ (old >>> 3)) + win.getD 0 0])

/-- The compression of one 64-byte block. -/
def shaCompress (s : ShaState) (block : Bytes) : ShaState :=
  let t := (shaRoundConstants.zipWith (· + ·) (shaSchedule 64 (beWords 16 block))).foldl shaRound s
  ⟨s.abcd.add t.abcd, s.efgh.add t.efgh⟩

/-- The compression of the first `n` blocks. -/
def shaBlocks : Nat → ShaState → Bytes → ShaState
  | 0, s, _ => s
  | n + 1, s, m => shaBlocks n (shaCompress s (m.take 64)) (m.drop 64)

/-! The hash. -/

/-- PRESUMED (log 3): the padding of a message of fewer than 2^61 bytes: 0x80, zeros, and the bit length in 8 bytes.
A longer message has no bit length in 8 bytes; `sha256` pads none (DESIGN CHOICE, log 3). -/
def shaPad (m : Bytes) : Bytes := m ++ [0x80] ++ zeros ((119 - m.length % 64) % 64) ++ beBytes 8 (8 * m.length)

/-- The 32 digest bytes of the working variables. -/
def shaDigest (s : ShaState) : Bytes := s.abcd.bytes ++ s.efgh.bytes

/-- SHA-256 (R8, R13; log 3). DESIGN CHOICE (log 3): FIPS 180-4 defines no digest for a message of 2^64 bits or more and the spec
states none, so its 32 bytes are free values of the message and the place. -/
def sha256 (m : Bytes) : Bytes :=
  if m.length < 2 ^ 61 then shaDigest (shaBlocks ((shaPad m).length / 64) shaInit (shaPad m))
  else (List.range 32).map (Config.longMessageByte m)

end Sys2Proof.Machine
end

