-- ==== Sys2Proof/Machine/Hmac.lean ====
section
/-! DEFINITION. HMAC over the hashes of the configuration: HMAC_INIT, HMAC_UPDATE, HMAC_FINISH, HMAC_RESET, HMAC_SAVE, HMAC_RESTORE,
HMAC_CLEAN_SAVED, HMAC_CLEAN (spec 45_hmac.md). A hash state is the bytes it has absorbed (10_state.md R35). -/

namespace Sys2Proof.Machine

/-- `H_h` (R8): SHA-256, or the free digest of an external hash (log 3). -/
def hashOf (e : HashEngine) (m : Bytes) : Bytes :=
  match e.alg with
  | .sha256 => sha256 m
  | .external id => (List.range e.digestLen).map (Config.hashByte id m)

/-- The padded key `kpad` (R170). -/
def hmacKeyPad (e : HashEngine) (key : Bytes) : Bytes :=
  let kb := if e.blockSize < key.length then hashOf e key else key
  kb ++ zeros (e.blockSize - kb.length)

/-- `ipad` (R170). -/
def hmacIpad (e : HashEngine) (key : Bytes) : Bytes := xorByte (hmacKeyPad e key) 0x36

/-- `opad` (R170). -/
def hmacOpad (e : HashEngine) (key : Bytes) : Bytes := xorByte (hmacKeyPad e key) 0x5C

/-- `HMAC_h(K, m)` (R171). -/
def hmac (e : HashEngine) (key m : Bytes) : Bytes := hashOf e (hmacOpad e key ++ hashOf e (hmacIpad e key ++ m))

/-- The rest of a command of hash `h`, with HASHES[h] (R8, R73; log 16). -/
def withEngine (s : State) (h : Nat) (body : HashEngine → Verdict) : Verdict :=
  match hashEngine? s.params h with
  | some e => body e
  | none => .stop .noSuchHash

/-- R172. -/
def hmacInit (c h : BitVec 4) (s : State) : Verdict :=
  withEngine s h.toNat fun e =>
    .done 0 (s.setHmac c
      { valid := true, hash := h.toNat, ipad := hmacIpad e (s.buf 0), opad := hmacOpad e (s.buf 0)
        inner := hmacIpad e (s.buf 0), finished := false, cached := zeros e.digestLen, savedValid := false, saved := [] })

/-- HMAC_INIT (R172). -/
def execHmacInit (c h : BitVec 4) (s : State) : Host.Outcome State Fault Refusal := runCommand (.hmacInit c h) s (hmacInit c h)

/-- R173. -/
def hmacUpdate (c : BitVec 4) (s : State) : Verdict :=
  let x := s.hmacCtx c
  if x.finished then .fault .stateViolation
  else .done 0 (s.setHmac c { x with inner := x.inner ++ s.buf 0 })

/-- HMAC_UPDATE (R173). -/
def execHmacUpdate (c : BitVec 4) (s : State) : Host.Outcome State Fault Refusal := runCommand (.hmacUpdate c) s (hmacUpdate c)

/-- The context after a finish: the first one finalizes both hashes, a later one keeps the cached digest (R174). -/
def finishCtx (e : HashEngine) (x : HmacCtx) : HmacCtx :=
  if x.finished then x else { x with cached := hashOf e (x.opad ++ hashOf e x.inner), finished := true }

/-- R174. -/
def hmacFinish (c : BitVec 4) (s : State) : Verdict :=
  let x := s.hmacCtx c
  withEngine s x.hash fun e =>
    if s.len 0 ≠ e.digestLen then .raise .destinationLengthMismatch 0
    else .done 0 ((s.setHmac c (finishCtx e x)).writeBuf 0 (finishCtx e x).cached)

/-- HMAC_FINISH (R174). -/
def execHmacFinish (c : BitVec 4) (s : State) : Host.Outcome State Fault Refusal := runCommand (.hmacFinish c) s (hmacFinish c)

/-- R175. -/
def hmacReset (c : BitVec 4) (s : State) : Verdict :=
  let x := s.hmacCtx c
  withEngine s x.hash fun e =>
    if !e.ser then .raise .capabilityUnsupported 0
    else .done 0 (s.setHmac c { x with inner := x.ipad, finished := false, cached := zeros e.digestLen })

/-- HMAC_RESET (R175). -/
def execHmacReset (c : BitVec 4) (s : State) : Host.Outcome State Fault Refusal := runCommand (.hmacReset c) s (hmacReset c)

/-- R176. -/
def hmacSave (c : BitVec 4) (s : State) : Verdict :=
  let x := s.hmacCtx c
  withEngine s x.hash fun e =>
    if !e.ser then .raise .capabilityUnsupported 0
    else if x.finished then .fault .stateViolation
    else .done 0 (s.setHmac c { x with saved := x.inner, savedValid := true })

/-- HMAC_SAVE (R176). -/
def execHmacSave (c : BitVec 4) (s : State) : Host.Outcome State Fault Refusal := runCommand (.hmacSave c) s (hmacSave c)

/-- R177. -/
def hmacRestore (c : BitVec 4) (s : State) : Verdict :=
  let x := s.hmacCtx c
  withEngine s x.hash fun e =>
    if !e.ser then .raise .capabilityUnsupported 0
    else if !x.savedValid then .fault .stateViolation
    else .done 0 (s.setHmac c { x with inner := x.saved, finished := false, cached := zeros e.digestLen })

/-- HMAC_RESTORE (R177). -/
def execHmacRestore (c : BitVec 4) (s : State) : Host.Outcome State Fault Refusal := runCommand (.hmacRestore c) s (hmacRestore c)

/-- R178. -/
def hmacCleanSaved (c : BitVec 4) (s : State) : Verdict :=
  let x := s.hmacCtx c
  withEngine s x.hash fun e =>
    if !e.ser then .raise .capabilityUnsupported 0
    else .done 0 (s.setHmac c { x with saved := [], savedValid := false })

/-- HMAC_CLEAN_SAVED (R178). -/
def execHmacCleanSaved (c : BitVec 4) (s : State) : Host.Outcome State Fault Refusal :=
  runCommand (.hmacCleanSaved c) s (hmacCleanSaved c)

/-- HMAC_CLEAN (R179; log 10). -/
def execHmacClean (c : BitVec 4) (s : State) : Host.Outcome State Fault Refusal :=
  runCommand (.hmacClean c) s (fun s => .done 0 (s.setHmac c HmacCtx.blank))

end Sys2Proof.Machine
end

