-- ==== Sys2Proof/Machine/Hkdf.lean ====
section
/-! DEFINITION. HKDF: HKDF_INIT, HKDF_EXPAND, HKDF_CLEAN (spec 46_hkdf.md). -/

namespace Sys2Proof.Machine

/-- The salt operand: absent means `zeros(L)` (R190, R192). -/
def hkdfSalt (e : HashEngine) (salt : Bytes) : Bytes := if salt.length = 0 then zeros e.digestLen else salt

/-- HKDF_INFO_MAX is finite and below `n` (R190). -/
def infoTooLong (p : Params) (n : Nat) : Bool :=
  match p.hkdfInfoMax with
  | none => false
  | some m => decide (m < n)

/-- R190. -/
def hkdfInit (c h : BitVec 4) (s : State) : Verdict :=
  withEngine s h.toNat fun e =>
    if infoTooLong s.params (s.len 2) then .raise .capacityExceeded 0
    else
      .done 0 (s.setHkdf c
        { valid := true, hash := h.toNat, prk := hmac e (hkdfSalt e (s.buf 1)) (s.buf 0), info := s.buf 2
          t := zeros e.digestLen, pos := e.digestLen, ctr := 0 })

/-- HKDF_INIT (R190). -/
def execHkdfInit (c h : BitVec 4) (s : State) : Host.Outcome State Fault Refusal := runCommand (.hkdfInit c h) s (hkdfInit c h)

/-- `NextBlock(y)` (R193). -/
def nextBlock (e : HashEngine) (y : HkdfCtx) : HkdfCtx :=
  let ctr := y.ctr + 1
  let prev := if ctr = 1 then [] else y.t
  { y with ctr := ctr, t := hmac e y.prk (prev ++ y.info ++ [BitVec.ofNat 8 ctr]), pos := 0 }

/-- The `repeat n times` of R194: the bytes handed out and the context after. -/
def expandBytes (e : HashEngine) : (n : Nat) → (y : HkdfCtx) → Bytes × HkdfCtx
  | 0, y => ([], y)
  | n + 1, y =>
    let y := if y.pos = e.digestLen then nextBlock e y else y
    let rest := expandBytes e n { y with pos := y.pos + 1 }
    (y.t.getD y.pos 0 :: rest.1, rest.2)

/-- `avail`, the bytes the context can still hand out (R194). -/
def hkdfAvail (e : HashEngine) (y : HkdfCtx) : Nat := (e.digestLen - y.pos) + (255 - y.ctr) * e.digestLen

/-- R194. -/
def hkdfExpand (c : BitVec 4) (s : State) : Verdict :=
  let y := s.hkdfCtx c
  let n := s.len 0
  withEngine s y.hash fun e =>
    if hkdfAvail e y < n then .raise .expansionLimitExceeded 0
    else if s.params.hkdfRequiresSer && !e.ser && decide (e.digestLen - y.pos < n) then .raise .capabilityUnsupported 0
    else
      let out := expandBytes e n y
      .done (BitVec.ofNat 64 n) ((s.setHkdf c out.2).writeBuf 0 out.1)

/-- HKDF_EXPAND (R194). -/
def execHkdfExpand (c : BitVec 4) (s : State) : Host.Outcome State Fault Refusal := runCommand (.hkdfExpand c) s (hkdfExpand c)

/-- HKDF_CLEAN (R197; log 10). -/
def execHkdfClean (c : BitVec 4) (s : State) : Host.Outcome State Fault Refusal :=
  runCommand (.hkdfClean c) s (fun s => .done 0 (s.setHkdf c HkdfCtx.blank))

end Sys2Proof.Machine
end

