-- ==== Sys2Proof/Machine/Random.lean ====
section
/-! DEFINITION. The random byte generator: RAND_BYTES, RAND_UINT32, RAND_STRING, RAND_STRING_ENTROPY (spec 41_random.md). -/

namespace Sys2Proof.Machine

/-- `maxByte(c) = 256 − (256 mod c)` (R104). -/
def maxByte (c : Nat) : Nat := 256 - 256 % c

/-- R102. -/
def randBytes (s : State) : Verdict :=
  if !s.params.entropyAvailable then .raise .randomSourceUnavailable 0
  else .done 0 ((s.afterDraw (s.len 0)).writeBuf 0 (s.draw (s.len 0)))

/-- RAND_BYTES (R102). -/
def execRandBytes (s : State) : Host.Outcome State Fault Refusal := runCommand .randBytes s randBytes

/-- R103. -/
def randUint32 (s : State) : Verdict :=
  if !s.params.entropyAvailable then .raise .randomSourceUnavailable 0
  else .done (BitVec.ofNat 64 (leNat (s.draw 4))) (s.afterDraw 4)

/-- RAND_UINT32 (R103). -/
def execRandUint32 (s : State) : Host.Outcome State Fault Refusal := runCommand .randUint32 s randUint32

/-- The loop of R105 over the bytes `draws k`, `draws (k + 1)`, …: the string and the number of bytes drawn in all, or none when
`fuel` draws do not give `need` accepted bytes. A byte `b` below `maxByte c` gives symbol `b mod c`, another is discarded (R104). -/
def pickSymbols (charset : Bytes) (draws : Nat → Byte) : (fuel need k : Nat) → Option (Bytes × Nat)
  | _, 0, k => some ([], k)
  | 0, _ + 1, _ => none
  | fuel + 1, need + 1, k =>
    let b := (draws k).toNat
    if b < maxByte charset.length then
      (pickSymbols charset draws fuel need (k + 1)).map
        (fun r => (charset.getD (b % charset.length) 0 :: r.1, r.2))
    else pickSymbols charset draws fuel (need + 1) (k + 1)

/-- How many draws a random string of `n` symbols can take before the run hangs: `n`, the bytes State lists, and a free number
(R108; log 7). -/
def drawLimit (s : State) (n : Nat) : Nat := Config.rejectBudget s.drawn + (n + s.entropy.length)

/-- The random string of `n = N1` symbols over the charset D0, with the value RESULT gets (R105, R106). -/
def randomString (result : DWord) (s : State) : Verdict :=
  if s.len 0 < 2 ∨ 256 < s.len 0 then .raise .invalidCharset 0
  else if !s.params.entropyAvailable then .raise .randomSourceUnavailable 0
  else
    match pickSymbols (s.buf 0) s.entropyByte (drawLimit s (s.len 1)) (s.len 1) 0 with
    | some (out, drawn) => .done result ((s.afterDraw drawn).writeBuf 1 out)
    | none => .stop .entropyHang

/-- RAND_STRING (R105). -/
def execRandString (s : State) : Host.Outcome State Fault Refusal := runCommand .randString s (randomString 0)

/-- The least `k` with `acc * c^k ≥ target`, sought among the first `fuel`. -/
def leastPower (c target : Nat) : (fuel acc : Nat) → Nat
  | 0, _ => 0
  | fuel + 1, acc => if target ≤ acc then 0 else 1 + leastPower c target fuel (acc * c)

/-- The least `k ≥ 0` with `c^k ≥ 2^bits`; for `c ≥ 2` it is at most `bits` (R106). -/
def entropyLength (c bits : Nat) : Nat := leastPower c (2 ^ bits) bits 1

/-- R106. -/
def randStringEntropy (s : State) : Verdict :=
  if s.len 0 < 2 ∨ 256 < s.len 0 then .raise .invalidCharset 0
  else
    let k := entropyLength (s.len 0) (s.arg 4).toNat
    if s.len 1 ≠ k then .raise .destinationLengthMismatch (BitVec.ofNat 64 k)
    else randomString (BitVec.ofNat 64 k) s

/-- RAND_STRING_ENTROPY (R106). -/
def execRandStringEntropy (s : State) : Host.Outcome State Fault Refusal := runCommand .randStringEntropy s randStringEntropy

end Sys2Proof.Machine
end

