-- ==== Sys2Proof/Machine/Dispatch.lean ====
section
/-! DEFINITION. One arm per command of the opcode map (spec 30_encoding.md R75). -/

namespace Sys2Proof.Machine

def exec (i : Instr) (s : State) : Host.Outcome State Fault Refusal :=
  match i with
  | .randBytes => Sys2Proof.Machine.execRandBytes s
  | .randUint32 => Sys2Proof.Machine.execRandUint32 s
  | .randString => Sys2Proof.Machine.execRandString s
  | .randStringEntropy => Sys2Proof.Machine.execRandStringEntropy s
  | .chachaStream => Sys2Proof.Machine.execChachaStream s
  | .chachaStreamXor => Sys2Proof.Machine.execChachaStreamXor s
  | .poly1305Auth => Sys2Proof.Machine.execPoly1305Auth s
  | .aeadInit c => Sys2Proof.Machine.execAeadInit c s
  | .aeadSeal c => Sys2Proof.Machine.execAeadSeal c s
  | .aeadOpen c => Sys2Proof.Machine.execAeadOpen c s
  | .aeadClean c => Sys2Proof.Machine.execAeadClean c s
  | .hmacInit c h => Sys2Proof.Machine.execHmacInit c h s
  | .hmacUpdate c => Sys2Proof.Machine.execHmacUpdate c s
  | .hmacFinish c => Sys2Proof.Machine.execHmacFinish c s
  | .hmacReset c => Sys2Proof.Machine.execHmacReset c s
  | .hmacSave c => Sys2Proof.Machine.execHmacSave c s
  | .hmacRestore c => Sys2Proof.Machine.execHmacRestore c s
  | .hmacCleanSaved c => Sys2Proof.Machine.execHmacCleanSaved c s
  | .hmacClean c => Sys2Proof.Machine.execHmacClean c s
  | .hkdfInit c h => Sys2Proof.Machine.execHkdfInit c h s
  | .hkdfExpand c => Sys2Proof.Machine.execHkdfExpand c s
  | .hkdfClean c => Sys2Proof.Machine.execHkdfClean c s
  | .ctSelect => Sys2Proof.Machine.execCtSelect s
  | .ctLessOrEqual => Sys2Proof.Machine.execCtLessOrEqual s
  | .ctCompare => Sys2Proof.Machine.execCtCompare s
  | .ctEqual => Sys2Proof.Machine.execCtEqual s

end Sys2Proof.Machine
end

