-- ==== Sys2Proof/Machine/Access.lean ====
section
/-! DEFINITION. The host's accesses: the register interface, a CMD write, host writes to buffer memory, reset (spec 10_state.md R22,
R23, R38; 20_memory.md R50, R60, R61; 60_exceptions.md R231; 70_reset_and_hazards.md R251). -/

namespace Sys2Proof.Machine

/-- The register at a byte offset (R60). -/
def regAt : Nat → Option Reg
  | 0x00 => some .cmd
  | 0x08 => some (.arg 0)
  | 0x10 => some (.arg 1)
  | 0x18 => some (.arg 2)
  | 0x20 => some (.arg 3)
  | 0x28 => some (.arg 4)
  | 0x30 => some (.arg 5)
  | 0x38 => some (.arg 6)
  | 0x40 => some (.arg 7)
  | 0x48 => some .status
  | 0x50 => some .result
  | 0x58 => some .fault
  | 0x60 => some .config
  | _ => none

/-- The width of a register in bytes (R38). -/
def regWidth : Reg → Nat
  | .cmd => 4
  | .arg _ => 8
  | .status => 4
  | .result => 8
  | .fault => 4
  | .config => 4

/-- The register a whole-register access names (R61; log 12). -/
def accessed (offset width : Nat) : Option Reg :=
  match regAt offset with
  | some r => if regWidth r = width then some r else none
  | none => none

/-- What a host read of a register returns (R22 to R29, R38). -/
def readReg (s : State) : Reg → DWord
  | .cmd => s.cmd.setWidth 64
  | .arg i => s.arg i
  | .status => s.status.setWidth 64
  | .result => s.result
  | .fault => s.fault.setWidth 64
  | .config => s.config.setWidth 64

/-- A host write of `w` to CMD: the fault state ignores it (R231), else CMD takes `w` and one command runs (R23); a word that does
not decode is the error IllegalCommand (R80). -/
def writeCmd (w : Word) (s : State) : Host.Outcome State Fault Refusal :=
  if s.faulted then .next s
  else
    match decode s.params w with
    | .ok i => exec i { s with cmd := w }
    | .error _ => .next (State.report { s with cmd := w } (errorCode .illegalCommand) 0)

/-- A host write to a register: "A host write to a read-only register changes nothing" (R38). -/
def writeReg (r : Reg) (v : DWord) (s : State) : Host.Outcome State Fault Refusal :=
  match r with
  | .cmd => writeCmd (v.setWidth 32) s
  | .arg i => .next (s.setArg i v)
  | .status => .next s
  | .result => .next s
  | .fault => .next s
  | .config => .next s

/-- What buffer `Dk` holds when a reset cut short the command that writes it: any value in every byte (R251). A byte that is not
admitted keeps its value, since the core accesses none (R51), and no byte lies past the address space (R50; log 13). -/
def State.tornBytes (s : State) (k : Fin 4) : Bytes :=
  (List.range (min (s.len k) (2 ^ s.params.addrW - s.ptr k))).map (fun j =>
    if admits s.params (s.ptr k + j) then Config.tornByte (s.torn + j) else Memory.get s.mem (s.ptr k + j))

/-- The state with the output buffer of a command torn by a reset (R251; log 13). -/
def State.tearOutput (s : State) (i : Instr) : State :=
  match output i with
  | none => s
  | some k =>
    { s with
      mem := memWrite s.mem (s.ptr k) (s.tornBytes k)
      torn := s.torn + (s.tornBytes k).length }

/-- A CMD write of `w` whose command a reset cuts short: the output buffer holds any value, every other effect is lost, and the core
is reset. R251 excepts no command, so the buffer is torn even where the command would have ended in an error or a fault. The fault
state ignores the write, so that no command runs (R231), and a word that does not decode names no buffer (R80; log 13). -/
def cutShort (w : Word) (s : State) : State :=
  if s.faulted then s.resetCore
  else
    match decode s.params w with
    | .ok i => (s.tearOutput i).resetCore
    | .error _ => s.resetCore

/-- One host access (R20, R22, R23, R38, R50, R61, R251). -/
def hostAccess (a : HostAction) (s : State) : Host.Outcome State Fault Refusal :=
  match a with
  | .regWrite offset width v =>
    match accessed offset width with
    | some r => writeReg r v s
    | none => .refused .noSuchRegister
  | .regRead offset width =>
    match accessed offset width with
    | some r => .next { s with readData := readReg s r }
    | none => .refused .noSuchRegister
  | .memWrite addr data =>
    if addr + data.length ≤ 2 ^ s.params.addrW then .next { s with mem := memWrite s.mem addr data }
    else .fault .outsideHostMemory
  | .reset => .next s.resetCore
  | .resetDuring w => .next (cutShort w s)

/-- The host's next access, which is then no longer to come; with none the core is idle and nothing changes (R20; log 4). -/
def takeAccess (s : State) : Host.Outcome State Fault Refusal :=
  match s.host with
  | [] => .next s
  | a :: rest => hostAccess a { s with host := rest }

/-- The host access that writes a command word to CMD (R23, R60). -/
def cmdWrite (w : Word) : HostAction := .regWrite 0x00 4 (w.setWidth 64)

end Sys2Proof.Machine
end

