-- ==== Sys2Proof/Machine/Step.lean ====
section
/-! DEFINITION. One step: the host's next access, a command being one of them (spec 10_state.md R20, R23, R39; 60_exceptions.md
R220). -/

namespace Sys2Proof.Machine

/-- One step. A configuration outside R6 to R12 is refused (R12; log 16). -/
def step (s : State) : Host.Outcome State Fault Refusal :=
  if !s.params.wf then .refused .illFormedConfiguration else takeAccess s

/-- `s` with a CMD write of the word as the host's very next access: the core fetches nothing, its commands arrive as CMD writes
(R20, R65; log 4, log 18). -/
def State.withFetchWord (s : State) (nbits w : Nat) : State :=
  { s with host := cmdWrite (BitVec.ofNat 32 (w % 2 ^ nbits)) :: s.host }

end Sys2Proof.Machine
end

