-- ==== Sys2Proof/Safety.lean ====
section
/-! DEFINITION. The terms in which claims are stated: when a command passes the common prologue, said as the spec says it (R52, R54,
R55, R232, R233); what a safe run is; the invariants of the state (R24 to R33); the HKDF output stream (R193). -/

namespace Sys2Proof.Machine

/-! The prologue, as conditions on the state and the operands alone. -/

/-- The configuration is well formed (R6 to R12) and the core is not in the fault state (R231). A run is safe while this holds. -/
def State.Ready (s : State) : Prop := s.params.wf = true ∧ s.faulted = false

/-- `Dk` is admissible (R52). -/
def State.DescAdmissible (s : State) (k : Fin 4) : Prop :=
  s.len k = 0 ∨
    (s.ptr k + s.len k ≤ 2 ^ s.params.addrW ∧
      ∀ a, s.ptr k ≤ a → a < s.ptr k + s.len k → admits s.params a = true)

/-- `Dj` and `Dk` overlap (R54). -/
def State.DescOverlap (s : State) (j k : Fin 4) : Prop :=
  0 < s.len j ∧ 0 < s.len k ∧ s.ptr j < s.ptr k + s.len k ∧ s.ptr k < s.ptr j + s.len j

/-- The output of `i` breaks R55: it overlaps an input, and is not the output D3 of CHACHA_STREAM_XOR identical to its input D2. -/
def State.AliasBroken (s : State) (i : Instr) : Prop :=
  ∃ o k, output i = some o ∧ k ∈ inputs i ∧ s.DescOverlap o k ∧
    ¬(i = .chachaStreamXor ∧ o = 3 ∧ k = 2 ∧ s.ptr o = s.ptr k ∧ s.len o = s.len k)

/-- Every descriptor of `i` is admissible (R53). -/
def State.BuffersOk (s : State) (i : Instr) : Prop := ∀ k ∈ descriptors i, s.DescAdmissible k

/-- No item of the prologue of R233 applies to `i`: its own checks and computation run. -/
def State.Clear (s : State) (i : Instr) : Prop :=
  s.Ready ∧ s.BuffersOk i ∧ ¬s.AliasBroken i ∧ s.contextReady i = true

/-- The addresses `i` may write: those of its output descriptor (R76). -/
def State.InOutput (s : State) (i : Instr) (a : Nat) : Prop :=
  ∃ o, output i = some o ∧ s.ptr o ≤ a ∧ a < s.ptr o + s.len o

/-- The commands of the random byte generator (R75, family 1). -/
def drawsEntropy : Instr → Bool
  | .randBytes | .randUint32 | .randString | .randStringEntropy => true
  | .chachaStream | .chachaStreamXor | .poly1305Auth => false
  | .aeadInit _ | .aeadSeal _ | .aeadOpen _ | .aeadClean _ => false
  | .hmacInit _ _ | .hmacUpdate _ | .hmacFinish _ | .hmacReset _ => false
  | .hmacSave _ | .hmacRestore _ | .hmacCleanSaved _ | .hmacClean _ => false
  | .hkdfInit _ _ | .hkdfExpand _ | .hkdfClean _ => false
  | .ctSelect | .ctLessOrEqual | .ctCompare | .ctEqual => false

/-- The bytes among `draws` that a charset of `c` symbols accepts, in order (R104). -/
def acceptedDraws (c : Nat) (draws : Bytes) : Bytes := draws.filter (fun b => decide (b.toNat < maxByte c))

/-- The symbols that accepted bytes map to (R104). -/
def symbolsOf (charset : Bytes) (accepted : Bytes) : Bytes :=
  accepted.map (fun b => charset.getD (b.toNat % charset.length) 0)

/-! The HKDF output stream (R193). -/

/-- `T(i)`, with `T(0)` empty (R193). -/
def hkdfT (e : HashEngine) (prk info : Bytes) : Nat → Bytes
  | 0 => []
  | i + 1 => hmac e prk (hkdfT e prk info i ++ info ++ [BitVec.ofNat 8 (i + 1)])

/-- `T(1) ++ T(2) ++ … ++ T(255)` (R193). -/
def hkdfStream (e : HashEngine) (prk info : Bytes) : Bytes :=
  (List.range 255).flatMap (fun i => hkdfT e prk info (i + 1))

/-- How many bytes of the stream a context has handed out: all of the blocks made, less what is left of the last (R33). -/
def hkdfHanded (e : HashEngine) (y : HkdfCtx) : Nat := y.ctr * e.digestLen + y.pos - e.digestLen

/-! The invariants. -/

/-- Host memory is in canonical form and lists no address outside the address space (R50). -/
def State.MemoryOk (s : State) : Prop :=
  Memory.wf s.mem = true ∧ ∀ cell ∈ s.mem, cell.1 < 2 ^ s.params.addrW

/-- STATUS, RESULT and FAULT agree (R24 to R28, R221, R230): out of the fault state FAULT is 0 and STATUS an outcome code of
0x00 to 0x09, and only OK and DestinationLengthMismatch come with a RESULT other than 0; in the fault state STATUS is 0xFF, RESULT
0, FAULT[30:20] reads 0 and the cause is one of the six. -/
def State.ReportOk (s : State) : Prop :=
  (s.faulted = false → s.fault = 0 ∧ s.status.toNat ≤ 9 ∧ (s.status ≠ 0 → s.status ≠ 3 → s.result = 0)) ∧
    (s.faulted = true → s.status = 0xFF ∧ s.result = 0 ∧ s.fault.extractLsb' 20 11 = 0 ∧
      1 ≤ (s.fault.extractLsb' 0 8).toNat ∧ (s.fault.extractLsb' 0 8).toNat ≤ 6)

/-- An AEAD slot: a key of 32 bytes in a context of the configuration, or blank (R31); a slot past N_CTX is blank (log 2). -/
def AeadSlotOk (p : Params) (c : BitVec 4) (x : AeadCtx) : Prop :=
  (x.valid = true → c.toNat < p.nCtx ∧ x.key.length = 32) ∧ (x.valid = false → x = AeadCtx.blank)

/-- An HMAC slot: keyed for a hash of the configuration, or blank (R32, R170 to R179). That a blank slot has hash number 0 is the
model's choice after a CLEAN (log 10), and so is a blank slot past N_CTX (log 2). -/
def HmacSlotOk (p : Params) (c : BitVec 4) (x : HmacCtx) : Prop :=
  (x.valid = true → c.toNat < p.nCtx ∧ ∃ e, hashEngine? p x.hash = some e ∧
    x.ipad.length = e.blockSize ∧ x.opad = xorByte x.ipad 0x6A ∧ x.ipad <+: x.inner ∧
    (x.finished = false → x.cached = zeros e.digestLen) ∧
    (x.finished = true → x.cached = hashOf e (x.opad ++ hashOf e x.inner)) ∧
    (x.savedValid = false → x.saved = []) ∧ (x.savedValid = true → x.ipad <+: x.saved)) ∧
  (x.valid = false → x = HmacCtx.blank)

/-- An HKDF slot: built for a hash of the configuration, its block buffer the last block of the stream, or blank (R33, R190 to R197).
That a blank slot has hash number 0 is the model's choice after a CLEAN (log 10), and so is a blank slot past N_CTX (log 2). -/
def HkdfSlotOk (p : Params) (c : BitVec 4) (y : HkdfCtx) : Prop :=
  (y.valid = true → c.toNat < p.nCtx ∧ ∃ e, hashEngine? p y.hash = some e ∧
    y.prk.length = e.digestLen ∧ infoTooLong p y.info.length = false ∧ y.pos ≤ e.digestLen ∧ y.ctr ≤ 255 ∧
    (y.ctr = 0 → y.t = zeros e.digestLen ∧ y.pos = e.digestLen) ∧
    (0 < y.ctr → y.t = hkdfT e y.prk y.info y.ctr)) ∧
  (y.valid = false → y = HkdfCtx.blank)

/-- Every AEAD slot is in the form of `AeadSlotOk`. -/
def State.AeadOk (s : State) : Prop := ∀ c, AeadSlotOk s.params c (s.aeadCtx c)

/-- Every HMAC slot is in the form of `HmacSlotOk`. -/
def State.HmacOk (s : State) : Prop := ∀ c, HmacSlotOk s.params c (s.hmacCtx c)

/-- Every HKDF slot is in the form of `HkdfSlotOk`. -/
def State.HkdfOk (s : State) : Prop := ∀ c, HkdfSlotOk s.params c (s.hkdfCtx c)

/-! The contexts a command may change (R261): SEAL and OPEN change none. -/

/-- The AEAD context that `i` may change. -/
def aeadTarget : Instr → Option (BitVec 4)
  | .aeadInit c | .aeadClean c => some c
  | .aeadSeal _ | .aeadOpen _ => none
  | .randBytes | .randUint32 | .randString | .randStringEntropy => none
  | .chachaStream | .chachaStreamXor | .poly1305Auth => none
  | .hmacInit _ _ | .hmacUpdate _ | .hmacFinish _ | .hmacReset _ => none
  | .hmacSave _ | .hmacRestore _ | .hmacCleanSaved _ | .hmacClean _ => none
  | .hkdfInit _ _ | .hkdfExpand _ | .hkdfClean _ => none
  | .ctSelect | .ctLessOrEqual | .ctCompare | .ctEqual => none

/-- The HMAC context that `i` may change. -/
def hmacTarget : Instr → Option (BitVec 4)
  | .hmacInit c _ | .hmacUpdate c | .hmacFinish c | .hmacReset c => some c
  | .hmacSave c | .hmacRestore c | .hmacCleanSaved c | .hmacClean c => some c
  | .randBytes | .randUint32 | .randString | .randStringEntropy => none
  | .chachaStream | .chachaStreamXor | .poly1305Auth => none
  | .aeadInit _ | .aeadSeal _ | .aeadOpen _ | .aeadClean _ => none
  | .hkdfInit _ _ | .hkdfExpand _ | .hkdfClean _ => none
  | .ctSelect | .ctLessOrEqual | .ctCompare | .ctEqual => none

/-- The HKDF context that `i` may change. -/
def hkdfTarget : Instr → Option (BitVec 4)
  | .hkdfInit c _ | .hkdfExpand c | .hkdfClean c => some c
  | .randBytes | .randUint32 | .randString | .randStringEntropy => none
  | .chachaStream | .chachaStreamXor | .poly1305Auth => none
  | .aeadInit _ | .aeadSeal _ | .aeadOpen _ | .aeadClean _ => none
  | .hmacInit _ _ | .hmacUpdate _ | .hmacFinish _ | .hmacReset _ => none
  | .hmacSave _ | .hmacRestore _ | .hmacCleanSaved _ | .hmacClean _ => none
  | .ctSelect | .ctLessOrEqual | .ctCompare | .ctEqual => none

/-! HMAC sessions (R171) and HKDF pieces (R195). -/

/-- `s` is a state whose context `c` was keyed with `key` for hash `h` and has been fed `m` since, by any number of HMAC_UPDATE
commands; between two commands the host may do anything that leaves the context as it is. -/
inductive HmacFed (c h : BitVec 4) (key : Bytes) : Bytes → State → Prop where
  | keyed (s t : State) : s.buf 0 = key → exec (.hmacInit c h) s = .next t → t.status = 0 → HmacFed c h key [] t
  | fed (m : Bytes) (s u t : State) : HmacFed c h key m s → u.params = s.params → u.hmacCtx c = s.hmacCtx c →
      exec (.hmacUpdate c) u = .next t → t.status = 0 → HmacFed c h key (m ++ u.buf 0) t

/-- `u` is a state reached from `s` by any number of HKDF_EXPAND commands on context `c`, none of which failed, and `out` is all
they wrote; between two commands the host may do anything that leaves the context as it is. -/
inductive HkdfExpanded (c : BitVec 4) (s : State) : Bytes → State → Prop where
  | start : HkdfExpanded c s [] s
  | piece (out : Bytes) (u v t : State) : HkdfExpanded c s out u → v.params = u.params → v.hkdfCtx c = u.hkdfCtx c →
      exec (.hkdfExpand c) v = .next t → t.status = 0 →
      HkdfExpanded c s (out ++ memRead t.mem (v.ptr 0) (v.len 0)) t

end Sys2Proof.Machine
end

