-- ==== Sys2Proof/Certificates/Slice0/Obligations.lean ====
section
/-! DEFINITION. The statements for the provers. `s.Clear i` says that no item of the common prologue (R233) applies to command `i` at
state `s`; `s.report code r` is `s` with STATUS and RESULT written and nothing else (R221); `s.enterFault w c` is `s` with FAULT,
STATUS and RESULT written as R230 says and nothing else. -/

open Sys2Proof Sys2Proof.Machine

/-! Encoding. -/

/-- Command words of each family, and words that do not decode, in the reference configuration (R70, R75, V-E-1). -/
def Obligations.KnownWordsDecode : Prop :=
  decode Params.reference 0x00000010 = .ok .randBytes ∧
  decode Params.reference 0x00000021 = .ok .chachaStreamXor ∧
  decode Params.reference 0x00000030 = .ok .poly1305Auth ∧
  decode Params.reference 0x00000341 = .ok (.aeadSeal 3) ∧
  decode Params.reference 0x00000157 = .ok (.hmacClean 1) ∧
  decode Params.reference 0x00000260 = .ok (.hkdfInit 2 0) ∧
  decode Params.reference 0x00000073 = .ok .ctEqual ∧
  decode Params.reference 0x00010010 = .error .reservedBits ∧
  decode Params.reference 0x00000044 = .error .unassignedOpcode ∧
  decode Params.reference 0x00000441 = .error .contextField ∧
  decode Params.reference 0x00000373 = .error .contextField ∧
  decode Params.reference 0x00001050 = .error .hashField ∧
  decode Params.reference 0x00001051 = .error .hashField

/-- In every configuration, decoding the word of a command of that configuration gives the command back (R70 to R75, R79). -/
def Obligations.DecodeOfEncode : Prop :=
  ∀ (p : Params) (i : Instr), i.wf p = true → decode p (encode i) = .ok i

/-- A word that decodes is the word of the command it decodes to, which is one of the configuration: no two words decode alike, and
CTX and HASH obey R72 and R73. -/
def Obligations.EncodeOfDecode : Prop :=
  ∀ (p : Params) (w : Word) (i : Instr), decode p w = .ok i → encode i = w ∧ i.wf p = true

/-- R74: a word with any of the bits [31:16] set does not decode. -/
def Obligations.ReservedBitsDoNotDecode : Prop :=
  ∀ (p : Params) (w : Word) (j : Nat), 16 ≤ j → j < 32 → w.getLsbD j = true → ∀ i, decode p w ≠ .ok i

/-- R80: a CMD write of a word that does not decode leaves STATUS = 0x08 and RESULT = 0, CMD holds the word (R23), and nothing else
changes; a word with OP = 0x00, the zero word among them, does not decode. -/
def Obligations.IllegalCommandChangesOnlyTheReport : Prop :=
  (∀ (s : State) (w : Word) (rest : List HostAction), s.Ready → s.host = cmdWrite w :: rest →
    (∀ i, decode s.params w ≠ .ok i) →
    step s = .next { s with host := rest, cmd := w, status := 0x08, result := 0 }) ∧
  ∀ (p : Params) (w : Word) (i : Instr), w.extractLsb' 0 8 = 0 → decode p w ≠ .ok i

/-! The step, reset and the register interface. -/

/-- A CMD write of a word that decodes runs exactly the decoded command, with CMD holding the word and the access taken (R20, R23). -/
def Obligations.StepRunsDecodedCommand : Prop :=
  ∀ (s : State) (w : Word) (rest : List HostAction) (i : Instr), s.Ready → s.host = cmdWrite w :: rest →
    decode s.params w = .ok i → step s = exec i { s with host := rest, cmd := w }

/-- R231: in the fault state a CMD write is ignored and no command has a step, reads return their values, and FAULT stays in every
step that is not a reset. -/
def Obligations.FaultStateRefusesCommands : Prop :=
  ∀ (s : State), s.params.wf = true → s.faulted = true →
    (∀ (w : Word) (rest : List HostAction), s.host = cmdWrite w :: rest → step s = .next { s with host := rest }) ∧
    (∀ i, exec i s = .refused .faultState) ∧
    (∀ (offset width : Nat) (r : Reg) (rest : List HostAction), accessed offset width = some r →
      s.host = .regRead offset width :: rest → step s = .next { s with host := rest, readData := readReg s r }) ∧
    (∀ t, step s = .next t → (∀ rest, s.host ≠ .reset :: rest) → (∀ w rest, s.host ≠ .resetDuring w :: rest) →
      t.fault = s.fault ∧ t.status = s.status ∧ t.result = s.result ∧ t.cmd = s.cmd)

/-- R250: the state after reset, field by field, in the reference configuration; and the first CMD write runs a command. -/
def Obligations.ResetState : Prop :=
  State.reset.cmd = 0 ∧ (∀ i, State.reset.arg i = 0) ∧ State.reset.status = 0 ∧ State.reset.result = 0 ∧
  State.reset.fault = 0 ∧ State.reset.config = 0x40010104 ∧
  (∀ c, State.reset.aeadCtx c = ⟨false, zeros 32⟩) ∧
  (∀ c, State.reset.hmacCtx c = ⟨false, 0, [], [], [], false, [], false, []⟩) ∧
  (∀ c, State.reset.hkdfCtx c = ⟨false, 0, [], [], [], 0, 0⟩) ∧
  ∀ (w : Word) (i : Instr), decode State.reset.params w = .ok i →
    step (State.reset.withFetchWord 32 w.toNat) = exec i { State.reset with cmd := w }

/-- R252: reset changes neither host memory nor the entropy device and wipes every context; and, as R250 says, it zeroes every
register, from every state, the fault state among them (R231). -/
def Obligations.ResetAccess : Prop :=
  ∀ (s : State) (rest : List HostAction), s.params.wf = true → s.host = .reset :: rest →
    ∃ t, step s = .next t ∧ t.mem = s.mem ∧ t.entropy = s.entropy ∧ t.drawn = s.drawn ∧ t.params = s.params ∧
      t.host = rest ∧ t.cmd = 0 ∧ (∀ i, t.arg i = 0) ∧ t.status = 0 ∧ t.result = 0 ∧ t.fault = 0 ∧ t.faulted = false ∧
      (∀ c, t.aeadCtx c = AeadCtx.blank) ∧ (∀ c, t.hmacCtx c = HmacCtx.blank) ∧ (∀ c, t.hkdfCtx c = HkdfCtx.blank)

/-- R251: a reset inside a command leaves only that command's output buffer open, whatever the command would have done; every other
effect is lost and the core is reset. Of the buffer, the bytes that are not admitted or lie past the address space stay too, since the
core accesses none of them (R51); and in the fault state no command runs (R231). The form of the access and these readings are the
model's (log 13). -/
def Obligations.ResetInsideCommand : Prop :=
  ∀ (s : State) (w : Word) (rest : List HostAction), s.params.wf = true → s.host = .resetDuring w :: rest →
    ∃ t, step s = .next t ∧ t.entropy = s.entropy ∧ t.drawn = s.drawn ∧ t.params = s.params ∧ t.host = rest ∧
      t.cmd = 0 ∧ (∀ i, t.arg i = 0) ∧ t.status = 0 ∧ t.result = 0 ∧ t.fault = 0 ∧
      (∀ c, t.aeadCtx c = AeadCtx.blank) ∧ (∀ c, t.hmacCtx c = HmacCtx.blank) ∧ (∀ c, t.hkdfCtx c = HkdfCtx.blank) ∧
      (∀ a, (∀ i, decode s.params w = .ok i → ¬s.InOutput i a) → Memory.get t.mem a = Memory.get s.mem a) ∧
      (∀ a, admits s.params a = false ∨ 2 ^ s.params.addrW ≤ a → Memory.get t.mem a = Memory.get s.mem a) ∧
      (s.faulted = true → t.mem = s.mem)

/-- R22, R38, R50, R60: a host write to an argument register stores, one to a read-only register changes nothing, a read returns the
register, and a host write to HM changes exactly the bytes it names. The statement is over every state. That the clauses on writes to
A0 to A7 and to memory hold in the fault state too is the model's deduction from R231 (log 9); that a read leaves its value in
`readData` is the model's choice, and the widths are its deduction (log 12). -/
def Obligations.HostAccesses : Prop :=
  ∀ (s : State) (rest : List HostAction), s.params.wf = true →
    (∀ (i : Fin 8) (v : DWord), s.host = .regWrite (0x08 + 8 * i.val) 8 v :: rest →
      ∃ t, step s = .next t ∧ t.arg i = v ∧ (∀ j, j ≠ i → t.arg j = s.arg j) ∧
        t = { s with host := rest, args := t.args }) ∧
    (∀ (offset width : Nat) (v : DWord),
      (offset, width) ∈ [(0x48, 4), (0x50, 8), (0x58, 4), (0x60, 4)] → s.host = .regWrite offset width v :: rest →
      step s = .next { s with host := rest }) ∧
    (∀ (offset width : Nat) (v : DWord),
      (offset, width, v) ∈ [(0x00, 4, s.cmd.setWidth 64), (0x48, 4, s.status.setWidth 64), (0x50, 8, s.result),
        (0x58, 4, s.fault.setWidth 64), (0x60, 4, s.config.setWidth 64)] →
      s.host = .regRead offset width :: rest → step s = .next { s with host := rest, readData := v }) ∧
    (∀ i : Fin 8, s.host = .regRead (0x08 + 8 * i.val) 8 :: rest →
      step s = .next { s with host := rest, readData := s.arg i }) ∧
    (∀ (a : Nat) (bs : Bytes), a + bs.length ≤ 2 ^ s.params.addrW → s.host = .memWrite a bs :: rest →
      ∃ t, step s = .next t ∧ memRead t.mem a bs.length = bs ∧
        (∀ x, x < a ∨ a + bs.length ≤ x → Memory.get t.mem x = Memory.get s.mem x) ∧
        t = { s with host := rest, mem := t.mem })

/-- R61: an access that is not of a whole register at its offset is refused. -/
def Obligations.PartialAccessRefused : Prop :=
  ∀ (s : State) (offset width : Nat) (v : DWord) (rest : List HostAction), s.params.wf = true →
    (offset, width) ∉ [(0x00, 4), (0x48, 4), (0x50, 8), (0x58, 4), (0x60, 4)] →
    (∀ i : Fin 8, (offset, width) ≠ (0x08 + 8 * i.val, 8)) →
    (s.host = .regWrite offset width v :: rest → step s = .refused .noSuchRegister) ∧
    (s.host = .regRead offset width :: rest → step s = .refused .noSuchRegister)

/-- R29: the fields of CONFIG, its zero bits, and that no step changes it. -/
def Obligations.ConfigRegister : Prop :=
  (∀ s : State, s.params.wf = true →
    (s.config.extractLsb' 0 5).toNat = s.params.nCtx ∧ s.config.extractLsb' 5 3 = 0 ∧
    (s.config.extractLsb' 8 5).toNat = s.params.hashes.length ∧ s.config.extractLsb' 13 3 = 0 ∧
    s.config.getLsbD 16 = s.params.entropyAvailable ∧ s.config.extractLsb' 17 7 = 0 ∧
    (s.config.extractLsb' 24 7).toNat = s.params.addrW ∧ s.config.getLsbD 31 = false) ∧
  ∀ s t : State, step s = .next t → t.config = s.config

/-! The prologue and the outcomes. -/

/-- R53: a command with a descriptor that is not admissible ends with fault BufferFault, whatever else is wrong, and accesses no host
memory. -/
def Obligations.InadmissibleDescriptorFaults : Prop :=
  ∀ (i : Instr) (s : State) (k : Fin 4), s.Ready → k ∈ descriptors i → ¬s.DescAdmissible k →
    exec i s = .next (s.enterFault (encode i) .bufferFault)

/-- R55: a command whose output overlaps an input, but for the identical D3 and D2 of CHACHA_STREAM_XOR, ends with fault
AliasViolation after the admissibility check and before any other, and accesses no host memory; no other command takes that fault:
inputs may overlap one another. -/
def Obligations.OverlappingOutputFaults : Prop :=
  (∀ (i : Instr) (s : State), s.Ready → s.BuffersOk i → s.AliasBroken i →
    exec i s = .next (s.enterFault (encode i) .aliasViolation)) ∧
  ∀ (i : Instr) (s : State), ¬s.AliasBroken i → exec i s ≠ .next (s.enterFault (encode i) .aliasViolation)

/-- R232: the nine commands that need an initialised context end with fault ContextInvalid on one that is not; INIT and CLEAN
commands never do. -/
def Obligations.UninitialisedContextFaults : Prop :=
  (∀ (i : Instr) (c : BitVec 4) (s : State), s.Ready → s.BuffersOk i → ¬s.AliasBroken i →
    ((i = .aeadSeal c ∨ i = .aeadOpen c) ∧ (s.aeadCtx c).valid = false ∨
      (i = .hmacUpdate c ∨ i = .hmacFinish c ∨ i = .hmacReset c ∨ i = .hmacSave c ∨ i = .hmacRestore c ∨
        i = .hmacCleanSaved c) ∧ (s.hmacCtx c).valid = false ∨
      i = .hkdfExpand c ∧ (s.hkdfCtx c).valid = false) →
    exec i s = .next (s.enterFault (encode i) .contextInvalid)) ∧
  ∀ (i : Instr) (c h : BitVec 4) (s : State),
    (i = .aeadInit c ∨ i = .aeadClean c ∨ i = .hmacInit c h ∨ i = .hmacClean c ∨ i = .hkdfInit c h ∨ i = .hkdfClean c) →
    exec i s ≠ .next (s.enterFault (encode i) .contextInvalid)

/-- R27, R28: the fields of the FAULT word. -/
def Obligations.FaultWordFields : Prop :=
  ∀ (w : Word) (c : FaultCause),
    (faultWord w c).getLsbD 31 = true ∧ (faultWord w c).extractLsb' 20 11 = 0 ∧
    (faultWord w c).extractLsb' 16 4 = w.extractLsb' 8 4 ∧ (faultWord w c).extractLsb' 8 8 = w.extractLsb' 0 8 ∧
    (faultWord w c).extractLsb' 0 8 =
      (match c with
        | .counterOverflow => 0x01 | .bufferFault => 0x02 | .aliasViolation => 0x03
        | .contextInvalid => 0x04 | .stateViolation => 0x05 | .operandOutOfContract => 0x06)

/-- R220: a command's next state is one of three: completed with CODE OK, an error with a code of 0x01 to 0x09 and nothing else
changed, or the fault state with code 0xFF; and there is no command step from the fault state. -/
def Obligations.ThreeOutcomes : Prop :=
  ∀ (i : Instr) (s t : State), exec i s = .next t →
    s.faulted = false ∧
      ((t.status = 0x00 ∧ t.faulted = false) ∨
        (1 ≤ t.status.toNat ∧ t.status.toNat ≤ 9 ∧ t = { s with status := t.status, result := t.result }) ∨
        (t.status = 0xFF ∧ t.faulted = true ∧
          t = { s with status := t.status, result := t.result, fault := t.fault }))

/-- R221: an error writes STATUS and RESULT only, RESULT = 0 but for the length mismatch of RAND_STRING_ENTROPY, and the core is ready
for the next command. -/
def Obligations.ErrorsArePrecise : Prop :=
  ∀ (i : Instr) (s t : State), exec i s = .next t → t.status ≠ 0x00 → t.status ≠ 0xFF →
    t = { s with status := t.status, result := t.result } ∧ t.Ready ∧
      (t.result ≠ 0 → i = .randStringEntropy ∧ t.status = 0x03)

/-- R230: a fault writes FAULT = (1 << 31) | (w[11:8] << 16) | (w[7:0] << 8) | cause, STATUS = 0xFF and RESULT = 0, and nothing
else. -/
def Obligations.FaultsArePrecise : Prop :=
  ∀ (i : Instr) (s t : State), exec i s = .next t → t.status = 0xFF →
    ∃ cause : BitVec 8, 1 ≤ cause.toNat ∧ cause.toNat ≤ 6 ∧
      t = { s with
        fault := 0x80000000#32 ||| (((encode i).extractLsb' 8 4).zeroExtend 32 <<< 16) |||
          (((encode i).extractLsb' 0 8).zeroExtend 32 <<< 8) ||| cause.zeroExtend 32
        status := 0xFF
        result := 0 }

/-! The random byte generator. -/

/-- R102: RAND_BYTES fills D0 with exactly N0 drawn bytes, or raises RandomSourceUnavailable. -/
def Obligations.RandBytesFillsTheBuffer : Prop :=
  ∀ s : State, s.Clear .randBytes →
    (s.params.entropyAvailable = true → exec .randBytes s =
      .next (({ s with
        entropy := s.entropy.drop (s.len 0)
        drawn := s.drawn + s.len 0
        mem := memWrite s.mem (s.ptr 0) (s.draw (s.len 0)) } : State).report 0x00 0)) ∧
    (s.params.entropyAvailable = false → exec .randBytes s = .next (s.report 0x05 0))

/-- R103: RAND_UINT32 returns four drawn bytes read little-endian, a value below 2^32, or raises RandomSourceUnavailable. -/
def Obligations.RandUint32ReadsFourBytes : Prop :=
  ∀ s : State, s.Clear .randUint32 →
    (s.params.entropyAvailable = true → ∃ r : DWord, r.toNat < 2 ^ 32 ∧
      r.toNat = (s.entropyByte 0).toNat + 256 * (s.entropyByte 1).toNat + 65536 * (s.entropyByte 2).toNat +
        16777216 * (s.entropyByte 3).toNat ∧
      exec .randUint32 s =
        .next (({ s with entropy := s.entropy.drop 4, drawn := s.drawn + 4 } : State).report 0x00 r)) ∧
    (s.params.entropyAvailable = false → exec .randUint32 s = .next (s.report 0x05 0))

/-- R104: maxByte(c) is the largest multiple of c not above 256, and every index is the image of exactly maxByte(c)/c accepted byte
values. -/
def Obligations.RejectionSamplingIsFair : Prop :=
  ∀ c : Nat, 2 ≤ c → c ≤ 256 →
    c ∣ maxByte c ∧ maxByte c ≤ 256 ∧ 256 < maxByte c + c ∧
      ∀ j, j < c → ((List.range 256).filter (fun b => decide (b < maxByte c ∧ b % c = j))).length = maxByte c / c

/-- R105: RAND_STRING writes the symbols of the first N1 accepted draws, and draws no more than those take; InvalidCharset and
RandomSourceUnavailable. The number of bytes drawn is the model's choice (log 8), and `drawLimit` its bound on a run that does not
hang (log 7). -/
def Obligations.RandStringWritesAcceptedSymbols : Prop :=
  ∀ s : State, s.Clear .randString →
    ((s.len 0 < 2 ∨ 256 < s.len 0) → exec .randString s = .next (s.report 0x07 0)) ∧
    (2 ≤ s.len 0 → s.len 0 ≤ 256 →
      (s.params.entropyAvailable = false → exec .randString s = .next (s.report 0x05 0)) ∧
      (s.params.entropyAvailable = true → ∀ m, m ≤ drawLimit s (s.len 1) →
        (acceptedDraws (s.len 0) (s.draw m)).length = s.len 1 →
        (∀ j, j < m → (acceptedDraws (s.len 0) (s.draw j)).length < s.len 1) →
        exec .randString s =
          .next (({ s with
            entropy := s.entropy.drop m
            drawn := s.drawn + m
            mem := memWrite s.mem (s.ptr 1) (symbolsOf (s.buf 0) (acceptedDraws (s.len 0) (s.draw m))) } :
              State).report 0x00 0)))

/-- R108: RAND_STRING ends only once N1 bytes have been accepted; when the draws do not give them it hangs, with no next state and
never a success. That a string that completes has drawn exactly the `m` bytes it examined, as `t.drawn` says, is the model's choice,
R107 leaving the number open (log 8); the bound `drawLimit` on the draws is free (log 7). -/
def Obligations.RandStringCompletesOrHangs : Prop :=
  ∀ s : State, s.Clear .randString → 2 ≤ s.len 0 → s.len 0 ≤ 256 → s.params.entropyAvailable = true →
    (exec .randString s = .fault .entropyHang ∧
      ∀ m, m ≤ drawLimit s (s.len 1) → (acceptedDraws (s.len 0) (s.draw m)).length < s.len 1) ∨
    (∃ t m, exec .randString s = .next t ∧ t.status = 0x00 ∧ m ≤ drawLimit s (s.len 1) ∧ t.drawn = s.drawn + m ∧
      (acceptedDraws (s.len 0) (s.draw m)).length = s.len 1)

/-- R106: RAND_STRING_ENTROPY, with k the least number with c^k ≥ 2^bits. The number of bytes drawn is the model's choice (log 8),
and `drawLimit` its bound on a run that does not hang (log 7). -/
def Obligations.RandStringEntropyLength : Prop :=
  ∀ s : State, s.Clear .randStringEntropy →
    ((s.len 0 < 2 ∨ 256 < s.len 0) → exec .randStringEntropy s = .next (s.report 0x07 0)) ∧
    (2 ≤ s.len 0 → s.len 0 ≤ 256 →
      ∀ k, 2 ^ (s.arg 4).toNat ≤ s.len 0 ^ k → (∀ j, j < k → s.len 0 ^ j < 2 ^ (s.arg 4).toNat) →
        k < 2 ^ 64 ∧
        (s.len 1 ≠ k → exec .randStringEntropy s = .next (s.report 0x03 (BitVec.ofNat 64 k))) ∧
        (s.len 1 = k → s.params.entropyAvailable = false → exec .randStringEntropy s = .next (s.report 0x05 0)) ∧
        (s.len 1 = k → s.params.entropyAvailable = true → ∀ m, m ≤ drawLimit s k →
          (acceptedDraws (s.len 0) (s.draw m)).length = k →
          (∀ j, j < m → (acceptedDraws (s.len 0) (s.draw j)).length < k) →
          exec .randStringEntropy s =
            .next (({ s with
              entropy := s.entropy.drop m
              drawn := s.drawn + m
              mem := memWrite s.mem (s.ptr 1) (symbolsOf (s.buf 0) (acceptedDraws (s.len 0) (s.draw m))) } :
                State).report 0x00 (BitVec.ofNat 64 k))))

/-! ChaCha20. -/

/-- R125: CHACHA_STREAM, its errors in order, its fault, and the keystream it writes. -/
def Obligations.ChachaStreamWritesKeystream : Prop :=
  ∀ s : State, s.Clear .chachaStream →
    (s.len 0 ≠ 32 → exec .chachaStream s = .next (s.report 0x01 0)) ∧
    (s.len 0 = 32 → 16 < s.len 1 → exec .chachaStream s = .next (s.report 0x02 0)) ∧
    (s.len 0 = 32 → s.len 1 ≤ 16 →
      let cb := zeros (16 - s.len 1) ++ s.buf 1
      let c0 := leNat (cb.take 4)
      let k := (s.len 2 + 63) / 64
      (2 ^ 32 ≤ c0 + k → exec .chachaStream s = .next (s.enterFault 0x20 .counterOverflow)) ∧
      (c0 + k < 2 ^ 32 → exec .chachaStream s =
        .next (({ s with mem := memWrite s.mem (s.ptr 2) (keystream (s.buf 0) cb (s.len 2)) } : State).report 0x00
          (BitVec.ofNat 64 (c0 + k)))))

/-- R126: CHACHA_STREAM_XOR, its errors in order, its fault, and what it writes; D3 = D2 is not shut out. -/
def Obligations.ChachaStreamXorWritesXor : Prop :=
  ∀ s : State, s.Clear .chachaStreamXor →
    (s.len 0 ≠ 32 → exec .chachaStreamXor s = .next (s.report 0x01 0)) ∧
    (s.len 0 = 32 → 16 < s.len 1 → exec .chachaStreamXor s = .next (s.report 0x02 0)) ∧
    (s.len 0 = 32 → s.len 1 ≤ 16 → s.len 3 ≠ s.len 2 → exec .chachaStreamXor s = .next (s.report 0x03 0)) ∧
    (s.len 0 = 32 → s.len 1 ≤ 16 → s.len 3 = s.len 2 →
      let cb := zeros (16 - s.len 1) ++ s.buf 1
      let c0 := leNat (cb.take 4)
      let k := (s.len 2 + 63) / 64
      (2 ^ 32 ≤ c0 + k → exec .chachaStreamXor s = .next (s.enterFault 0x21 .counterOverflow)) ∧
      (c0 + k < 2 ^ 32 → exec .chachaStreamXor s =
        .next (({ s with
          mem := memWrite s.mem (s.ptr 3) (xorBytes (s.buf 2) (keystream (s.buf 0) cb (s.len 2))) } : State).report 0x00
          (BitVec.ofNat 64 (c0 + k)))))

/-- R124: the keystream of n bytes has n bytes, none when n is 0, and byte i is byte i mod 64 of the block at counter
c0 + i div 64. -/
def Obligations.KeystreamBytes : Prop :=
  ∀ (key cb : Bytes) (n : Nat),
    (keystream key cb n).length = n ∧
      ∀ i, i < n → (keystream key cb n)[i]? = (chachaBlock key (withCounter cb (leNat (cb.take 4) + i / 64)))[i % 64]?

/-- R126: the command applied twice, with the same key and counter block, gives the data back. -/
def Obligations.StreamXorTwiceIsIdentity : Prop :=
  ∀ s t u v : State, exec .chachaStreamXor s = .next t → t.status = 0x00 → exec .chachaStreamXor u = .next v →
    v.status = 0x00 → u.buf 0 = s.buf 0 → u.buf 1 = s.buf 1 → u.buf 2 = memRead t.mem (s.ptr 3) (s.len 3) →
    memRead v.mem (u.ptr 3) (u.len 3) = s.buf 2

/-! Poly1305. -/

/-- R143: POLY1305_AUTH, its errors in order, and the tag it writes. -/
def Obligations.Poly1305AuthWritesTag : Prop :=
  ∀ s : State, s.Clear .poly1305Auth →
    (s.len 0 ≠ 32 → exec .poly1305Auth s = .next (s.report 0x01 0)) ∧
    (s.len 0 = 32 → s.len 2 ≠ 16 → exec .poly1305Auth s = .next (s.report 0x03 0)) ∧
    (s.len 0 = 32 → s.len 2 = 16 → exec .poly1305Auth s =
      .next (({ s with mem := memWrite s.mem (s.ptr 2) (poly1305 (s.buf 0) (s.buf 1)) } : State).report 0x00 0))

/-- R140, R141, R142: the tag, from the polynomial of the blocks evaluated at the clamped r modulo 2^130 − 5. -/
def Obligations.Poly1305IsPolynomial : Prop :=
  ∀ key m : Bytes,
    let r := leNat (key.take 16) &&& 0x0ffffffc0ffffffc0ffffffc0fffffff
    let q := (m.length + 15) / 16
    poly1305 key m = leBytes 16 (((∑ j ∈ Finset.range q, leNat ((m.drop (16 * j)).take 16 ++ [0x01]) * r ^ (q - j)) %
      (2 ^ 130 - 5) + leNat ((key.drop 16).take 16)) % 2 ^ 128)

/-! The AEAD. -/

/-- R150: AEAD_INIT loads the key, or raises InvalidKeyLength. -/
def Obligations.AeadInitLoadsKey : Prop :=
  ∀ (c : BitVec 4) (s : State), s.Clear (.aeadInit c) →
    (s.len 0 ≠ 32 → exec (.aeadInit c) s = .next (s.report 0x01 0)) ∧
    (s.len 0 = 32 → exec (.aeadInit c) s = .next ((s.setAead c ⟨true, s.buf 0⟩).report 0x00 0))

/-- R154, with R151 to R153: AEAD_SEAL, its errors in order, its fault, and the ciphertext and tag it writes. -/
def Obligations.AeadSealWritesCiphertextAndTag : Prop :=
  ∀ (c : BitVec 4) (s : State), s.Clear (.aeadSeal c) →
    (16 < s.len 0 → exec (.aeadSeal c) s = .next (s.report 0x02 0)) ∧
    (s.len 0 ≤ 16 → s.len 3 ≠ s.len 1 + 16 → exec (.aeadSeal c) s = .next (s.report 0x03 0)) ∧
    (s.len 0 ≤ 16 → s.len 3 = s.len 1 + 16 →
      let key := (s.aeadCtx c).key
      let cb := zeros (16 - s.len 0) ++ s.buf 0
      let c0 := leNat (cb.take 4)
      let k := (s.len 1 + 63) / 64
      let ct := xorBytes (s.buf 1) (keystream key (withCounter cb (c0 + 1)) (s.len 1))
      let otk := (chachaBlock key (withCounter cb c0)).take 32
      (2 ^ 32 ≤ c0 + 1 + k → exec (.aeadSeal c) s = .next (s.enterFault (encode (.aeadSeal c)) .counterOverflow)) ∧
      (c0 + 1 + k < 2 ^ 32 → exec (.aeadSeal c) s =
        .next (({ s with mem := memWrite s.mem (s.ptr 3) (ct ++ poly1305 otk (macData (s.buf 2) ct)) } : State).report
          0x00 0)))

/-- R155, R156: AEAD_OPEN, its errors and checks in order, null on a short message and on a tag that differs, with dst unwritten, and
the plaintext on a tag that agrees. -/
def Obligations.AeadOpenVerifiesThenDecrypts : Prop :=
  ∀ (c : BitVec 4) (s : State), s.Clear (.aeadOpen c) →
    (16 < s.len 0 → exec (.aeadOpen c) s = .next (s.report 0x02 0)) ∧
    (s.len 0 ≤ 16 → s.len 1 < 16 → exec (.aeadOpen c) s = .next (s.report 0x00 0)) ∧
    (s.len 0 ≤ 16 → 16 ≤ s.len 1 → s.len 3 ≠ s.len 1 - 16 → exec (.aeadOpen c) s = .next (s.report 0x03 0)) ∧
    (s.len 0 ≤ 16 → 16 ≤ s.len 1 → s.len 3 = s.len 1 - 16 →
      let key := (s.aeadCtx c).key
      let cb := zeros (16 - s.len 0) ++ s.buf 0
      let c0 := leNat (cb.take 4)
      let k := (s.len 1 - 16 + 63) / 64
      let ct := (s.buf 1).take (s.len 1 - 16)
      let tin := (s.buf 1).drop (s.len 1 - 16)
      let otk := (chachaBlock key (withCounter cb c0)).take 32
      let tag := poly1305 otk (macData (s.buf 2) ct)
      (2 ^ 32 ≤ c0 + 1 → exec (.aeadOpen c) s = .next (s.enterFault (encode (.aeadOpen c)) .counterOverflow)) ∧
      (c0 + 1 < 2 ^ 32 → tag ≠ tin → exec (.aeadOpen c) s = .next (s.report 0x00 0)) ∧
      (c0 + 1 < 2 ^ 32 → tag = tin → 2 ^ 32 ≤ c0 + 1 + k →
        exec (.aeadOpen c) s = .next (s.enterFault (encode (.aeadOpen c)) .counterOverflow)) ∧
      (tag = tin → c0 + 1 + k < 2 ^ 32 → exec (.aeadOpen c) s =
        .next (({ s with
          mem := memWrite s.mem (s.ptr 3) (xorBytes ct (keystream key (withCounter cb (c0 + 1)) (s.len 1 - 16))) } :
            State).report 0x00 1)))

/-- R158: AEAD_CLEAN wipes the key and the context is no longer initialised, whatever it was. -/
def Obligations.AeadCleanWipesKey : Prop :=
  ∀ (c : BitVec 4) (s : State), s.Ready →
    exec (.aeadClean c) s = .next ((s.setAead c ⟨false, zeros 32⟩).report 0x00 0)

/-- R160: opening what was sealed, with the same key, nonce and associated data, gives RESULT = 1 and the plaintext. Between the two
commands anything may happen that leaves these as they were. -/
def Obligations.AeadRoundTrip : Prop :=
  ∀ (c d : BitVec 4) (s t u : State), exec (.aeadSeal c) s = .next t → t.status = 0x00 → u.Clear (.aeadOpen d) →
    (u.aeadCtx d).key = (s.aeadCtx c).key → u.buf 0 = s.buf 0 → u.buf 2 = s.buf 2 →
    u.buf 1 = memRead t.mem (s.ptr 3) (s.len 3) → u.len 3 = s.len 1 →
    ∃ v, exec (.aeadOpen d) u = .next v ∧ v.status = 0x00 ∧ v.result = 1 ∧ memRead v.mem (u.ptr 3) (u.len 3) = s.buf 1

/-! HMAC. -/

/-- R172, R170: HMAC_INIT keys the context for a hash of the configuration, whatever the key length and the old context. -/
def Obligations.HmacInitKeysContext : Prop :=
  ∀ (c h : BitVec 4) (e : HashEngine) (s : State), s.Clear (.hmacInit c h) → s.params.hashes[h.toNat]? = some e →
    let kb := if e.blockSize < s.len 0 then hashOf e (s.buf 0) else s.buf 0
    let kpad := kb ++ zeros (e.blockSize - kb.length)
    exec (.hmacInit c h) s =
      .next ((s.setHmac c ⟨true, h.toNat, xorByte kpad 0x36, xorByte kpad 0x5C, xorByte kpad 0x36, false,
        zeros e.digestLen, false, []⟩).report 0x00 0)

/-- R173: HMAC_UPDATE appends the data, or faults on a finished context. -/
def Obligations.HmacUpdateAppends : Prop :=
  ∀ (c : BitVec 4) (s : State), s.Clear (.hmacUpdate c) →
    ((s.hmacCtx c).finished = true →
      exec (.hmacUpdate c) s = .next (s.enterFault (encode (.hmacUpdate c)) .stateViolation)) ∧
    ((s.hmacCtx c).finished = false →
      exec (.hmacUpdate c) s =
        .next ((s.setHmac c { s.hmacCtx c with inner := (s.hmacCtx c).inner ++ s.buf 0 }).report 0x00 0))

/-- R174: HMAC_FINISH finalizes once, keeps the digest, and writes the same digest again; DestinationLengthMismatch. -/
def Obligations.HmacFinishWritesDigest : Prop :=
  ∀ (c : BitVec 4) (e : HashEngine) (s : State), s.Clear (.hmacFinish c) →
    s.params.hashes[(s.hmacCtx c).hash]? = some e →
    let x := s.hmacCtx c
    let digest := hashOf e (x.opad ++ hashOf e x.inner)
    (s.len 0 ≠ e.digestLen → exec (.hmacFinish c) s = .next (s.report 0x03 0)) ∧
    (s.len 0 = e.digestLen → x.finished = false → exec (.hmacFinish c) s =
      .next (({ s.setHmac c { x with cached := digest, finished := true } with
        mem := memWrite s.mem (s.ptr 0) digest } : State).report 0x00 0)) ∧
    (s.len 0 = e.digestLen → x.finished = true → x.cached.length = e.digestLen → exec (.hmacFinish c) s =
      .next (({ s with mem := memWrite s.mem (s.ptr 0) x.cached } : State).report 0x00 0))

/-- R175: HMAC_RESET returns to the state after the key schedule and leaves the saved slot, or raises CapabilityUnsupported. -/
def Obligations.HmacResetReturnsToKeySchedule : Prop :=
  ∀ (c : BitVec 4) (e : HashEngine) (s : State), s.Clear (.hmacReset c) →
    s.params.hashes[(s.hmacCtx c).hash]? = some e →
    (e.ser = false → exec (.hmacReset c) s = .next (s.report 0x06 0)) ∧
    (e.ser = true → exec (.hmacReset c) s =
      .next ((s.setHmac c { s.hmacCtx c with
        inner := (s.hmacCtx c).ipad, finished := false, cached := zeros e.digestLen }).report 0x00 0))

/-- R176: HMAC_SAVE takes a snapshot of the inner hash state; CapabilityUnsupported, then StateViolation. -/
def Obligations.HmacSaveSnapshots : Prop :=
  ∀ (c : BitVec 4) (e : HashEngine) (s : State), s.Clear (.hmacSave c) →
    s.params.hashes[(s.hmacCtx c).hash]? = some e →
    (e.ser = false → exec (.hmacSave c) s = .next (s.report 0x06 0)) ∧
    (e.ser = true → (s.hmacCtx c).finished = true →
      exec (.hmacSave c) s = .next (s.enterFault (encode (.hmacSave c)) .stateViolation)) ∧
    (e.ser = true → (s.hmacCtx c).finished = false → exec (.hmacSave c) s =
      .next ((s.setHmac c { s.hmacCtx c with saved := (s.hmacCtx c).inner, savedValid := true }).report 0x00 0))

/-- R177: HMAC_RESTORE puts the saved state back and keeps the slot; CapabilityUnsupported, then StateViolation. -/
def Obligations.HmacRestorePutsSavedBack : Prop :=
  ∀ (c : BitVec 4) (e : HashEngine) (s : State), s.Clear (.hmacRestore c) →
    s.params.hashes[(s.hmacCtx c).hash]? = some e →
    (e.ser = false → exec (.hmacRestore c) s = .next (s.report 0x06 0)) ∧
    (e.ser = true → (s.hmacCtx c).savedValid = false →
      exec (.hmacRestore c) s = .next (s.enterFault (encode (.hmacRestore c)) .stateViolation)) ∧
    (e.ser = true → (s.hmacCtx c).savedValid = true → exec (.hmacRestore c) s =
      .next ((s.setHmac c { s.hmacCtx c with
        inner := (s.hmacCtx c).saved, finished := false, cached := zeros e.digestLen }).report 0x00 0))

/-- R178: HMAC_CLEAN_SAVED empties the saved slot and nothing else, or raises CapabilityUnsupported. -/
def Obligations.HmacCleanSavedEmptiesSlot : Prop :=
  ∀ (c : BitVec 4) (e : HashEngine) (s : State), s.Clear (.hmacCleanSaved c) →
    s.params.hashes[(s.hmacCtx c).hash]? = some e →
    (e.ser = false → exec (.hmacCleanSaved c) s = .next (s.report 0x06 0)) ∧
    (e.ser = true → exec (.hmacCleanSaved c) s =
      .next ((s.setHmac c { s.hmacCtx c with saved := [], savedValid := false }).report 0x00 0))

/-- R179: HMAC_CLEAN wipes the context, whatever it was; its hash number becomes 0 by the model's choice (log 10). -/
def Obligations.HmacCleanWipesContext : Prop :=
  ∀ (c : BitVec 4) (s : State), s.Ready →
    exec (.hmacClean c) s = .next ((s.setHmac c ⟨false, 0, [], [], [], false, [], false, []⟩).report 0x00 0)

/-- R171: INIT with key K, then UPDATE commands whose data concatenate to m, then FINISH, writes H(opad ++ H(ipad ++ m)). -/
def Obligations.HmacSessionWritesHmac : Prop :=
  ∀ (c h : BitVec 4) (e : HashEngine) (key m : Bytes) (s u t : State), HmacFed c h key m s →
    s.params.hashes[h.toNat]? = some e → u.params = s.params → u.hmacCtx c = s.hmacCtx c →
    exec (.hmacFinish c) u = .next t → t.status = 0x00 →
    memRead t.mem (u.ptr 0) (u.len 0) = hashOf e (hmacOpad e key ++ hashOf e (hmacIpad e key ++ m))

/-! HKDF. -/

/-- R190, R191: HKDF_INIT sets the PRK to the HMAC of the key under the salt, copies info and starts the stream;
CapacityExceeded. -/
def Obligations.HkdfInitExtracts : Prop :=
  ∀ (c h : BitVec 4) (e : HashEngine) (s : State), s.Clear (.hkdfInit c h) → s.params.hashes[h.toNat]? = some e →
    (∀ m, s.params.hkdfInfoMax = some m → m < s.len 2 → exec (.hkdfInit c h) s = .next (s.report 0x09 0)) ∧
    ((∀ m, s.params.hkdfInfoMax = some m → s.len 2 ≤ m) →
      let salt := if s.len 1 = 0 then zeros e.digestLen else s.buf 1
      exec (.hkdfInit c h) s =
        .next ((s.setHkdf c ⟨true, h.toNat, hmac e salt (s.buf 0), s.buf 2, zeros e.digestLen, e.digestLen, 0⟩).report
          0x00 0))

/-- R194, R193: HKDF_EXPAND hands out the next N0 bytes of T(1) ++ T(2) ++ … ++ T(255), ExpansionLimitExceeded, and the open
CapabilityUnsupported of R11; of the context only the block buffer, its position and the counter change, and a block is made only when
a byte of it is handed out. -/
def Obligations.HkdfExpandHandsOutStream : Prop :=
  ∀ (c : BitVec 4) (e : HashEngine) (s : State), s.Clear (.hkdfExpand c) →
    s.params.hashes[(s.hkdfCtx c).hash]? = some e → HkdfSlotOk s.params c (s.hkdfCtx c) →
    let y := s.hkdfCtx c
    let n := s.len 0
    let avail := (e.digestLen - y.pos) + (255 - y.ctr) * e.digestLen
    let needsSer := s.params.hkdfRequiresSer = true ∧ e.ser = false ∧ e.digestLen - y.pos < n
    (avail < n → exec (.hkdfExpand c) s = .next (s.report 0x04 0)) ∧
    (n ≤ avail → needsSer → exec (.hkdfExpand c) s = .next (s.report 0x06 0)) ∧
    (n ≤ avail → ¬needsSer → ∃ y', exec (.hkdfExpand c) s =
        .next (({ s.setHkdf c y' with
          mem := memWrite s.mem (s.ptr 0) (((hkdfStream e y.prk y.info).drop (hkdfHanded e y)).take n) } : State).report
          0x00 (BitVec.ofNat 64 n)) ∧
      y' = { y with t := y'.t, pos := y'.pos, ctr := y'.ctr } ∧ hkdfHanded e y' = hkdfHanded e y + n ∧
      HkdfSlotOk s.params c y' ∧ (n = 0 → y' = y) ∧ (0 < n → 0 < y'.pos))

/-- R197: HKDF_CLEAN wipes the context, whatever it was; its hash number becomes 0 by the model's choice (log 10). -/
def Obligations.HkdfCleanWipesContext : Prop :=
  ∀ (c : BitVec 4) (s : State), s.Ready →
    exec (.hkdfClean c) s = .next ((s.setHkdf c ⟨false, 0, [], [], [], 0, 0⟩).report 0x00 0)

/-- R195: from two contexts that are alike, any sequence of HKDF_EXPAND commands on one, none failing, writes concatenated what one
HKDF_EXPAND of the total length writes on the other, and leaves its context as that one does. -/
def Obligations.HkdfPiecesEqualBatch : Prop :=
  ∀ (c d : BitVec 4) (out : Bytes) (s u v t : State), HkdfExpanded c s out u → v.params = s.params →
    v.hkdfCtx d = s.hkdfCtx c → v.len 0 = out.length → exec (.hkdfExpand d) v = .next t → t.status = 0x00 →
    memRead t.mem (v.ptr 0) (v.len 0) = out ∧ t.hkdfCtx d = u.hkdfCtx c

/-- R192: an absent salt and a salt of L zero bytes give the same context, since both key schedules pad to B zero bytes. -/
def Obligations.AbsentSaltIsZeroSalt : Prop :=
  (∀ e : HashEngine, e.wf = true →
    hmacKeyPad e [] = zeros e.blockSize ∧ hmacKeyPad e (zeros e.digestLen) = zeros e.blockSize) ∧
  ∀ (c h : BitVec 4) (e : HashEngine) (s t u v : State), s.params.hashes[h.toNat]? = some e → u.params = s.params →
    exec (.hkdfInit c h) s = .next t → t.status = 0x00 → exec (.hkdfInit c h) u = .next v → v.status = 0x00 →
    s.len 1 = 0 → u.buf 1 = zeros e.digestLen → u.buf 0 = s.buf 0 → u.buf 2 = s.buf 2 →
    t.hkdfCtx c = v.hkdfCtx c ∧ (t.hkdfCtx c).prk = hmac e [] (s.buf 0)

/-! The comparator. -/

/-- R210: CT_SELECT gives ifOne on 1 and ifZero on 0, and faults outside its domain. -/
def Obligations.CtSelectChooses : Prop :=
  ∀ s : State, s.Ready →
    ((1 < (s.arg 0).toNat ∨ 2 ^ 32 ≤ (s.arg 1).toNat ∨ 2 ^ 32 ≤ (s.arg 2).toNat) →
      exec .ctSelect s = .next (s.enterFault 0x70 .operandOutOfContract)) ∧
    ((s.arg 1).toNat < 2 ^ 32 → (s.arg 2).toNat < 2 ^ 32 →
      (s.arg 0 = 1 → exec .ctSelect s = .next (s.report 0x00 (s.arg 1))) ∧
      (s.arg 0 = 0 → exec .ctSelect s = .next (s.report 0x00 (s.arg 2))))

/-- R211: CT_LESS_OR_EQUAL on operands below 2^31, and its fault outside. -/
def Obligations.CtLessOrEqualCompares : Prop :=
  ∀ s : State, s.Ready →
    ((2 ^ 31 ≤ (s.arg 0).toNat ∨ 2 ^ 31 ≤ (s.arg 1).toNat) →
      exec .ctLessOrEqual s = .next (s.enterFault 0x71 .operandOutOfContract)) ∧
    ((s.arg 0).toNat < 2 ^ 31 → (s.arg 1).toNat < 2 ^ 31 →
      ((s.arg 0).toNat ≤ (s.arg 1).toNat → exec .ctLessOrEqual s = .next (s.report 0x00 1)) ∧
      ((s.arg 1).toNat < (s.arg 0).toNat → exec .ctLessOrEqual s = .next (s.report 0x00 0)))

/-- R212, R213, R214: CT_COMPARE gives 1 exactly on equal sequences, two empty ones among them; CT_EQUAL gives 1 exactly on equal
sequences that are not empty. -/
def Obligations.CtCompareAndEqual : Prop :=
  (∀ s : State, s.Clear .ctCompare →
    (s.buf 0 = s.buf 1 → exec .ctCompare s = .next (s.report 0x00 1)) ∧
    (s.buf 0 ≠ s.buf 1 → exec .ctCompare s = .next (s.report 0x00 0))) ∧
  ∀ s : State, s.Clear .ctEqual →
    (s.buf 0 = s.buf 1 → 0 < s.len 0 → exec .ctEqual s = .next (s.report 0x00 1)) ∧
    ((s.buf 0 ≠ s.buf 1 ∨ s.len 0 = 0) → exec .ctEqual s = .next (s.report 0x00 0))

/-! Frames and invariants. -/

/-- R22, R29, R38, R59, R76: a command changes no register but STATUS, RESULT and FAULT, no byte of host memory outside its output
buffer, nothing of the host's accesses, and, but for the random commands, nothing of the entropy device. -/
def Obligations.CommandFrame : Prop :=
  ∀ (i : Instr) (s t : State), exec i s = .next t →
    t.params = s.params ∧ t.cmd = s.cmd ∧ t.args = s.args ∧ t.torn = s.torn ∧ t.host = s.host ∧ t.readData = s.readData ∧
      (∀ a, ¬s.InOutput i a → Memory.get t.mem a = Memory.get s.mem a) ∧
      (drawsEntropy i = false → t.entropy = s.entropy ∧ t.drawn = s.drawn)

/-- R261: a command changes at most its own context, of its own family; SEAL and OPEN change none. -/
def Obligations.ContextFrame : Prop :=
  ∀ (i : Instr) (s t : State), exec i s = .next t →
    (∀ d, aeadTarget i ≠ some d → t.aeadCtx d = s.aeadCtx d) ∧
    (∀ d, hmacTarget i ≠ some d → t.hmacCtx d = s.hmacCtx d) ∧
    (∀ d, hkdfTarget i ≠ some d → t.hkdfCtx d = s.hkdfCtx d)

/-- Every step keeps host memory in canonical form inside the address space, and STATUS, RESULT and FAULT in agreement (R24 to R28,
R50). -/
def Obligations.StepKeepsMemoryAndReport : Prop :=
  ∀ s t : State, s.MemoryOk → s.ReportOk → step s = .next t → t.MemoryOk ∧ t.ReportOk

/-- Every step keeps every context in the form of `AeadSlotOk`, `HmacSlotOk` and `HkdfSlotOk`: what R31, R32 and R33 say of a context,
and two choices of the model. A context with valid = false is blank, its hash number 0 after a CLEAN included (log 10, which R179 and
R197 leave open); and the model's slots past N_CTX, which the spec does not have, are blank (log 2). -/
def Obligations.StepKeepsContexts : Prop :=
  ∀ s t : State, s.AeadOk → s.HmacOk → s.HkdfOk → step s = .next t → t.AeadOk ∧ t.HmacOk ∧ t.HkdfOk

/-- The state after reset meets every invariant; of the context files, the model's blank slots past N_CTX included (log 2). -/
def Obligations.ResetMeetsInvariants : Prop :=
  State.reset.Ready ∧ State.reset.MemoryOk ∧ State.reset.ReportOk ∧ State.reset.AeadOk ∧ State.reset.HmacOk ∧
    State.reset.HkdfOk

/-! The other random string. -/

/-- R108: RAND_STRING_ENTROPY too ends only once its k = N1 bytes have been accepted, k the least number with c^k ≥ 2^bits; when the
draws do not give them it hangs, with no next state and never a success. That a string that completes has drawn exactly the `m` bytes
it examined is the model's choice (log 8); the bound `drawLimit` on the draws is free (log 7). -/
def Obligations.RandStringEntropyCompletesOrHangs : Prop :=
  ∀ (s : State) (k : Nat), s.Clear .randStringEntropy → 2 ≤ s.len 0 → s.len 0 ≤ 256 → s.params.entropyAvailable = true →
    2 ^ (s.arg 4).toNat ≤ s.len 0 ^ k → (∀ j, j < k → s.len 0 ^ j < 2 ^ (s.arg 4).toNat) → s.len 1 = k →
    (exec .randStringEntropy s = .fault .entropyHang ∧
      ∀ m, m ≤ drawLimit s k → (acceptedDraws (s.len 0) (s.draw m)).length < k) ∨
    (∃ t m, exec .randStringEntropy s = .next t ∧ t.status = 0x00 ∧ t.result = BitVec.ofNat 64 k ∧ m ≤ drawLimit s k ∧
      t.drawn = s.drawn + m ∧ (acceptedDraws (s.len 0) (s.draw m)).length = k)
end

