-- ==== Sys2Proof/Laws/Bytes.lean ====
section
/-! SUPPORT. Lengths of the byte sequences the units compute, and the round trip of the little-endian encodings (spec 00_scope.md
R14, R15). -/

namespace Sys2Proof.Machine

@[simp] theorem zeros_length (n : Nat) : (zeros n).length = n := by simp [zeros]

@[simp] theorem xorBytes_length (a b : Bytes) : (xorBytes a b).length = min a.length b.length := by simp [xorBytes]

@[simp] theorem xorByte_length (m : Bytes) (k : Byte) : (xorByte m k).length = m.length := by simp [xorByte]

@[simp] theorem leBytes_length (n v : Nat) : (leBytes n v).length = n := by
  induction n generalizing v with
  | zero => rfl
  | succ n ih => simp [leBytes, ih]

@[simp] theorem beBytes_length (n v : Nat) : (beBytes n v).length = n := by
  induction n generalizing v with
  | zero => rfl
  | succ n ih => simp [beBytes, ih]

theorem leNat_lt (m : Bytes) : leNat m < 256 ^ m.length := by
  induction m with
  | nil => simp [leNat]
  | cons b m ih =>
    have hb := b.isLt
    simp only [leNat, List.length_cons, Nat.pow_succ]
    omega

theorem leNat_leBytes (n v : Nat) : leNat (leBytes n v) = v % 256 ^ n := by
  induction n generalizing v with
  | zero => simp [leBytes, leNat, Nat.mod_one]
  | succ n ih =>
    have hmod : v % (256 * 256 ^ n) = v % 256 + 256 * (v / 256 % 256 ^ n) := Nat.mod_mul
    simp only [leBytes, leNat, ih, BitVec.toNat_ofNat, Nat.pow_succ]
    rw [Nat.mul_comm (256 ^ n) 256, hmod]

/-- XOR with the same bytes twice is the identity (R126). -/
theorem xorBytes_cancel (a k : Bytes) (h : a.length ≤ k.length) : xorBytes (xorBytes a k) k = a := by
  induction a generalizing k with
  | nil => simp [xorBytes]
  | cons x a ih =>
    cases k with
    | nil => simp at h
    | cons y k =>
      have hxy : x ^^^ y ^^^ y = x := by rw [BitVec.xor_assoc, BitVec.xor_self, BitVec.xor_zero]
      have ht := ih k (by simpa using h)
      simp only [xorBytes, List.zipWith_cons_cons] at ht ⊢
      rw [ht, hxy]

/-! ChaCha20 and Poly1305. -/

@[simp] theorem counterBlock_length (nonce : Bytes) (h : nonce.length ≤ 16) : (counterBlock nonce).length = 16 := by
  simp [counterBlock]; omega

theorem withCounter_length (cb : Bytes) (v : Nat) (h : cb.length = 16) : (withCounter cb v).length = 16 := by
  simp [withCounter, h]

/-- A block counter is a 32-bit value (R123). -/
theorem blockCounter_lt (cb : Bytes) : blockCounter cb < 2 ^ 32 := by
  have h := leNat_lt (cb.take 4)
  have hl : (cb.take 4).length ≤ 4 := by simp
  have hp : 256 ^ (cb.take 4).length ≤ 256 ^ 4 := Nat.pow_le_pow_right (by omega) hl
  unfold blockCounter
  omega

/-- `ctr(cb@v) = v` (R123). -/
theorem blockCounter_withCounter (cb : Bytes) (v : Nat) (h : v < 2 ^ 32) : blockCounter (withCounter cb v) = v := by
  have ht : (withCounter cb v).take 4 = leBytes 4 v := by
    unfold withCounter
    rw [List.take_left' (leBytes_length 4 v)]
  rw [blockCounter, ht, leNat_leBytes]
  omega

/-- `(cb@v)@w = cb@w` (R123). -/
theorem withCounter_withCounter (cb : Bytes) (v w : Nat) : withCounter (withCounter cb v) w = withCounter cb w := by
  have hd : (withCounter cb v).drop 4 = cb.drop 4 := by
    unfold withCounter
    rw [List.drop_left' (leBytes_length 4 v)]
  rw [withCounter, hd, withCounter]

theorem wordsToBytes_length (l : List Word) : (l.flatMap (fun w => leBytes 4 w.toNat)).length = 4 * l.length := by
  induction l with
  | nil => rfl
  | cons w l ih => simp only [List.flatMap_cons, List.length_append, leBytes_length, ih, List.length_cons]; omega

/-- A keystream block has 64 bytes (R122). -/
@[simp] theorem chachaBlock_length (key cb : Bytes) : (chachaBlock key cb).length = 64 := by
  rw [chachaBlock, wordsToBytes_length, Vector.length_toList]

/-- `|Keystream(key, cb, N)| = N` (R124). -/
@[simp] theorem keystream_length (key cb : Bytes) (n : Nat) : (keystream key cb n).length = n := by
  have h : n ≤ blockCount n * 64 := by unfold blockCount; omega
  simp [keystream, List.length_flatMap, List.length_take, h]

@[simp] theorem poly1305_length (key m : Bytes) : (poly1305 key m).length = 16 := by simp [poly1305]

@[simp] theorem aeadTag_length (key cb aad ct : Bytes) : (aeadTag key cb aad ct).length = 16 := by simp [aeadTag]

@[simp] theorem aeadCrypt_length (key cb data : Bytes) : (aeadCrypt key cb data).length = data.length := by simp [aeadCrypt]

/-- Decrypting what was encrypted gives the data back (R160). -/
theorem aeadCrypt_aeadCrypt (key cb data : Bytes) : aeadCrypt key cb (aeadCrypt key cb data) = data := by
  have h : xorBytes (xorBytes data (keystream key (withCounter cb (blockCounter cb + 1)) data.length))
      (keystream key (withCounter cb (blockCounter cb + 1)) data.length) = data :=
    xorBytes_cancel _ _ (by simp)
  simpa [aeadCrypt] using h

/-! Comparison. -/

/-- Every byte the accumulator of R212 takes in is 0 exactly when the accumulator stays at its start. -/
theorem foldl_or_eq_zero (l : Bytes) (acc : Byte) :
    l.foldl (· ||| ·) acc = 0 ↔ acc = 0 ∧ ∀ b ∈ l, b = 0 := by
  induction l generalizing acc with
  | nil => simp
  | cons x l ih =>
    have hor : acc ||| x = 0 ↔ acc = 0 ∧ x = 0 := by
      constructor
      · intro h
        constructor
        · ext i hi; have := congrArg (·.getLsbD i) h; simp_all
        · ext i hi; have := congrArg (·.getLsbD i) h; simp_all
      · rintro ⟨rfl, rfl⟩; simp
    simp only [List.foldl_cons, ih, hor, List.mem_cons, forall_eq_or_imp]
    tauto

/-- Bytewise XOR gives only zeros exactly on equal sequences of equal length (R212). -/
theorem xorBytes_all_zero (a b : Bytes) (h : a.length = b.length) : (∀ x ∈ xorBytes a b, x = 0) ↔ a = b := by
  induction a generalizing b with
  | nil => cases b <;> simp_all [xorBytes]
  | cons x a ih =>
    cases b with
    | nil => simp at h
    | cons y b =>
      have ht := ih b (by simpa using h)
      have hx : x ^^^ y = 0 ↔ x = y := by
        constructor
        · intro hxy; have := congrArg (· ^^^ y) hxy; simpa [BitVec.xor_assoc] using this
        · rintro rfl; simp
      simp only [xorBytes, List.zipWith_cons_cons, List.mem_cons, forall_eq_or_imp, hx, List.cons.injEq] at ht ⊢
      rw [ht]

/-- The constant-time comparison answers 1 exactly on equal sequences (R212). -/
theorem ctCompare_eq (a b : Bytes) : ctCompare a b = if a = b then 1 else 0 := by
  by_cases hl : a.length = b.length
  · have hz : ctAccumulate a b = 0 ↔ a = b := by
      rw [ctAccumulate, foldl_or_eq_zero]
      simpa using xorBytes_all_zero a b hl
    simp only [ctCompare, hl, hz, ne_eq, not_true_eq_false, if_false]
  · have hne : a ≠ b := fun h => hl (by rw [h])
    simp [ctCompare, hl, hne]

/-! Hashes. -/

@[simp] theorem shaHalf_bytes_length (q : ShaHalf) : q.bytes.length = 16 := by simp [ShaHalf.bytes]

@[simp] theorem sha256_length (m : Bytes) : (sha256 m).length = 32 := by unfold sha256; split <;> simp [shaDigest]

/-- A digest has `L_h` bytes (R8). -/
theorem hashOf_length (e : HashEngine) (m : Bytes) (h : e.wf = true) : (hashOf e m).length = e.digestLen := by
  unfold hashOf
  split <;> simp_all [HashEngine.wf]

/-- An HMAC has `L_h` bytes (R171). -/
theorem hmac_length (e : HashEngine) (key m : Bytes) (h : e.wf = true) : (hmac e key m).length = e.digestLen :=
  hashOf_length e _ h

/-- The padded key has `B_h` bytes (R170). -/
theorem hmacKeyPad_length (e : HashEngine) (key : Bytes) (h : e.wf = true) : (hmacKeyPad e key).length = e.blockSize := by
  have hd := hashOf_length e key h
  have hle : e.digestLen ≤ e.blockSize := by
    simp only [HashEngine.wf, Bool.and_eq_true, decide_eq_true_eq] at h
    exact h.1.2
  unfold hmacKeyPad
  split <;> simp <;> omega

/-- A hash of a well-formed configuration is well formed (R12). -/
theorem hashEngine_wf {p : Params} {h : Nat} {e : HashEngine} (hp : p.wf = true) (he : hashEngine? p h = some e) : e.wf = true := by
  have hm : e ∈ p.hashes := List.mem_of_getElem? he
  simp only [Params.wf, Bool.and_eq_true, List.all_eq_true] at hp
  exact hp.2 e hm

@[simp] theorem expandBytes_length (e : HashEngine) (n : Nat) (y : HkdfCtx) : (expandBytes e n y).1.length = n := by
  induction n generalizing y with
  | zero => rfl
  | succ n ih => simp [expandBytes, ih]

/-! Random strings. -/

/-- A draw of `n` bytes gives `n` bytes (R240). -/
@[simp] theorem draw_length (s : State) (n : Nat) : (s.draw n).length = n := by simp [State.draw]

/-- A finished loop gives exactly the symbols asked for (R105). -/
theorem pickSymbols_length (cs : Bytes) (d : Nat → Byte) (fuel need k : Nat) (r : Bytes × Nat)
    (h : pickSymbols cs d fuel need k = some r) : r.1.length = need := by
  induction fuel generalizing need k r with
  | zero => cases need <;> simp_all [pickSymbols]; simp [← h]
  | succ fuel ih =>
    cases need with
    | zero => simp_all [pickSymbols]; simp [← h]
    | succ need =>
      simp only [pickSymbols] at h
      split at h
      · simp only [Option.map_eq_some_iff] at h
        obtain ⟨q, hq, rfl⟩ := h
        simp [ih _ _ _ hq]
      · exact ih _ _ _ h

end Sys2Proof.Machine
end

