-- ==== Sys2Proof/Laws/State.lean ====
section
/-! SUPPORT. One lemma per field of State per named update, so that no proof unfolds a record update; and what the accessors read
after each update. -/

namespace Sys2Proof.Machine

variable (s : State)

/-! `State.report`. -/

@[simp] theorem report_params (code : BitVec 8) (r : DWord) : (s.report code r).params = s.params := rfl
@[simp] theorem report_cmd (code : BitVec 8) (r : DWord) : (s.report code r).cmd = s.cmd := rfl
@[simp] theorem report_args (code : BitVec 8) (r : DWord) : (s.report code r).args = s.args := rfl
@[simp] theorem report_status (code : BitVec 8) (r : DWord) : (s.report code r).status = statusWord code := rfl
@[simp] theorem report_result (code : BitVec 8) (r : DWord) : (s.report code r).result = r := rfl
@[simp] theorem report_fault (code : BitVec 8) (r : DWord) : (s.report code r).fault = s.fault := rfl
@[simp] theorem report_aead (code : BitVec 8) (r : DWord) : (s.report code r).aead = s.aead := rfl
@[simp] theorem report_hmac (code : BitVec 8) (r : DWord) : (s.report code r).hmac = s.hmac := rfl
@[simp] theorem report_hkdf (code : BitVec 8) (r : DWord) : (s.report code r).hkdf = s.hkdf := rfl
@[simp] theorem report_mem (code : BitVec 8) (r : DWord) : (s.report code r).mem = s.mem := rfl
@[simp] theorem report_entropy (code : BitVec 8) (r : DWord) : (s.report code r).entropy = s.entropy := rfl
@[simp] theorem report_drawn (code : BitVec 8) (r : DWord) : (s.report code r).drawn = s.drawn := rfl
@[simp] theorem report_torn (code : BitVec 8) (r : DWord) : (s.report code r).torn = s.torn := rfl
@[simp] theorem report_host (code : BitVec 8) (r : DWord) : (s.report code r).host = s.host := rfl
@[simp] theorem report_readData (code : BitVec 8) (r : DWord) : (s.report code r).readData = s.readData := rfl
@[simp] theorem report_arg (code : BitVec 8) (r : DWord) (j : Fin 8) : (s.report code r).arg j = s.arg j := rfl
@[simp] theorem report_ptr (code : BitVec 8) (r : DWord) (j : Fin 4) : (s.report code r).ptr j = s.ptr j := rfl
@[simp] theorem report_len (code : BitVec 8) (r : DWord) (j : Fin 4) : (s.report code r).len j = s.len j := rfl
@[simp] theorem report_buf (code : BitVec 8) (r : DWord) (j : Fin 4) : (s.report code r).buf j = s.buf j := rfl
@[simp] theorem report_aeadCtx (code : BitVec 8) (r : DWord) (d : BitVec 4) : (s.report code r).aeadCtx d = s.aeadCtx d := rfl
@[simp] theorem report_hmacCtx (code : BitVec 8) (r : DWord) (d : BitVec 4) : (s.report code r).hmacCtx d = s.hmacCtx d := rfl
@[simp] theorem report_hkdfCtx (code : BitVec 8) (r : DWord) (d : BitVec 4) : (s.report code r).hkdfCtx d = s.hkdfCtx d := rfl
@[simp] theorem report_faulted (code : BitVec 8) (r : DWord) : (s.report code r).faulted = s.faulted := rfl

/-! `State.enterFault`. -/

@[simp] theorem enterFault_params (w : Word) (c : FaultCause) : (s.enterFault w c).params = s.params := rfl
@[simp] theorem enterFault_cmd (w : Word) (c : FaultCause) : (s.enterFault w c).cmd = s.cmd := rfl
@[simp] theorem enterFault_args (w : Word) (c : FaultCause) : (s.enterFault w c).args = s.args := rfl
@[simp] theorem enterFault_status (w : Word) (c : FaultCause) : (s.enterFault w c).status = statusWord codeFaulted := rfl
@[simp] theorem enterFault_result (w : Word) (c : FaultCause) : (s.enterFault w c).result = 0 := rfl
@[simp] theorem enterFault_fault (w : Word) (c : FaultCause) : (s.enterFault w c).fault = faultWord w c := rfl
@[simp] theorem enterFault_aead (w : Word) (c : FaultCause) : (s.enterFault w c).aead = s.aead := rfl
@[simp] theorem enterFault_hmac (w : Word) (c : FaultCause) : (s.enterFault w c).hmac = s.hmac := rfl
@[simp] theorem enterFault_hkdf (w : Word) (c : FaultCause) : (s.enterFault w c).hkdf = s.hkdf := rfl
@[simp] theorem enterFault_mem (w : Word) (c : FaultCause) : (s.enterFault w c).mem = s.mem := rfl
@[simp] theorem enterFault_entropy (w : Word) (c : FaultCause) : (s.enterFault w c).entropy = s.entropy := rfl
@[simp] theorem enterFault_drawn (w : Word) (c : FaultCause) : (s.enterFault w c).drawn = s.drawn := rfl
@[simp] theorem enterFault_torn (w : Word) (c : FaultCause) : (s.enterFault w c).torn = s.torn := rfl
@[simp] theorem enterFault_host (w : Word) (c : FaultCause) : (s.enterFault w c).host = s.host := rfl
@[simp] theorem enterFault_readData (w : Word) (c : FaultCause) : (s.enterFault w c).readData = s.readData := rfl
@[simp] theorem enterFault_arg (w : Word) (c : FaultCause) (j : Fin 8) : (s.enterFault w c).arg j = s.arg j := rfl
@[simp] theorem enterFault_ptr (w : Word) (c : FaultCause) (j : Fin 4) : (s.enterFault w c).ptr j = s.ptr j := rfl
@[simp] theorem enterFault_len (w : Word) (c : FaultCause) (j : Fin 4) : (s.enterFault w c).len j = s.len j := rfl
@[simp] theorem enterFault_buf (w : Word) (c : FaultCause) (j : Fin 4) : (s.enterFault w c).buf j = s.buf j := rfl
@[simp] theorem enterFault_aeadCtx (w : Word) (c : FaultCause) (d : BitVec 4) : (s.enterFault w c).aeadCtx d = s.aeadCtx d := rfl
@[simp] theorem enterFault_hmacCtx (w : Word) (c : FaultCause) (d : BitVec 4) : (s.enterFault w c).hmacCtx d = s.hmacCtx d := rfl
@[simp] theorem enterFault_hkdfCtx (w : Word) (c : FaultCause) (d : BitVec 4) : (s.enterFault w c).hkdfCtx d = s.hkdfCtx d := rfl

/-! `State.writeBuf`. -/

@[simp] theorem writeBuf_params (k : Fin 4) (bs : Bytes) : (s.writeBuf k bs).params = s.params := rfl
@[simp] theorem writeBuf_cmd (k : Fin 4) (bs : Bytes) : (s.writeBuf k bs).cmd = s.cmd := rfl
@[simp] theorem writeBuf_args (k : Fin 4) (bs : Bytes) : (s.writeBuf k bs).args = s.args := rfl
@[simp] theorem writeBuf_status (k : Fin 4) (bs : Bytes) : (s.writeBuf k bs).status = s.status := rfl
@[simp] theorem writeBuf_result (k : Fin 4) (bs : Bytes) : (s.writeBuf k bs).result = s.result := rfl
@[simp] theorem writeBuf_fault (k : Fin 4) (bs : Bytes) : (s.writeBuf k bs).fault = s.fault := rfl
@[simp] theorem writeBuf_aead (k : Fin 4) (bs : Bytes) : (s.writeBuf k bs).aead = s.aead := rfl
@[simp] theorem writeBuf_hmac (k : Fin 4) (bs : Bytes) : (s.writeBuf k bs).hmac = s.hmac := rfl
@[simp] theorem writeBuf_hkdf (k : Fin 4) (bs : Bytes) : (s.writeBuf k bs).hkdf = s.hkdf := rfl
@[simp] theorem writeBuf_mem (k : Fin 4) (bs : Bytes) : (s.writeBuf k bs).mem = memWrite s.mem (s.ptr k) (bs.take (s.len k)) := rfl
@[simp] theorem writeBuf_entropy (k : Fin 4) (bs : Bytes) : (s.writeBuf k bs).entropy = s.entropy := rfl
@[simp] theorem writeBuf_drawn (k : Fin 4) (bs : Bytes) : (s.writeBuf k bs).drawn = s.drawn := rfl
@[simp] theorem writeBuf_torn (k : Fin 4) (bs : Bytes) : (s.writeBuf k bs).torn = s.torn := rfl
@[simp] theorem writeBuf_host (k : Fin 4) (bs : Bytes) : (s.writeBuf k bs).host = s.host := rfl
@[simp] theorem writeBuf_readData (k : Fin 4) (bs : Bytes) : (s.writeBuf k bs).readData = s.readData := rfl
@[simp] theorem writeBuf_arg (k : Fin 4) (bs : Bytes) (j : Fin 8) : (s.writeBuf k bs).arg j = s.arg j := rfl
@[simp] theorem writeBuf_ptr (k : Fin 4) (bs : Bytes) (j : Fin 4) : (s.writeBuf k bs).ptr j = s.ptr j := rfl
@[simp] theorem writeBuf_len (k : Fin 4) (bs : Bytes) (j : Fin 4) : (s.writeBuf k bs).len j = s.len j := rfl
@[simp] theorem writeBuf_aeadCtx (k : Fin 4) (bs : Bytes) (d : BitVec 4) : (s.writeBuf k bs).aeadCtx d = s.aeadCtx d := rfl
@[simp] theorem writeBuf_hmacCtx (k : Fin 4) (bs : Bytes) (d : BitVec 4) : (s.writeBuf k bs).hmacCtx d = s.hmacCtx d := rfl
@[simp] theorem writeBuf_hkdfCtx (k : Fin 4) (bs : Bytes) (d : BitVec 4) : (s.writeBuf k bs).hkdfCtx d = s.hkdfCtx d := rfl
@[simp] theorem writeBuf_faulted (k : Fin 4) (bs : Bytes) : (s.writeBuf k bs).faulted = s.faulted := rfl

/-! `State.setArg`. -/

@[simp] theorem setArg_params (i : Fin 8) (v : DWord) : (s.setArg i v).params = s.params := rfl
@[simp] theorem setArg_cmd (i : Fin 8) (v : DWord) : (s.setArg i v).cmd = s.cmd := rfl
@[simp] theorem setArg_args (i : Fin 8) (v : DWord) : (s.setArg i v).args = s.args.set i v := rfl
@[simp] theorem setArg_status (i : Fin 8) (v : DWord) : (s.setArg i v).status = s.status := rfl
@[simp] theorem setArg_result (i : Fin 8) (v : DWord) : (s.setArg i v).result = s.result := rfl
@[simp] theorem setArg_fault (i : Fin 8) (v : DWord) : (s.setArg i v).fault = s.fault := rfl
@[simp] theorem setArg_aead (i : Fin 8) (v : DWord) : (s.setArg i v).aead = s.aead := rfl
@[simp] theorem setArg_hmac (i : Fin 8) (v : DWord) : (s.setArg i v).hmac = s.hmac := rfl
@[simp] theorem setArg_hkdf (i : Fin 8) (v : DWord) : (s.setArg i v).hkdf = s.hkdf := rfl
@[simp] theorem setArg_mem (i : Fin 8) (v : DWord) : (s.setArg i v).mem = s.mem := rfl
@[simp] theorem setArg_entropy (i : Fin 8) (v : DWord) : (s.setArg i v).entropy = s.entropy := rfl
@[simp] theorem setArg_drawn (i : Fin 8) (v : DWord) : (s.setArg i v).drawn = s.drawn := rfl
@[simp] theorem setArg_torn (i : Fin 8) (v : DWord) : (s.setArg i v).torn = s.torn := rfl
@[simp] theorem setArg_host (i : Fin 8) (v : DWord) : (s.setArg i v).host = s.host := rfl
@[simp] theorem setArg_readData (i : Fin 8) (v : DWord) : (s.setArg i v).readData = s.readData := rfl
@[simp] theorem setArg_aeadCtx (i : Fin 8) (v : DWord) (d : BitVec 4) : (s.setArg i v).aeadCtx d = s.aeadCtx d := rfl
@[simp] theorem setArg_hmacCtx (i : Fin 8) (v : DWord) (d : BitVec 4) : (s.setArg i v).hmacCtx d = s.hmacCtx d := rfl
@[simp] theorem setArg_hkdfCtx (i : Fin 8) (v : DWord) (d : BitVec 4) : (s.setArg i v).hkdfCtx d = s.hkdfCtx d := rfl
@[simp] theorem setArg_faulted (i : Fin 8) (v : DWord) : (s.setArg i v).faulted = s.faulted := rfl

/-! `State.setAead`. -/

@[simp] theorem setAead_params (c : BitVec 4) (x : AeadCtx) : (s.setAead c x).params = s.params := rfl
@[simp] theorem setAead_cmd (c : BitVec 4) (x : AeadCtx) : (s.setAead c x).cmd = s.cmd := rfl
@[simp] theorem setAead_args (c : BitVec 4) (x : AeadCtx) : (s.setAead c x).args = s.args := rfl
@[simp] theorem setAead_status (c : BitVec 4) (x : AeadCtx) : (s.setAead c x).status = s.status := rfl
@[simp] theorem setAead_result (c : BitVec 4) (x : AeadCtx) : (s.setAead c x).result = s.result := rfl
@[simp] theorem setAead_fault (c : BitVec 4) (x : AeadCtx) : (s.setAead c x).fault = s.fault := rfl
@[simp] theorem setAead_aead (c : BitVec 4) (x : AeadCtx) : (s.setAead c x).aead = s.aead.set c.toNat x c.isLt := rfl
@[simp] theorem setAead_hmac (c : BitVec 4) (x : AeadCtx) : (s.setAead c x).hmac = s.hmac := rfl
@[simp] theorem setAead_hkdf (c : BitVec 4) (x : AeadCtx) : (s.setAead c x).hkdf = s.hkdf := rfl
@[simp] theorem setAead_mem (c : BitVec 4) (x : AeadCtx) : (s.setAead c x).mem = s.mem := rfl
@[simp] theorem setAead_entropy (c : BitVec 4) (x : AeadCtx) : (s.setAead c x).entropy = s.entropy := rfl
@[simp] theorem setAead_drawn (c : BitVec 4) (x : AeadCtx) : (s.setAead c x).drawn = s.drawn := rfl
@[simp] theorem setAead_torn (c : BitVec 4) (x : AeadCtx) : (s.setAead c x).torn = s.torn := rfl
@[simp] theorem setAead_host (c : BitVec 4) (x : AeadCtx) : (s.setAead c x).host = s.host := rfl
@[simp] theorem setAead_readData (c : BitVec 4) (x : AeadCtx) : (s.setAead c x).readData = s.readData := rfl
@[simp] theorem setAead_arg (c : BitVec 4) (x : AeadCtx) (j : Fin 8) : (s.setAead c x).arg j = s.arg j := rfl
@[simp] theorem setAead_ptr (c : BitVec 4) (x : AeadCtx) (j : Fin 4) : (s.setAead c x).ptr j = s.ptr j := rfl
@[simp] theorem setAead_len (c : BitVec 4) (x : AeadCtx) (j : Fin 4) : (s.setAead c x).len j = s.len j := rfl
@[simp] theorem setAead_buf (c : BitVec 4) (x : AeadCtx) (j : Fin 4) : (s.setAead c x).buf j = s.buf j := rfl
@[simp] theorem setAead_hmacCtx (c : BitVec 4) (x : AeadCtx) (d : BitVec 4) : (s.setAead c x).hmacCtx d = s.hmacCtx d := rfl
@[simp] theorem setAead_hkdfCtx (c : BitVec 4) (x : AeadCtx) (d : BitVec 4) : (s.setAead c x).hkdfCtx d = s.hkdfCtx d := rfl
@[simp] theorem setAead_faulted (c : BitVec 4) (x : AeadCtx) : (s.setAead c x).faulted = s.faulted := rfl

/-! `State.setHmac`. -/

@[simp] theorem setHmac_params (c : BitVec 4) (x : HmacCtx) : (s.setHmac c x).params = s.params := rfl
@[simp] theorem setHmac_cmd (c : BitVec 4) (x : HmacCtx) : (s.setHmac c x).cmd = s.cmd := rfl
@[simp] theorem setHmac_args (c : BitVec 4) (x : HmacCtx) : (s.setHmac c x).args = s.args := rfl
@[simp] theorem setHmac_status (c : BitVec 4) (x : HmacCtx) : (s.setHmac c x).status = s.status := rfl
@[simp] theorem setHmac_result (c : BitVec 4) (x : HmacCtx) : (s.setHmac c x).result = s.result := rfl
@[simp] theorem setHmac_fault (c : BitVec 4) (x : HmacCtx) : (s.setHmac c x).fault = s.fault := rfl
@[simp] theorem setHmac_aead (c : BitVec 4) (x : HmacCtx) : (s.setHmac c x).aead = s.aead := rfl
@[simp] theorem setHmac_hmac (c : BitVec 4) (x : HmacCtx) : (s.setHmac c x).hmac = s.hmac.set c.toNat x c.isLt := rfl
@[simp] theorem setHmac_hkdf (c : BitVec 4) (x : HmacCtx) : (s.setHmac c x).hkdf = s.hkdf := rfl
@[simp] theorem setHmac_mem (c : BitVec 4) (x : HmacCtx) : (s.setHmac c x).mem = s.mem := rfl
@[simp] theorem setHmac_entropy (c : BitVec 4) (x : HmacCtx) : (s.setHmac c x).entropy = s.entropy := rfl
@[simp] theorem setHmac_drawn (c : BitVec 4) (x : HmacCtx) : (s.setHmac c x).drawn = s.drawn := rfl
@[simp] theorem setHmac_torn (c : BitVec 4) (x : HmacCtx) : (s.setHmac c x).torn = s.torn := rfl
@[simp] theorem setHmac_host (c : BitVec 4) (x : HmacCtx) : (s.setHmac c x).host = s.host := rfl
@[simp] theorem setHmac_readData (c : BitVec 4) (x : HmacCtx) : (s.setHmac c x).readData = s.readData := rfl
@[simp] theorem setHmac_arg (c : BitVec 4) (x : HmacCtx) (j : Fin 8) : (s.setHmac c x).arg j = s.arg j := rfl
@[simp] theorem setHmac_ptr (c : BitVec 4) (x : HmacCtx) (j : Fin 4) : (s.setHmac c x).ptr j = s.ptr j := rfl
@[simp] theorem setHmac_len (c : BitVec 4) (x : HmacCtx) (j : Fin 4) : (s.setHmac c x).len j = s.len j := rfl
@[simp] theorem setHmac_buf (c : BitVec 4) (x : HmacCtx) (j : Fin 4) : (s.setHmac c x).buf j = s.buf j := rfl
@[simp] theorem setHmac_aeadCtx (c : BitVec 4) (x : HmacCtx) (d : BitVec 4) : (s.setHmac c x).aeadCtx d = s.aeadCtx d := rfl
@[simp] theorem setHmac_hkdfCtx (c : BitVec 4) (x : HmacCtx) (d : BitVec 4) : (s.setHmac c x).hkdfCtx d = s.hkdfCtx d := rfl
@[simp] theorem setHmac_faulted (c : BitVec 4) (x : HmacCtx) : (s.setHmac c x).faulted = s.faulted := rfl

/-! `State.setHkdf`. -/

@[simp] theorem setHkdf_params (c : BitVec 4) (x : HkdfCtx) : (s.setHkdf c x).params = s.params := rfl
@[simp] theorem setHkdf_cmd (c : BitVec 4) (x : HkdfCtx) : (s.setHkdf c x).cmd = s.cmd := rfl
@[simp] theorem setHkdf_args (c : BitVec 4) (x : HkdfCtx) : (s.setHkdf c x).args = s.args := rfl
@[simp] theorem setHkdf_status (c : BitVec 4) (x : HkdfCtx) : (s.setHkdf c x).status = s.status := rfl
@[simp] theorem setHkdf_result (c : BitVec 4) (x : HkdfCtx) : (s.setHkdf c x).result = s.result := rfl
@[simp] theorem setHkdf_fault (c : BitVec 4) (x : HkdfCtx) : (s.setHkdf c x).fault = s.fault := rfl
@[simp] theorem setHkdf_aead (c : BitVec 4) (x : HkdfCtx) : (s.setHkdf c x).aead = s.aead := rfl
@[simp] theorem setHkdf_hmac (c : BitVec 4) (x : HkdfCtx) : (s.setHkdf c x).hmac = s.hmac := rfl
@[simp] theorem setHkdf_hkdf (c : BitVec 4) (x : HkdfCtx) : (s.setHkdf c x).hkdf = s.hkdf.set c.toNat x c.isLt := rfl
@[simp] theorem setHkdf_mem (c : BitVec 4) (x : HkdfCtx) : (s.setHkdf c x).mem = s.mem := rfl
@[simp] theorem setHkdf_entropy (c : BitVec 4) (x : HkdfCtx) : (s.setHkdf c x).entropy = s.entropy := rfl
@[simp] theorem setHkdf_drawn (c : BitVec 4) (x : HkdfCtx) : (s.setHkdf c x).drawn = s.drawn := rfl
@[simp] theorem setHkdf_torn (c : BitVec 4) (x : HkdfCtx) : (s.setHkdf c x).torn = s.torn := rfl
@[simp] theorem setHkdf_host (c : BitVec 4) (x : HkdfCtx) : (s.setHkdf c x).host = s.host := rfl
@[simp] theorem setHkdf_readData (c : BitVec 4) (x : HkdfCtx) : (s.setHkdf c x).readData = s.readData := rfl
@[simp] theorem setHkdf_arg (c : BitVec 4) (x : HkdfCtx) (j : Fin 8) : (s.setHkdf c x).arg j = s.arg j := rfl
@[simp] theorem setHkdf_ptr (c : BitVec 4) (x : HkdfCtx) (j : Fin 4) : (s.setHkdf c x).ptr j = s.ptr j := rfl
@[simp] theorem setHkdf_len (c : BitVec 4) (x : HkdfCtx) (j : Fin 4) : (s.setHkdf c x).len j = s.len j := rfl
@[simp] theorem setHkdf_buf (c : BitVec 4) (x : HkdfCtx) (j : Fin 4) : (s.setHkdf c x).buf j = s.buf j := rfl
@[simp] theorem setHkdf_aeadCtx (c : BitVec 4) (x : HkdfCtx) (d : BitVec 4) : (s.setHkdf c x).aeadCtx d = s.aeadCtx d := rfl
@[simp] theorem setHkdf_hmacCtx (c : BitVec 4) (x : HkdfCtx) (d : BitVec 4) : (s.setHkdf c x).hmacCtx d = s.hmacCtx d := rfl
@[simp] theorem setHkdf_faulted (c : BitVec 4) (x : HkdfCtx) : (s.setHkdf c x).faulted = s.faulted := rfl

/-! `State.afterDraw`. -/

@[simp] theorem afterDraw_params (n : Nat) : (s.afterDraw n).params = s.params := rfl
@[simp] theorem afterDraw_cmd (n : Nat) : (s.afterDraw n).cmd = s.cmd := rfl
@[simp] theorem afterDraw_args (n : Nat) : (s.afterDraw n).args = s.args := rfl
@[simp] theorem afterDraw_status (n : Nat) : (s.afterDraw n).status = s.status := rfl
@[simp] theorem afterDraw_result (n : Nat) : (s.afterDraw n).result = s.result := rfl
@[simp] theorem afterDraw_fault (n : Nat) : (s.afterDraw n).fault = s.fault := rfl
@[simp] theorem afterDraw_aead (n : Nat) : (s.afterDraw n).aead = s.aead := rfl
@[simp] theorem afterDraw_hmac (n : Nat) : (s.afterDraw n).hmac = s.hmac := rfl
@[simp] theorem afterDraw_hkdf (n : Nat) : (s.afterDraw n).hkdf = s.hkdf := rfl
@[simp] theorem afterDraw_mem (n : Nat) : (s.afterDraw n).mem = s.mem := rfl
@[simp] theorem afterDraw_entropy (n : Nat) : (s.afterDraw n).entropy = s.entropy.drop n := rfl
@[simp] theorem afterDraw_drawn (n : Nat) : (s.afterDraw n).drawn = s.drawn + n := rfl
@[simp] theorem afterDraw_torn (n : Nat) : (s.afterDraw n).torn = s.torn := rfl
@[simp] theorem afterDraw_host (n : Nat) : (s.afterDraw n).host = s.host := rfl
@[simp] theorem afterDraw_readData (n : Nat) : (s.afterDraw n).readData = s.readData := rfl
@[simp] theorem afterDraw_arg (n : Nat) (j : Fin 8) : (s.afterDraw n).arg j = s.arg j := rfl
@[simp] theorem afterDraw_ptr (n : Nat) (j : Fin 4) : (s.afterDraw n).ptr j = s.ptr j := rfl
@[simp] theorem afterDraw_len (n : Nat) (j : Fin 4) : (s.afterDraw n).len j = s.len j := rfl
@[simp] theorem afterDraw_buf (n : Nat) (j : Fin 4) : (s.afterDraw n).buf j = s.buf j := rfl
@[simp] theorem afterDraw_aeadCtx (n : Nat) (d : BitVec 4) : (s.afterDraw n).aeadCtx d = s.aeadCtx d := rfl
@[simp] theorem afterDraw_hmacCtx (n : Nat) (d : BitVec 4) : (s.afterDraw n).hmacCtx d = s.hmacCtx d := rfl
@[simp] theorem afterDraw_hkdfCtx (n : Nat) (d : BitVec 4) : (s.afterDraw n).hkdfCtx d = s.hkdfCtx d := rfl
@[simp] theorem afterDraw_faulted (n : Nat) : (s.afterDraw n).faulted = s.faulted := rfl

/-! `State.resetCore`. -/

@[simp] theorem resetCore_params : (s.resetCore).params = s.params := rfl
@[simp] theorem resetCore_cmd : (s.resetCore).cmd = 0 := rfl
@[simp] theorem resetCore_args : (s.resetCore).args = Vector.replicate 8 0 := rfl
@[simp] theorem resetCore_status : (s.resetCore).status = 0 := rfl
@[simp] theorem resetCore_result : (s.resetCore).result = 0 := rfl
@[simp] theorem resetCore_fault : (s.resetCore).fault = 0 := rfl
@[simp] theorem resetCore_aead : (s.resetCore).aead = Vector.replicate 16 AeadCtx.blank := rfl
@[simp] theorem resetCore_hmac : (s.resetCore).hmac = Vector.replicate 16 HmacCtx.blank := rfl
@[simp] theorem resetCore_hkdf : (s.resetCore).hkdf = Vector.replicate 16 HkdfCtx.blank := rfl
@[simp] theorem resetCore_mem : (s.resetCore).mem = s.mem := rfl
@[simp] theorem resetCore_entropy : (s.resetCore).entropy = s.entropy := rfl
@[simp] theorem resetCore_drawn : (s.resetCore).drawn = s.drawn := rfl
@[simp] theorem resetCore_torn : (s.resetCore).torn = s.torn := rfl
@[simp] theorem resetCore_host : (s.resetCore).host = s.host := rfl
@[simp] theorem resetCore_readData : (s.resetCore).readData = s.readData := rfl

/-! Reading `aead` after writing it. -/

@[simp] theorem aeadCtx_set_self (c : BitVec 4) (x : AeadCtx) : (s.setAead c x).aeadCtx c = x := by
  simp [State.setAead, State.aeadCtx]

theorem aeadCtx_set_ne (c d : BitVec 4) (x : AeadCtx) (h : c ≠ d) : (s.setAead c x).aeadCtx d = s.aeadCtx d := by
  have hn : c.toNat ≠ d.toNat := fun e => h (BitVec.eq_of_toNat_eq e)
  simp [State.setAead, State.aeadCtx, hn]

@[simp] theorem resetCore_aeadCtx (c : BitVec 4) : s.resetCore.aeadCtx c = AeadCtx.blank := by
  simp [State.resetCore, State.aeadCtx]

/-! Reading `hmac` after writing it. -/

@[simp] theorem hmacCtx_set_self (c : BitVec 4) (x : HmacCtx) : (s.setHmac c x).hmacCtx c = x := by
  simp [State.setHmac, State.hmacCtx]

theorem hmacCtx_set_ne (c d : BitVec 4) (x : HmacCtx) (h : c ≠ d) : (s.setHmac c x).hmacCtx d = s.hmacCtx d := by
  have hn : c.toNat ≠ d.toNat := fun e => h (BitVec.eq_of_toNat_eq e)
  simp [State.setHmac, State.hmacCtx, hn]

@[simp] theorem resetCore_hmacCtx (c : BitVec 4) : s.resetCore.hmacCtx c = HmacCtx.blank := by
  simp [State.resetCore, State.hmacCtx]

/-! Reading `hkdf` after writing it. -/

@[simp] theorem hkdfCtx_set_self (c : BitVec 4) (x : HkdfCtx) : (s.setHkdf c x).hkdfCtx c = x := by
  simp [State.setHkdf, State.hkdfCtx]

theorem hkdfCtx_set_ne (c d : BitVec 4) (x : HkdfCtx) (h : c ≠ d) : (s.setHkdf c x).hkdfCtx d = s.hkdfCtx d := by
  have hn : c.toNat ≠ d.toNat := fun e => h (BitVec.eq_of_toNat_eq e)
  simp [State.setHkdf, State.hkdfCtx, hn]

@[simp] theorem resetCore_hkdfCtx (c : BitVec 4) : s.resetCore.hkdfCtx c = HkdfCtx.blank := by
  simp [State.resetCore, State.hkdfCtx]

/-- Writing back the context read changes nothing. -/
theorem setHmac_self (c : BitVec 4) : s.setHmac c (s.hmacCtx c) = s := by
  simp [State.setHmac, State.hmacCtx]

/-! A buffer write of exactly the buffer's length (R16). -/

/-- As many bytes as the buffer holds are all written. -/
theorem writeBuf_exact (k : Fin 4) (bs : Bytes) (h : bs.length = s.len k) :
    s.writeBuf k bs = { s with mem := memWrite s.mem (s.ptr k) bs } := by
  simp only [State.writeBuf, ← h, List.take_length]

/-! Reading an argument register after writing one (R22). -/

@[simp] theorem arg_setArg_self (i : Fin 8) (v : DWord) : (s.setArg i v).arg i = v := by
  simp [State.setArg, State.arg]

theorem arg_setArg_ne (i j : Fin 8) (v : DWord) (h : i ≠ j) : (s.setArg i v).arg j = s.arg j := by
  have hn : i.val ≠ j.val := fun e => h (Fin.ext e)
  simp [State.setArg, State.arg, hn]

/-! The fault bit (R27). -/

theorem faultF_faultWord (w : Word) (c : FaultCause) : faultF (faultWord w c) = true := by
  simp [faultF, faultWord]

@[simp] theorem enterFault_faulted (w : Word) (c : FaultCause) : (s.enterFault w c).faulted = true := faultF_faultWord w c

@[simp] theorem resetCore_faulted : s.resetCore.faulted = false := by simp [State.faulted, faultF]

end Sys2Proof.Machine
end

