-- ==== Sys2Proof/Laws/Command.lean ====
section
/-! SUPPORT. The prologue and the end of a command, said once: the checks of Machine/Operands.lean are the conditions of Safety.lean,
a command that passes them ends as its own computation says, and an outcome is one of three (spec 60_exceptions.md R220, R233). -/

namespace Sys2Proof.Machine

/-! Admissibility (R52). -/

theorem mem_interval (lo hi a : Nat) : (∃ iv ∈ interval lo hi, iv.1 ≤ a ∧ a < iv.2) ↔ lo ≤ a ∧ a < hi := by
  unfold interval
  split
  · simp
  · simp; omega

theorem mem_outsideRegion (r : Region) (iv : Nat × Nat) (a : Nat) :
    (∃ jv ∈ outsideRegion r iv, jv.1 ≤ a ∧ a < jv.2) ↔
      (iv.1 ≤ a ∧ a < iv.2) ∧ ¬(r.base ≤ a ∧ a < r.base + r.size) := by
  have h1 := mem_interval iv.1 (min iv.2 r.base) a
  have h2 := mem_interval (max iv.1 (r.base + r.size)) iv.2 a
  unfold outsideRegion
  constructor
  · rintro ⟨jv, hj, ha⟩
    rcases List.mem_append.mp hj with hj | hj
    · have := h1.mp ⟨jv, hj, ha⟩; omega
    · have := h2.mp ⟨jv, hj, ha⟩; omega
  · rintro ⟨ha, hr⟩
    by_cases hb : a < r.base
    · obtain ⟨jv, hj, hja⟩ := h1.mpr (by omega)
      exact ⟨jv, List.mem_append.mpr (.inl hj), hja⟩
    · obtain ⟨jv, hj, hja⟩ := h2.mpr (by omega)
      exact ⟨jv, List.mem_append.mpr (.inr hj), hja⟩

/-- An address is left over by the regions exactly when it was there and no region holds it. -/
theorem mem_outsideRegions (rs : List Region) (ivs : List (Nat × Nat)) (a : Nat) :
    (∃ iv ∈ outsideRegions rs ivs, iv.1 ≤ a ∧ a < iv.2) ↔
      (∃ iv ∈ ivs, iv.1 ≤ a ∧ a < iv.2) ∧ ∀ r ∈ rs, ¬(r.base ≤ a ∧ a < r.base + r.size) := by
  induction rs generalizing ivs with
  | nil => simp [outsideRegions]
  | cons r rs ih =>
    rw [outsideRegions, ih]
    constructor
    · rintro ⟨⟨jv, hj, ha⟩, hrs⟩
      obtain ⟨iv, hiv, hj⟩ := List.mem_flatMap.mp hj
      obtain ⟨hia, hr⟩ := (mem_outsideRegion r iv a).mp ⟨jv, hj, ha⟩
      exact ⟨⟨iv, hiv, hia⟩, fun q hq => by rcases List.mem_cons.mp hq with rfl | hq; exacts [hr, hrs q hq]⟩
    · rintro ⟨⟨iv, hiv, hia⟩, hall⟩
      obtain ⟨jv, hj, ha⟩ := (mem_outsideRegion r iv a).mpr ⟨hia, hall r (by simp)⟩
      exact ⟨⟨jv, List.mem_flatMap.mpr ⟨iv, hiv, hj⟩, ha⟩, fun q hq => hall q (by simp [hq])⟩

theorem outsideRegion_nonempty (r : Region) (iv jv : Nat × Nat) (h : jv ∈ outsideRegion r iv) : jv.1 < jv.2 := by
  simp only [outsideRegion, interval, List.mem_append] at h
  rcases h with h | h <;> split at h <;> simp_all

theorem outsideRegions_nonempty (rs : List Region) (ivs : List (Nat × Nat)) (h : ∀ iv ∈ ivs, iv.1 < iv.2) :
    ∀ iv ∈ outsideRegions rs ivs, iv.1 < iv.2 := by
  induction rs generalizing ivs with
  | nil => exact h
  | cons r rs ih =>
    refine ih _ (fun jv hj => ?_)
    obtain ⟨iv, _, hj⟩ := List.mem_flatMap.mp hj
    exact outsideRegion_nonempty r iv jv hj

/-- The range check answers what R52 says: every address of the range is admitted. -/
theorem admitsRange_iff (p : Params) (lo hi : Nat) :
    admitsRange p lo hi = true ↔ ∀ a, lo ≤ a → a < hi → admits p a = true := by
  have hne : ∀ iv ∈ outsideRegions p.admitted (interval lo hi), iv.1 < iv.2 :=
    outsideRegions_nonempty _ _ (fun iv h => by simp only [interval] at h; split at h <;> simp_all)
  have key := fun a => mem_outsideRegions p.admitted (interval lo hi) a
  simp only [mem_interval] at key
  have hadm : ∀ a, admits p a = true ↔ ¬∀ r ∈ p.admitted, ¬(r.base ≤ a ∧ a < r.base + r.size) := by
    intro a; simp [admits]
  unfold admitsRange
  constructor
  · intro h a h1 h2
    rw [hadm]
    intro hall
    obtain ⟨iv, hiv, _⟩ := (key a).mpr ⟨⟨h1, h2⟩, hall⟩
    rw [List.isEmpty_iff.mp h] at hiv
    cases hiv
  · intro h
    rw [List.isEmpty_iff]
    apply List.eq_nil_iff_forall_not_mem.mpr
    intro iv hiv
    obtain ⟨⟨h1, h2⟩, hall⟩ := (key iv.1).mp ⟨iv, hiv, Nat.le_refl _, hne iv hiv⟩
    exact (hadm iv.1).mp (h iv.1 h1 h2) hall

theorem admissible_iff (s : State) (k : Fin 4) : s.admissible k = true ↔ s.DescAdmissible k := by
  simp [State.admissible, State.DescAdmissible, admitsRange_iff]

theorem buffersOk_iff (s : State) (i : Instr) : (descriptors i).all s.admissible = true ↔ s.BuffersOk i := by
  simp only [List.all_eq_true, admissible_iff, State.BuffersOk]

theorem overlap_iff (s : State) (j k : Fin 4) : s.overlap j k = true ↔ s.DescOverlap j k := by
  simp [State.overlap, State.DescOverlap, and_assoc]

theorem aliasFree_iff (s : State) (i : Instr) : s.aliasFree i = true ↔ ¬s.AliasBroken i := by
  have hpair : ∀ o k : Fin 4, (!s.overlap o k || (inPlaceAllowed i o k && s.identical o k)) = true ↔
      ¬(s.DescOverlap o k ∧ ¬(i = .chachaStreamXor ∧ o = 3 ∧ k = 2 ∧ s.ptr o = s.ptr k ∧ s.len o = s.len k)) := by
    intro o k
    rw [← overlap_iff]
    simp only [inPlaceAllowed, State.identical, Bool.or_eq_true, Bool.and_eq_true, Bool.not_eq_true', beq_iff_eq]
    cases s.overlap o k <;> simp
    tauto
  unfold State.aliasFree State.AliasBroken
  cases output i with
  | none => simp
  | some o =>
    simp only [List.all_eq_true, hpair]
    constructor
    · rintro h ⟨o', k, ho, hk, hbad⟩
      cases ho
      exact h k hk hbad
    · exact fun h k hk hbad => h ⟨o, k, rfl, hk, hbad⟩

/-- The prologue lets a command run exactly under the conditions of R233 items 3 to 5. -/
theorem prologueFault_none_iff (s : State) (i : Instr) :
    s.prologueFault i = none ↔ s.BuffersOk i ∧ ¬s.AliasBroken i ∧ s.contextReady i = true := by
  rw [← buffersOk_iff, ← aliasFree_iff]
  unfold State.prologueFault
  cases (descriptors i).all s.admissible <;> cases s.aliasFree i <;> cases s.contextReady i <;> simp

/-! The end of a command. -/

/-- A command to which no item of the prologue applies ends as its own checks and computation say. -/
theorem runCommand_clear {i : Instr} {s : State} {body : State → Verdict} (h : s.Clear i) :
    runCommand i s body = conclude i s (body s) := by
  obtain ⟨⟨hw, hf⟩, hp⟩ := h
  have hp := (prologueFault_none_iff s i).mpr hp
  simp [runCommand, hw, hf, hp]

/-- A command that the prologue stops takes the fault it names. -/
theorem runCommand_prologueFault {i : Instr} {s : State} {body : State → Verdict} {c : FaultCause} (h : s.Ready)
    (hp : s.prologueFault i = some c) : runCommand i s body = .next (s.enterFault (encode i) c) := by
  simp [runCommand, h.1, h.2, hp]

/-- What a command's next state can be (R220): completed from a state the prologue passes, an error, or a fault. -/
theorem runCommand_next {i : Instr} {s t : State} {body : State → Verdict} (h : runCommand i s body = .next t) :
    s.Ready ∧
      ((s.Clear i ∧ ∃ r u, body s = .done r u ∧ t = u.report codeOk r) ∨
        (s.Clear i ∧ ∃ e r, body s = .raise e r ∧ t = s.report (errorCode e) r) ∨
        (∃ c, t = s.enterFault (encode i) c)) := by
  by_cases hw : s.params.wf = true
  · by_cases hf : s.faulted = true
    · simp [runCommand, hw, hf] at h
    · have hr : s.Ready := ⟨hw, by simpa using hf⟩
      refine ⟨hr, ?_⟩
      cases hp : s.prologueFault i with
      | some c =>
        rw [runCommand_prologueFault hr hp] at h
        exact .inr (.inr ⟨c, by cases h; rfl⟩)
      | none =>
        have hc : s.Clear i := ⟨hr, (prologueFault_none_iff s i).mp hp⟩
        rw [runCommand_clear hc] at h
        cases hb : body s with
        | done r u => rw [hb] at h; exact .inl ⟨hc, r, u, rfl, by cases h; rfl⟩
        | raise e r => rw [hb] at h; exact .inr (.inl ⟨hc, e, r, rfl, by cases h; rfl⟩)
        | fault c => rw [hb] at h; exact .inr (.inr ⟨c, by cases h; rfl⟩)
        | stop f => rw [hb] at h; cases h
  · simp [runCommand, hw] at h

/-- The checks and computation of each command, after the prologue. -/
def bodyOf : Instr → State → Verdict
  | .randBytes => randBytes
  | .randUint32 => randUint32
  | .randString => randomString 0
  | .randStringEntropy => randStringEntropy
  | .chachaStream => chachaStream
  | .chachaStreamXor => chachaStreamXor
  | .poly1305Auth => poly1305Auth
  | .aeadInit c => aeadInit c
  | .aeadSeal c => aeadSeal c
  | .aeadOpen c => aeadOpen c
  | .aeadClean c => fun s => .done 0 (s.setAead c AeadCtx.blank)
  | .hmacInit c h => hmacInit c h
  | .hmacUpdate c => hmacUpdate c
  | .hmacFinish c => hmacFinish c
  | .hmacReset c => hmacReset c
  | .hmacSave c => hmacSave c
  | .hmacRestore c => hmacRestore c
  | .hmacCleanSaved c => hmacCleanSaved c
  | .hmacClean c => fun s => .done 0 (s.setHmac c HmacCtx.blank)
  | .hkdfInit c h => hkdfInit c h
  | .hkdfExpand c => hkdfExpand c
  | .hkdfClean c => fun s => .done 0 (s.setHkdf c HkdfCtx.blank)
  | .ctSelect => ctSelect
  | .ctLessOrEqual => ctLessOrEqual
  | .ctCompare => fun s => .done (ctCompare (s.buf 0) (s.buf 1)) s
  | .ctEqual => fun s => .done (ctEqual (s.buf 0) (s.buf 1)) s

/-- Every arm of `exec` is the common prologue, then the command's own body. -/
theorem exec_eq (i : Instr) (s : State) : exec i s = runCommand i s (bodyOf i) := by cases i <;> rfl

/-- A command to which no item of the prologue applies ends as its body says. -/
theorem exec_clear {i : Instr} {s : State} (h : s.Clear i) : exec i s = conclude i s (bodyOf i s) := by
  rw [exec_eq, runCommand_clear h]

/-- A command without descriptors needs a ready core and its context, nothing else. -/
theorem clear_of_noDescriptors {i : Instr} {s : State} (hr : s.Ready) (hd : descriptors i = [])
    (hc : s.contextReady i = true) : s.Clear i := by
  refine ⟨hr, fun k hk => ?_, fun ⟨o, k, ho, _⟩ => ?_, hc⟩
  · rw [hd] at hk; cases hk
  · have : o ∈ descriptors i := by simp [descriptors, ho]
    rw [hd] at this; cases this

/-- What a command's next state can be (R220). -/
theorem exec_next {i : Instr} {s t : State} (h : exec i s = .next t) :
    s.Ready ∧
      ((s.Clear i ∧ ∃ r u, bodyOf i s = .done r u ∧ t = u.report codeOk r) ∨
        (s.Clear i ∧ ∃ e r, bodyOf i s = .raise e r ∧ t = s.report (errorCode e) r) ∨
        (∃ c, t = s.enterFault (encode i) c)) := by
  rw [exec_eq] at h
  exact runCommand_next h

end Sys2Proof.Machine
end

