-- ==== Sys2Proof/Laws/Effects.lean ====
section
/-! SUPPORT. What a command's own checks and computation can do, said once for all commands: what a completed one may change (spec
10_state.md R22, R38; 20_memory.md R59; 70_reset_and_hazards.md R261), and which errors come with a RESULT (60_exceptions.md R221). -/

namespace Sys2Proof.Machine

/-- What a completed command may change: its output buffer, its own context, and the entropy device if it draws. -/
def CompletesWithin (i : Instr) (s t : State) : Prop :=
  t = { s with aead := t.aead, hmac := t.hmac, hkdf := t.hkdf, mem := t.mem, entropy := t.entropy, drawn := t.drawn } ∧
  (t.mem = s.mem ∨ ∃ (o : Fin 4) (bs : Bytes), output i = some o ∧ t.mem = memWrite s.mem (s.ptr o) (bs.take (s.len o))) ∧
  (∀ d, aeadTarget i ≠ some d → t.aeadCtx d = s.aeadCtx d) ∧
  (∀ d, hmacTarget i ≠ some d → t.hmacCtx d = s.hmacCtx d) ∧
  (∀ d, hkdfTarget i ≠ some d → t.hkdfCtx d = s.hkdfCtx d) ∧
  (drawsEntropy i = false → t.entropy = s.entropy ∧ t.drawn = s.drawn)

variable {i : Instr} {s : State}

theorem completesWithin_self : CompletesWithin i s s :=
  ⟨rfl, .inl rfl, fun _ _ => rfl, fun _ _ => rfl, fun _ _ => rfl, fun _ => ⟨rfl, rfl⟩⟩

theorem completesWithin_writeBuf {o : Fin 4} (bs : Bytes) (h : output i = some o) :
    CompletesWithin i s (s.writeBuf o bs) :=
  ⟨rfl, .inr ⟨o, bs, h, rfl⟩, fun _ _ => rfl, fun _ _ => rfl, fun _ _ => rfl, fun _ => ⟨rfl, rfl⟩⟩

theorem completesWithin_draw (n : Nat) (h : drawsEntropy i = true) : CompletesWithin i s (s.afterDraw n) :=
  ⟨rfl, .inl rfl, fun _ _ => rfl, fun _ _ => rfl, fun _ _ => rfl, fun hd => by simp [h] at hd⟩

theorem completesWithin_drawWrite {o : Fin 4} (n : Nat) (bs : Bytes) (hd : drawsEntropy i = true) (h : output i = some o) :
    CompletesWithin i s ((s.afterDraw n).writeBuf o bs) :=
  ⟨rfl, .inr ⟨o, bs, h, rfl⟩, fun _ _ => rfl, fun _ _ => rfl, fun _ _ => rfl, fun hn => by simp [hd] at hn⟩

theorem completesWithin_setAead {c : BitVec 4} (x : AeadCtx) (h : aeadTarget i = some c) :
    CompletesWithin i s (s.setAead c x) :=
  ⟨rfl, .inl rfl, fun d hd => aeadCtx_set_ne s c d x (fun e => hd (e ▸ h)), fun _ _ => rfl, fun _ _ => rfl,
    fun _ => ⟨rfl, rfl⟩⟩

theorem completesWithin_setHmac {c : BitVec 4} (x : HmacCtx) (h : hmacTarget i = some c) :
    CompletesWithin i s (s.setHmac c x) :=
  ⟨rfl, .inl rfl, fun _ _ => rfl, fun d hd => hmacCtx_set_ne s c d x (fun e => hd (e ▸ h)), fun _ _ => rfl,
    fun _ => ⟨rfl, rfl⟩⟩

theorem completesWithin_setHkdf {c : BitVec 4} (x : HkdfCtx) (h : hkdfTarget i = some c) :
    CompletesWithin i s (s.setHkdf c x) :=
  ⟨rfl, .inl rfl, fun _ _ => rfl, fun _ _ => rfl, fun d hd => hkdfCtx_set_ne s c d x (fun e => hd (e ▸ h)),
    fun _ => ⟨rfl, rfl⟩⟩

theorem completesWithin_hmacWrite {c : BitVec 4} {o : Fin 4} (x : HmacCtx) (bs : Bytes) (h : hmacTarget i = some c)
    (ho : output i = some o) : CompletesWithin i s ((s.setHmac c x).writeBuf o bs) :=
  ⟨rfl, .inr ⟨o, bs, ho, rfl⟩, fun _ _ => rfl, fun d hd => hmacCtx_set_ne s c d x (fun e => hd (e ▸ h)), fun _ _ => rfl,
    fun _ => ⟨rfl, rfl⟩⟩

theorem completesWithin_hkdfWrite {c : BitVec 4} {o : Fin 4} (x : HkdfCtx) (bs : Bytes) (h : hkdfTarget i = some c)
    (ho : output i = some o) : CompletesWithin i s ((s.setHkdf c x).writeBuf o bs) :=
  ⟨rfl, .inr ⟨o, bs, ho, rfl⟩, fun _ _ => rfl, fun _ _ => rfl, fun d hd => hkdfCtx_set_ne s c d x (fun e => hd (e ▸ h)),
    fun _ => ⟨rfl, rfl⟩⟩

/-! The computations that several commands share. -/

/-- A random string that completes has the symbols of `pickSymbols` in D1 and has drawn what it examined (R105). -/
theorem randomString_done {res r : DWord} {t : State} (h : randomString res s = .done r t) :
    r = res ∧ ∃ out n, pickSymbols (s.buf 0) s.entropyByte (drawLimit s (s.len 1)) (s.len 1) 0 = some (out, n) ∧
      t = (s.afterDraw n).writeBuf 1 out := by
  unfold randomString at h
  split at h
  · cases h
  · split at h
    · cases h
    · split at h
      · rename_i out n hp
        cases h
        exact ⟨rfl, out, n, hp, rfl⟩
      · cases h

theorem randomString_raise {res r : DWord} {e : ErrorKind} (h : randomString res s = .raise e r) : r = 0 := by
  unfold randomString at h
  repeat' split at h
  all_goals cases h
  all_goals rfl

/-- A command over a hash completes, raises or faults only with HASHES holding the hash (R8). -/
theorem withEngine_some {h : Nat} {body : HashEngine → Verdict} {v : Verdict} (hv : withEngine s h body = v)
    (hs : ∀ f, v ≠ .stop f) : ∃ e, hashEngine? s.params h = some e ∧ body e = v := by
  unfold withEngine at hv
  split at hv
  · rename_i e he
    exact ⟨e, he, hv⟩
  · exact absurd hv.symm (hs _)

/-- A command over a hash of the configuration goes on with that hash (R8, R73). -/
theorem withEngine_eq {h : Nat} {e : HashEngine} (he : hashEngine? s.params h = some e) (body : HashEngine → Verdict) :
    withEngine s h body = body e := by
  simp only [withEngine, he]

/-- What a completed command may have changed. -/
theorem bodyOf_done {r : DWord} {t : State} (h : bodyOf i s = .done r t) : CompletesWithin i s t := by
  cases i with
  | randBytes =>
    simp only [bodyOf, Machine.randBytes] at h
    split at h <;> cases h
    exact completesWithin_drawWrite _ _ rfl rfl
  | randUint32 =>
    simp only [bodyOf, Machine.randUint32] at h
    split at h <;> cases h
    exact completesWithin_draw _ rfl
  | randString =>
    obtain ⟨-, out, n, -, rfl⟩ := randomString_done h
    exact completesWithin_drawWrite _ _ rfl rfl
  | randStringEntropy =>
    simp only [bodyOf, Machine.randStringEntropy] at h
    split at h
    · cases h
    · split at h
      · cases h
      · obtain ⟨-, out, n, -, rfl⟩ := randomString_done h
        exact completesWithin_drawWrite _ _ rfl rfl
  | chachaStream =>
    simp only [bodyOf, Machine.chachaStream] at h
    repeat' split at h
    all_goals cases h
    exact completesWithin_writeBuf _ rfl
  | chachaStreamXor =>
    simp only [bodyOf, Machine.chachaStreamXor] at h
    repeat' split at h
    all_goals cases h
    exact completesWithin_writeBuf _ rfl
  | poly1305Auth =>
    simp only [bodyOf, Machine.poly1305Auth] at h
    repeat' split at h
    all_goals cases h
    exact completesWithin_writeBuf _ rfl
  | aeadInit c =>
    simp only [bodyOf, Machine.aeadInit] at h
    split at h <;> cases h
    exact completesWithin_setAead _ rfl
  | aeadSeal c =>
    simp only [bodyOf, Machine.aeadSeal] at h
    repeat' split at h
    all_goals cases h
    exact completesWithin_writeBuf _ rfl
  | aeadOpen c =>
    simp only [bodyOf, Machine.aeadOpen] at h
    repeat' split at h
    all_goals cases h
    · exact completesWithin_self
    · exact completesWithin_self
    · exact completesWithin_writeBuf _ rfl
  | aeadClean c => cases h; exact completesWithin_setAead _ rfl
  | hmacInit c k =>
    obtain ⟨e, -, h⟩ := withEngine_some h (by simp)
    cases h
    exact completesWithin_setHmac _ rfl
  | hmacUpdate c =>
    simp only [bodyOf, Machine.hmacUpdate] at h
    split at h <;> cases h
    exact completesWithin_setHmac _ rfl
  | hmacFinish c =>
    obtain ⟨e, -, h⟩ := withEngine_some h (by simp)
    split at h <;> cases h
    exact completesWithin_hmacWrite _ _ rfl rfl
  | hmacReset c =>
    obtain ⟨e, -, h⟩ := withEngine_some h (by simp)
    split at h <;> cases h
    exact completesWithin_setHmac _ rfl
  | hmacSave c =>
    obtain ⟨e, -, h⟩ := withEngine_some h (by simp)
    repeat' split at h
    all_goals cases h
    exact completesWithin_setHmac _ rfl
  | hmacRestore c =>
    obtain ⟨e, -, h⟩ := withEngine_some h (by simp)
    repeat' split at h
    all_goals cases h
    exact completesWithin_setHmac _ rfl
  | hmacCleanSaved c =>
    obtain ⟨e, -, h⟩ := withEngine_some h (by simp)
    split at h <;> cases h
    exact completesWithin_setHmac _ rfl
  | hmacClean c => cases h; exact completesWithin_setHmac _ rfl
  | hkdfInit c k =>
    obtain ⟨e, -, h⟩ := withEngine_some h (by simp)
    split at h <;> cases h
    exact completesWithin_setHkdf _ rfl
  | hkdfExpand c =>
    obtain ⟨e, -, h⟩ := withEngine_some h (by simp)
    repeat' split at h
    all_goals cases h
    exact completesWithin_hkdfWrite _ _ rfl rfl
  | hkdfClean c => cases h; exact completesWithin_setHkdf _ rfl
  | ctSelect =>
    simp only [bodyOf, Machine.ctSelect] at h
    split at h <;> cases h
    exact completesWithin_self
  | ctLessOrEqual =>
    simp only [bodyOf, Machine.ctLessOrEqual] at h
    split at h <;> cases h
    exact completesWithin_self
  | ctCompare => cases h; exact completesWithin_self
  | ctEqual => cases h; exact completesWithin_self

/-- An error comes with RESULT = 0, but for the length mismatch of RAND_STRING_ENTROPY (R106, R221). -/
theorem bodyOf_raise {e : ErrorKind} {r : DWord} (h : bodyOf i s = .raise e r) :
    r = 0 ∨ (i = .randStringEntropy ∧ e = .destinationLengthMismatch) := by
  cases i with
  | randString => exact .inl (randomString_raise h)
  | randStringEntropy =>
    simp only [bodyOf, Machine.randStringEntropy] at h
    split at h
    · cases h; exact .inl rfl
    · split at h
      · cases h; exact .inr ⟨rfl, rfl⟩
      · exact .inl (randomString_raise h)
  | hmacInit c k => obtain ⟨_, -, h⟩ := withEngine_some h (by simp); cases h
  | hmacFinish c => obtain ⟨_, -, h⟩ := withEngine_some h (by simp); split at h <;> cases h; exact .inl rfl
  | hmacReset c => obtain ⟨_, -, h⟩ := withEngine_some h (by simp); split at h <;> cases h; exact .inl rfl
  | hmacSave c =>
    obtain ⟨_, -, h⟩ := withEngine_some h (by simp)
    repeat' split at h
    all_goals cases h
    exact .inl rfl
  | hmacRestore c =>
    obtain ⟨_, -, h⟩ := withEngine_some h (by simp)
    repeat' split at h
    all_goals cases h
    exact .inl rfl
  | hmacCleanSaved c => obtain ⟨_, -, h⟩ := withEngine_some h (by simp); split at h <;> cases h; exact .inl rfl
  | hkdfInit c k => obtain ⟨_, -, h⟩ := withEngine_some h (by simp); split at h <;> cases h; exact .inl rfl
  | hkdfExpand c =>
    obtain ⟨_, -, h⟩ := withEngine_some h (by simp)
    repeat' split at h
    all_goals cases h
    all_goals exact .inl rfl
  | _ =>
    simp only [bodyOf, Machine.randBytes, Machine.randUint32, Machine.chachaStream, Machine.chachaStreamXor, Machine.poly1305Auth,
      Machine.aeadInit, Machine.aeadSeal, Machine.aeadOpen, Machine.hmacUpdate, Machine.ctSelect, Machine.ctLessOrEqual] at h
    repeat' split at h
    all_goals cases h
    all_goals exact .inl rfl

end Sys2Proof.Machine
end

