-- ==== Sys2Proof/Laws/PerInstr.lean ====
section
/-! SUPPORT. Statements made per command. Family `Fields`: the word of a command has RES = 0, the command's own OP, CTX and HASH, and
the opcode map reads the command back from its OP (spec 30_encoding.md R70, R74, R75). -/

namespace Sys2Proof.Laws.Fields

/-- The fields of a command's word, and the opcode map on them (R70, R74, R75). -/
def Statement (i : Instr) : Prop :=
  wordRes (encode i) = 0 ∧ wordOp (encode i) = opcode i ∧ wordCtx (encode i) = ctxField i ∧
    wordHash (encode i) = hashField i ∧ instrOfOpcode (opcode i) (ctxField i) (hashField i) = some i

theorem randBytes : Statement .randBytes := by unfold Statement; decide
theorem randUint32 : Statement .randUint32 := by unfold Statement; decide
theorem randString : Statement .randString := by unfold Statement; decide
theorem randStringEntropy : Statement .randStringEntropy := by unfold Statement; decide
theorem chachaStream : Statement .chachaStream := by unfold Statement; decide
theorem chachaStreamXor : Statement .chachaStreamXor := by unfold Statement; decide
theorem poly1305Auth : Statement .poly1305Auth := by unfold Statement; decide
theorem aeadInit (c : BitVec 4) : Statement (.aeadInit c) := by revert c; unfold Statement; decide
theorem aeadSeal (c : BitVec 4) : Statement (.aeadSeal c) := by revert c; unfold Statement; decide
theorem aeadOpen (c : BitVec 4) : Statement (.aeadOpen c) := by revert c; unfold Statement; decide
theorem aeadClean (c : BitVec 4) : Statement (.aeadClean c) := by revert c; unfold Statement; decide
theorem hmacInit (c h : BitVec 4) : Statement (.hmacInit c h) := by revert c h; unfold Statement; decide
theorem hmacUpdate (c : BitVec 4) : Statement (.hmacUpdate c) := by revert c; unfold Statement; decide
theorem hmacFinish (c : BitVec 4) : Statement (.hmacFinish c) := by revert c; unfold Statement; decide
theorem hmacReset (c : BitVec 4) : Statement (.hmacReset c) := by revert c; unfold Statement; decide
theorem hmacSave (c : BitVec 4) : Statement (.hmacSave c) := by revert c; unfold Statement; decide
theorem hmacRestore (c : BitVec 4) : Statement (.hmacRestore c) := by revert c; unfold Statement; decide
theorem hmacCleanSaved (c : BitVec 4) : Statement (.hmacCleanSaved c) := by revert c; unfold Statement; decide
theorem hmacClean (c : BitVec 4) : Statement (.hmacClean c) := by revert c; unfold Statement; decide
theorem hkdfInit (c h : BitVec 4) : Statement (.hkdfInit c h) := by revert c h; unfold Statement; decide
theorem hkdfExpand (c : BitVec 4) : Statement (.hkdfExpand c) := by revert c; unfold Statement; decide
theorem hkdfClean (c : BitVec 4) : Statement (.hkdfClean c) := by revert c; unfold Statement; decide
theorem ctSelect : Statement .ctSelect := by unfold Statement; decide
theorem ctLessOrEqual : Statement .ctLessOrEqual := by unfold Statement; decide
theorem ctCompare : Statement .ctCompare := by unfold Statement; decide
theorem ctEqual : Statement .ctEqual := by unfold Statement; decide

/-- Every command's word has its fields in place. -/
theorem all (i : Instr) : Statement i := by
  cases i with
  | randBytes => exact randBytes
  | randUint32 => exact randUint32
  | randString => exact randString
  | randStringEntropy => exact randStringEntropy
  | chachaStream => exact chachaStream
  | chachaStreamXor => exact chachaStreamXor
  | poly1305Auth => exact poly1305Auth
  | aeadInit c => exact aeadInit c
  | aeadSeal c => exact aeadSeal c
  | aeadOpen c => exact aeadOpen c
  | aeadClean c => exact aeadClean c
  | hmacInit c h => exact hmacInit c h
  | hmacUpdate c => exact hmacUpdate c
  | hmacFinish c => exact hmacFinish c
  | hmacReset c => exact hmacReset c
  | hmacSave c => exact hmacSave c
  | hmacRestore c => exact hmacRestore c
  | hmacCleanSaved c => exact hmacCleanSaved c
  | hmacClean c => exact hmacClean c
  | hkdfInit c h => exact hkdfInit c h
  | hkdfExpand c => exact hkdfExpand c
  | hkdfClean c => exact hkdfClean c
  | ctSelect => exact ctSelect
  | ctLessOrEqual => exact ctLessOrEqual
  | ctCompare => exact ctCompare
  | ctEqual => exact ctEqual

end Sys2Proof.Laws.Fields
end

