-- ==== Sys2Proof/Laws/Encoding.lean ====
section
/-! SUPPORT. A command word is its four fields, and the opcode map keeps the fields it uses (spec 30_encoding.md R70, R72, R73, R75). -/

namespace Sys2Proof

/-- A word is RES, HASH, CTX and OP side by side (R70). -/
theorem word_of_fields (w : Word) : wordRes w ++ wordHash w ++ wordCtx w ++ wordOp w = w := by
  unfold wordRes wordHash wordCtx wordOp
  rw [BitVec.extractLsb'_append_extractLsb'_eq_extractLsb' (by rfl), BitVec.extractLsb'_append_extractLsb'_eq_extractLsb' (by rfl),
    BitVec.extractLsb'_append_extractLsb'_eq_extractLsb' (by rfl)]
  simp

/-- The opcode map gives a command of the opcode, with the CTX and HASH fields the opcode uses and 0 in those it does not. -/
theorem instrOfOpcode_fields {op : BitVec 8} {c h : BitVec 4} {i : Instr} (hi : instrOfOpcode op c h = some i) :
    opcode i = op ∧ ctxField i = (if opUsesCtx op then c else 0) ∧ hashField i = (if opUsesHash op then h else 0) := by
  unfold instrOfOpcode at hi
  split at hi <;> simp only [Option.some.injEq, reduceCtorEq] at hi <;> subst hi <;>
    simp [opcode, ctxField, hashField, opUsesCtx, opUsesHash]

/-- A word decodes only with RES = 0, an opcode of the map, and fields of the configuration (R79). -/
theorem decode_ok {p : Params} {w : Word} {i : Instr} (h : decode p w = .ok i) :
    wordRes w = 0 ∧ instrOfOpcode (wordOp w) (wordCtx w) (wordHash w) = some i ∧ ctxFieldOk p w = true ∧
      hashFieldOk p w = true := by
  unfold decode at h
  split at h
  · cases h
  · rename_i hres
    split at h
    · cases h
    · rename_i j hj
      split at h
      · cases h
      · split at h
        · cases h
        · cases h
          simp_all

end Sys2Proof
end

