-- ==== Sys2Proof/Laws/Hkdf.lean ====
section
/-! SUPPORT. The output loop of HKDF_EXPAND, said once: from a context whose block buffer is a block of the stream it hands out the next
bytes of the stream, and leaves such a context (spec 46_hkdf.md R193, R194). -/

namespace Sys2Proof.Machine

variable {e : HashEngine}

/-- Byte `i` of equally long blocks side by side. -/
theorem getElem?_flatMap_blocks (f : Nat → Bytes) (len : Nat) (hf : ∀ j, (f j).length = len) (n i : Nat) (h : i < n * len) :
    ((List.range n).flatMap f)[i]? = (f (i / len))[i % len]? := by
  induction n with
  | zero => simp at h
  | succ n ih =>
    have hl : ((List.range n).flatMap f).length = n * len := by simp [List.length_flatMap, hf]
    rw [List.range_succ, List.flatMap_append, List.flatMap_singleton]
    by_cases hi : i < n * len
    · rw [List.getElem?_append_left (by omega), ih hi]
    · have hq : i / len = n := Nat.div_eq_of_lt_le (by omega) h
      have hr : i % len = i - n * len := by
        have hd := Nat.div_add_mod i len
        rw [hq, Nat.mul_comm] at hd
        omega
      rw [List.getElem?_append_right (by omega), hl, hq, hr]

theorem hkdfT_length (he : e.wf = true) (prk info : Bytes) (i : Nat) : (hkdfT e prk info (i + 1)).length = e.digestLen :=
  hmac_length e _ _ he

/-- The stream holds 255 blocks (R193). -/
theorem hkdfStream_length (he : e.wf = true) (prk info : Bytes) : (hkdfStream e prk info).length = 255 * e.digestLen := by
  simp only [hkdfStream, List.length_flatMap, hkdfT_length he, List.map_const', List.sum_replicate, List.length_range,
    smul_eq_mul]

/-- What R33 and R193 say of the block buffer of a built context: it is block `ctr`, or nothing was made yet. -/
structure BlockOk (e : HashEngine) (y : HkdfCtx) : Prop where
  pos_le : y.pos ≤ e.digestLen
  ctr_le : y.ctr ≤ 255
  fresh : y.ctr = 0 → y.t = zeros e.digestLen ∧ y.pos = e.digestLen
  block : 0 < y.ctr → y.t = hkdfT e y.prk y.info y.ctr

/-- A new block is the next of the stream (R193). -/
theorem blockOk_nextBlock {y : HkdfCtx} (h : BlockOk e y) (hc : y.ctr < 255) : BlockOk e (nextBlock e y) := by
  refine ⟨Nat.zero_le _, hc, fun h0 => absurd h0 (Nat.succ_ne_zero _), fun _ => ?_⟩
  have hp : (if y.ctr + 1 = 1 then [] else y.t) = hkdfT e y.prk y.info y.ctr := by
    split
    · rw [show y.ctr = 0 by omega]; rfl
    · exact h.block (by omega)
  simp only [nextBlock, hp, hkdfT]

/-- The loop hands out the next `n` bytes of the stream (R194). -/
theorem expandBytes_spec (he : e.wf = true) (n : Nat) (y : HkdfCtx) (h : BlockOk e y) (hn : n ≤ hkdfAvail e y) :
    (expandBytes e n y).1 = ((hkdfStream e y.prk y.info).drop (hkdfHanded e y)).take n ∧
      (expandBytes e n y).2 = { y with
        t := (expandBytes e n y).2.t, pos := (expandBytes e n y).2.pos, ctr := (expandBytes e n y).2.ctr } ∧
      hkdfHanded e (expandBytes e n y).2 = hkdfHanded e y + n ∧ BlockOk e (expandBytes e n y).2 := by
  have hL : 1 ≤ e.digestLen := by
    simp only [HashEngine.wf, Bool.and_eq_true, decide_eq_true_eq] at he
    exact he.1.1
  induction n generalizing y with
  | zero => exact ⟨by simp [expandBytes], rfl, rfl, h⟩
  | succ n ih =>
    obtain ⟨z, hz, hzy, hzh, hzp, hza, hzc⟩ : ∃ z, (if y.pos = e.digestLen then nextBlock e y else y) = z ∧
        z = { y with t := z.t, pos := z.pos, ctr := z.ctr } ∧ hkdfHanded e z = hkdfHanded e y ∧ BlockOk e z ∧
        hkdfAvail e z = hkdfAvail e y ∧ z.pos < e.digestLen ∧ 0 < z.ctr := by
      split
      · rename_i hp
        have hc : y.ctr < 255 := by
          by_contra hc
          have hle := h.ctr_le
          rw [hkdfAvail, hp, show y.ctr = 255 by omega] at hn
          omega
        refine ⟨_, rfl, rfl, ?_, blockOk_nextBlock h hc, ?_, hL, Nat.succ_pos _⟩
        · simp only [hkdfHanded, nextBlock, hp, Nat.add_mul]; omega
        · have h255 : 255 - y.ctr = (255 - (y.ctr + 1)) + 1 := by omega
          simp only [hkdfAvail, nextBlock, hp, h255, Nat.add_mul]; omega
      · rename_i hp
        have hle := h.pos_le
        refine ⟨y, rfl, rfl, rfl, h, rfl, by omega, ?_⟩
        by_contra h0
        exact hp (h.fresh (by omega)).2
    obtain ⟨hzc, hz0⟩ := hzc
    have hprk : z.prk = y.prk := by rw [hzy]
    have hinfo : z.info = y.info := by rw [hzy]
    have hvalid : z.valid = y.valid := by rw [hzy]
    have hhash : z.hash = y.hash := by rw [hzy]
    have hw : BlockOk e { z with pos := z.pos + 1 } := ⟨hzc, hzp.ctr_le, fun h0 => by simp at h0; omega, hzp.block⟩
    have hav : n ≤ hkdfAvail e { z with pos := z.pos + 1 } := by simp only [hkdfAvail] at hza hn ⊢; omega
    obtain ⟨g1, g2, g3, g4⟩ := ih _ hw hav
    have hmul : z.ctr * e.digestLen = (z.ctr - 1) * e.digestLen + e.digestLen := by
      conv_lhs => rw [show z.ctr = (z.ctr - 1) + 1 by omega, Nat.add_mul, Nat.one_mul]
    have hhw : hkdfHanded e { z with pos := z.pos + 1 } = hkdfHanded e y + 1 := by
      rw [← hzh]; simp only [hkdfHanded]; omega
    have hpos : hkdfHanded e y = (z.ctr - 1) * e.digestLen + z.pos := by rw [← hzh]; simp only [hkdfHanded]; omega
    have hlt : hkdfHanded e y < 255 * e.digestLen := by
      have hle := Nat.mul_le_mul_right e.digestLen (show z.ctr - 1 ≤ 254 by have := hzp.ctr_le; omega)
      omega
    have hbyte : (hkdfStream e y.prk y.info)[hkdfHanded e y]? = some (z.t.getD z.pos 0) := by
      have hdiv : hkdfHanded e y / e.digestLen = z.ctr - 1 := by
        rw [hpos]; exact Nat.div_eq_of_lt_le (by omega) (by rw [Nat.add_mul]; omega)
      have hmod : hkdfHanded e y % e.digestLen = z.pos := by
        have hd := Nat.div_add_mod (hkdfHanded e y) e.digestLen
        rw [hdiv, Nat.mul_comm] at hd
        omega
      have ht := hzp.block hz0
      have hlen : z.pos < z.t.length := by
        rw [ht, show z.ctr = (z.ctr - 1) + 1 by omega, hkdfT_length he]; exact hzc
      rw [hkdfStream, getElem?_flatMap_blocks _ e.digestLen (hkdfT_length he _ _) 255 _ hlt, hdiv, hmod,
        show z.ctr - 1 + 1 = z.ctr by omega, ← hprk, ← hinfo, ← ht, List.getElem?_eq_getElem hlen, List.getD_eq_getElem _ _ hlen]
    have hslen : hkdfHanded e y < (hkdfStream e y.prk y.info).length := by rw [hkdfStream_length he]; exact hlt
    have hex : expandBytes e (n + 1) y =
        (z.t.getD z.pos 0 :: (expandBytes e n { z with pos := z.pos + 1 }).1, (expandBytes e n { z with pos := z.pos + 1 }).2) := by
      simp only [expandBytes, hz]
    rw [hex]
    refine ⟨?_, ?_, by rw [g3, hhw]; omega, g4⟩
    · rw [g1, hhw, List.drop_eq_getElem_cons hslen, List.take_succ_cons]
      rw [List.getElem?_eq_getElem hslen, Option.some.injEq] at hbyte
      rw [hbyte, hprk, hinfo]
    · conv_lhs => rw [g2]
      simp only [hprk, hinfo, hvalid, hhash]

end Sys2Proof.Machine
end

