-- ==== Sys2Proof/Laws/Invariants.lean ====
section
/-! SUPPORT. The context invariants, slot by slot: a blank slot is one of each kind (R31 to R33), and writing one good slot keeps a
context file good. -/

namespace Sys2Proof.Machine

variable {s : State} {c : BitVec 4} {p : Params}

theorem aeadSlotOk_blank : AeadSlotOk p c AeadCtx.blank := ⟨fun h => Bool.noConfusion h, fun _ => rfl⟩

theorem hmacSlotOk_blank : HmacSlotOk p c HmacCtx.blank := ⟨fun h => Bool.noConfusion h, fun _ => rfl⟩

theorem hkdfSlotOk_blank : HkdfSlotOk p c HkdfCtx.blank := ⟨fun h => Bool.noConfusion h, fun _ => rfl⟩

theorem aeadOk_setAead {x : AeadCtx} (h : s.AeadOk) (hx : AeadSlotOk s.params c x) : (s.setAead c x).AeadOk := fun d => by
  by_cases e : c = d
  · subst e; simpa using hx
  · simpa [aeadCtx_set_ne _ _ _ _ e] using h d

theorem hmacOk_setHmac {x : HmacCtx} (h : s.HmacOk) (hx : HmacSlotOk s.params c x) : (s.setHmac c x).HmacOk := fun d => by
  by_cases e : c = d
  · subst e; simpa using hx
  · simpa [hmacCtx_set_ne _ _ _ _ e] using h d

theorem hkdfOk_setHkdf {x : HkdfCtx} (h : s.HkdfOk) (hx : HkdfSlotOk s.params c x) : (s.setHkdf c x).HkdfOk := fun d => by
  by_cases e : c = d
  · subst e; simpa using hx
  · simpa [hkdfCtx_set_ne _ _ _ _ e] using h d

/-! A context file's invariant does not look at the other files. -/

@[simp] theorem setHmac_aeadOk (x : HmacCtx) : (s.setHmac c x).AeadOk ↔ s.AeadOk := Iff.rfl
@[simp] theorem setHkdf_aeadOk (x : HkdfCtx) : (s.setHkdf c x).AeadOk ↔ s.AeadOk := Iff.rfl
@[simp] theorem setAead_hmacOk (x : AeadCtx) : (s.setAead c x).HmacOk ↔ s.HmacOk := Iff.rfl
@[simp] theorem setHkdf_hmacOk (x : HkdfCtx) : (s.setHkdf c x).HmacOk ↔ s.HmacOk := Iff.rfl
@[simp] theorem setAead_hkdfOk (x : AeadCtx) : (s.setAead c x).HkdfOk ↔ s.HkdfOk := Iff.rfl
@[simp] theorem setHmac_hkdfOk (x : HmacCtx) : (s.setHmac c x).HkdfOk ↔ s.HkdfOk := Iff.rfl

end Sys2Proof.Machine
end

