-- ==== Sys2Proof/Laws/Memory.lean ====
section
/-! SUPPORT. The laws of host memory: what a read after a write gives, and that every operation keeps the canonical form (spec
20_memory.md R58). -/

namespace Sys2Proof.Machine

theorem get_filter_ne (m : Memory) (a x : Nat) (h : x ≠ a) : Memory.get (m.filter (fun c => c.1 ≠ a)) x = Memory.get m x := by
  induction m with
  | nil => rfl
  | cons c m ih =>
    obtain ⟨y, v⟩ := c
    by_cases hy : y = a
    · have : y ≠ x := fun e => h (e ▸ hy)
      simp_all [Memory.get]
    · by_cases hx : y = x <;> simp_all [Memory.get]

theorem get_filter_self (m : Memory) (a : Nat) : Memory.get (m.filter (fun c => c.1 ≠ a)) a = Memory.unlisted := by
  induction m with
  | nil => rfl
  | cons c m ih =>
    obtain ⟨y, v⟩ := c
    by_cases hy : y = a <;> simp_all [Memory.get]

theorem get_insert_ne (m : Memory) (a x : Nat) (b : Byte) (h : x ≠ a) : Memory.get (Memory.insert a b m) x = Memory.get m x := by
  induction m with
  | nil => simp [Memory.insert, Memory.get, Ne.symm h]
  | cons c m ih =>
    obtain ⟨y, v⟩ := c
    by_cases hy : a < y
    · simp [Memory.insert, hy, Memory.get, Ne.symm h]
    · simp [Memory.insert, hy, Memory.get, ih]

theorem get_insert_self (m : Memory) (a : Nat) (b : Byte) (h : ∀ c ∈ m, c.1 ≠ a) : Memory.get (Memory.insert a b m) a = b := by
  induction m with
  | nil => simp [Memory.insert, Memory.get]
  | cons c m ih =>
    obtain ⟨y, v⟩ := c
    have hya : y ≠ a := h (y, v) (by simp)
    by_cases hy : a < y
    · simp [Memory.insert, hy, Memory.get]
    · simp only [Memory.insert, hy, if_false, Memory.get, hya]
      exact ih (fun c hc => h c (by simp [hc]))

/-- A read after a write to the same address gives the byte written. -/
@[simp] theorem get_set_self (m : Memory) (a : Nat) (b : Byte) : Memory.get (m.set a b) a = b := by
  unfold Memory.set Memory.erase
  split
  · rename_i hb; rw [get_filter_self, hb]
  · exact get_insert_self _ _ _ (fun c hc => by simpa using (List.mem_filter.mp hc).2)

/-- A write leaves every other address alone. -/
theorem get_set_ne (m : Memory) (a x : Nat) (b : Byte) (h : x ≠ a) : Memory.get (m.set a b) x = Memory.get m x := by
  unfold Memory.set Memory.erase
  split
  · exact get_filter_ne m a x h
  · rw [get_insert_ne _ _ _ _ h, get_filter_ne m a x h]

/-- A buffer write leaves every address outside it alone. -/
theorem get_memWrite_outside (m : Memory) (p : Nat) (bs : Bytes) (x : Nat) (h : x < p ∨ p + bs.length ≤ x) :
    Memory.get (memWrite m p bs) x = Memory.get m x := by
  induction bs generalizing m p with
  | nil => rfl
  | cons b bs ih =>
    simp only [List.length_cons] at h
    rw [memWrite, ih _ _ (by omega), get_set_ne _ _ _ _ (by omega)]

/-- A buffer write puts byte `i` at address `p + i`. -/
theorem get_memWrite_inside (m : Memory) (p : Nat) (bs : Bytes) (i : Nat) (h : i < bs.length) :
    Memory.get (memWrite m p bs) (p + i) = bs[i] := by
  induction bs generalizing m p i with
  | nil => simp at h
  | cons b bs ih =>
    cases i with
    | zero => rw [memWrite, get_memWrite_outside _ _ _ _ (by omega)]; simp
    | succ i =>
      have := ih (m.set p b) (p + 1) i (by simpa using h)
      rw [memWrite, show p + (i + 1) = p + 1 + i by omega, this]
      simp

@[simp] theorem memRead_length (m : Memory) (p n : Nat) : (memRead m p n).length = n := by
  induction n generalizing p with
  | zero => rfl
  | succ n ih => simp [memRead, ih]

@[simp] theorem buf_length (s : State) (k : Fin 4) : (s.buf k).length = s.len k := memRead_length _ _ _

theorem memRead_getElem (m : Memory) (p n i : Nat) (h : i < (memRead m p n).length) :
    (memRead m p n)[i] = Memory.get m (p + i) := by
  induction n generalizing p i with
  | zero => simp [memRead] at h
  | succ n ih =>
    cases i with
    | zero => simp [memRead]
    | succ i =>
      simp only [memRead, List.getElem_cons_succ]
      rw [ih (p + 1) i (by simpa [memRead] using h), show p + 1 + i = p + (i + 1) by omega]

/-- A buffer read after the write of that buffer gives the bytes written. -/
theorem memRead_memWrite (m : Memory) (p : Nat) (bs : Bytes) : memRead (memWrite m p bs) p bs.length = bs := by
  apply List.ext_getElem
  · simp
  · intro i h1 h2
    rw [memRead_getElem, get_memWrite_inside _ _ _ _ h2]

/-- A buffer read depends on the bytes of the buffer alone. -/
theorem memRead_congr (m m' : Memory) (p n : Nat) (h : ∀ a, p ≤ a → a < p + n → Memory.get m a = Memory.get m' a) :
    memRead m p n = memRead m' p n := by
  induction n generalizing p with
  | zero => rfl
  | succ n ih =>
    rw [memRead, memRead, h p (by omega) (by omega), ih (p + 1) (fun a h1 h2 => h a (by omega) (by omega))]

/-! The canonical form. -/

/-- The canonical form, said as a chain and a bound on every entry. -/
theorem wf_iff (m : Memory) :
    Memory.wf m = true ↔ m.Pairwise (fun c d => c.1 < d.1) ∧ ∀ c ∈ m, c.2 ≠ Memory.unlisted := by
  have hchain : Memory.wf m = true ↔ m.IsChain (fun c d => c.1 < d.1) ∧ ∀ c ∈ m, c.2 ≠ Memory.unlisted := by
    induction m with
    | nil => simp [Memory.wf]
    | cons c m ih =>
      obtain ⟨x, v⟩ := c
      cases m with
      | nil => simp [Memory.wf]
      | cons d m =>
        obtain ⟨y, w⟩ := d
        simp only [Memory.wf, Bool.and_eq_true, bne_iff_ne, decide_eq_true_eq, ih, List.isChain_cons_cons, List.mem_cons,
          forall_eq_or_imp]
        tauto
  have : IsTrans Host.Cell (fun c d => c.1 < d.1) := ⟨fun _ _ _ h1 h2 => Nat.lt_trans h1 h2⟩
  rw [hchain, List.isChain_iff_pairwise]

theorem mem_insert (a : Nat) (b : Byte) (m : Memory) (c : Host.Cell) : c ∈ Memory.insert a b m ↔ c = (a, b) ∨ c ∈ m := by
  induction m with
  | nil => simp [Memory.insert]
  | cons d m ih =>
    obtain ⟨y, v⟩ := d
    by_cases hy : a < y
    · simp [Memory.insert, hy]
    · simp [Memory.insert, hy, ih]; tauto

theorem pairwise_insert (a : Nat) (b : Byte) (m : Memory) (h : m.Pairwise (fun c d => c.1 < d.1)) (hm : ∀ c ∈ m, c.1 ≠ a) :
    (Memory.insert a b m).Pairwise (fun c d => c.1 < d.1) := by
  induction m with
  | nil => simp [Memory.insert]
  | cons d m ih =>
    obtain ⟨y, v⟩ := d
    rw [List.pairwise_cons] at h
    by_cases hy : a < y
    · rw [Memory.insert, if_pos hy]
      refine List.pairwise_cons.mpr ⟨fun c hc => ?_, List.pairwise_cons.mpr h⟩
      rcases List.mem_cons.mp hc with rfl | hc
      · exact hy
      · exact Nat.lt_trans hy (h.1 c hc)
    · have hya : y ≠ a := hm (y, v) (by simp)
      simp only [Memory.insert, hy, if_false, List.pairwise_cons]
      refine ⟨fun c hc => ?_, ih h.2 (fun c hc => hm c (by simp [hc]))⟩
      rcases (mem_insert a b m c).mp hc with rfl | hc
      · exact lt_of_le_of_ne (by omega) hya
      · exact h.1 c hc

/-- A byte write keeps the canonical form. -/
theorem wf_set (m : Memory) (a : Nat) (b : Byte) (h : Memory.wf m = true) : Memory.wf (m.set a b) = true := by
  rw [wf_iff] at h ⊢
  have hf : (m.filter (fun c => c.1 ≠ a)).Pairwise (fun c d => c.1 < d.1) := h.1.filter _
  unfold Memory.set Memory.erase
  split
  · exact ⟨hf, fun c hc => h.2 c (List.mem_filter.mp hc).1⟩
  · rename_i hb
    refine ⟨pairwise_insert a b _ hf (fun c hc => by simpa using (List.mem_filter.mp hc).2), fun c hc => ?_⟩
    rcases (mem_insert a b _ c).mp hc with rfl | hc
    · exact hb
    · exact h.2 c (List.mem_filter.mp hc).1

/-- A buffer write keeps the canonical form. -/
theorem wf_memWrite (m : Memory) (p : Nat) (bs : Bytes) (h : Memory.wf m = true) : Memory.wf (memWrite m p bs) = true := by
  induction bs generalizing m p with
  | nil => exact h
  | cons b bs ih => exact ih _ _ (wf_set m p b h)

/-- A byte write lists no address but its own and those listed before. -/
theorem mem_set {m : Memory} {a : Nat} {b : Byte} {c : Host.Cell} (h : c ∈ m.set a b) : c.1 = a ∨ c ∈ m := by
  unfold Memory.set Memory.erase at h
  split at h
  · exact .inr (List.mem_filter.mp h).1
  · rcases (mem_insert a b _ c).mp h with rfl | hc
    · exact .inl rfl
    · exact .inr (List.mem_filter.mp hc).1

/-- A buffer write lists no address outside the buffer but those listed before. -/
theorem mem_memWrite {m : Memory} {p : Nat} {bs : Bytes} {c : Host.Cell} (h : c ∈ memWrite m p bs) :
    (p ≤ c.1 ∧ c.1 < p + bs.length) ∨ c ∈ m := by
  induction bs generalizing m p with
  | nil => exact .inr h
  | cons b bs ih =>
    simp only [List.length_cons]
    rcases ih h with hb | hc
    · exact .inl (by omega)
    · rcases mem_set hc with rfl | hc
      · exact .inl (by omega)
      · exact .inr hc

/-- The memory at reset has the canonical form. -/
theorem wf_reset : Memory.wf State.reset.mem = true := rfl

end Sys2Proof.Machine
end

