-- ==== Sys2Proof/Laws/Random.lean ====
section
/-! SUPPORT. The rejection loop of RAND_STRING, said once: it takes the accepted draws in order and stops at the first place where
there are enough of them, or finds none within its bound (spec 41_random.md R104, R105, R108). -/

namespace Sys2Proof.Machine

/-- One more draw is accepted or discarded. -/
theorem acceptedDraws_succ (c : Nat) (d : Nat → Byte) (k : Nat) :
    acceptedDraws c ((List.range (k + 1)).map d) =
      acceptedDraws c ((List.range k).map d) ++ (if (d k).toNat < maxByte c then [d k] else []) := by
  simp only [acceptedDraws, List.range_succ, List.map_append, List.map_cons, List.map_nil, List.filter_append,
    List.filter_cons, List.filter_nil, decide_eq_true_eq]

/-- The loop from draw `k` on: it ends at the first `m` at which `need` more bytes were accepted, with their symbols, or there is no
such `m` within its bound. -/
theorem pickSymbols_spec (cs : Bytes) (d : Nat → Byte) (fuel need k : Nat) :
    (∃ x m, pickSymbols cs d fuel need k = some (symbolsOf cs x, m) ∧ k ≤ m ∧ m ≤ k + fuel ∧ x.length = need ∧
      acceptedDraws cs.length ((List.range m).map d) = acceptedDraws cs.length ((List.range k).map d) ++ x ∧
      ∀ j, k ≤ j → j < m → (acceptedDraws cs.length ((List.range j).map d)).length <
        (acceptedDraws cs.length ((List.range k).map d)).length + need) ∨
    (pickSymbols cs d fuel need k = none ∧
      ∀ m, k ≤ m → m ≤ k + fuel → (acceptedDraws cs.length ((List.range m).map d)).length <
        (acceptedDraws cs.length ((List.range k).map d)).length + need) := by
  induction fuel generalizing need k with
  | zero =>
    cases need with
    | zero => exact .inl ⟨[], k, by simp [pickSymbols, symbolsOf], by omega, by omega, rfl, by simp, by omega⟩
    | succ need =>
      refine .inr ⟨rfl, fun m h1 h2 => ?_⟩
      rw [show m = k by omega]
      omega
  | succ fuel ih =>
    cases need with
    | zero => exact .inl ⟨[], k, by simp [pickSymbols, symbolsOf], by omega, by omega, rfl, by simp, by omega⟩
    | succ need =>
      have hs := acceptedDraws_succ cs.length d k
      by_cases hb : (d k).toNat < maxByte cs.length
      · rw [if_pos hb] at hs
        have hl := congrArg List.length hs
        simp only [List.length_append, List.length_singleton] at hl
        rcases ih need (k + 1) with ⟨x, m, hp, h1, h2, h3, h4, h5⟩ | ⟨hp, h5⟩
        · refine .inl ⟨d k :: x, m, ?_, by omega, by omega, by simp [h3], by rw [h4, hs]; simp, fun j hj1 hj2 => ?_⟩
          · simp [pickSymbols, hb, hp, symbolsOf]
          · rcases Nat.eq_or_lt_of_le hj1 with rfl | hj
            · omega
            · have := h5 j hj hj2; omega
        · refine .inr ⟨by simp [pickSymbols, hb, hp], fun m hm1 hm2 => ?_⟩
          rcases Nat.eq_or_lt_of_le hm1 with rfl | hm
          · omega
          · have := h5 m hm (by omega); omega
      · rw [if_neg hb, List.append_nil] at hs
        rcases ih (need + 1) (k + 1) with ⟨x, m, hp, h1, h2, h3, h4, h5⟩ | ⟨hp, h5⟩
        · refine .inl ⟨x, m, by simp [pickSymbols, hb, hp], by omega, by omega, h3, by rw [h4, hs], fun j hj1 hj2 => ?_⟩
          rcases Nat.eq_or_lt_of_le hj1 with rfl | hj
          · omega
          · rw [← hs]; exact h5 j hj hj2
        · refine .inr ⟨by simp [pickSymbols, hb, hp], fun m hm1 hm2 => ?_⟩
          rcases Nat.eq_or_lt_of_le hm1 with rfl | hm
          · omega
          · rw [← hs]; exact h5 m hm (by omega)

/-- A random string over a charset of 2 to 256 symbols, with entropy: completed at the first `m` at which `N1` bytes were accepted,
or hung with no such `m` within the bound (R105, R108). -/
theorem randomString_spec (r : DWord) (s : State) (h1 : 2 ≤ s.len 0) (h2 : s.len 0 ≤ 256)
    (he : s.params.entropyAvailable = true) :
    (∃ m, randomString r s = .done r ((s.afterDraw m).writeBuf 1 (symbolsOf (s.buf 0) (acceptedDraws (s.len 0) (s.draw m)))) ∧
      m ≤ drawLimit s (s.len 1) ∧ (acceptedDraws (s.len 0) (s.draw m)).length = s.len 1 ∧
      ∀ j, j < m → (acceptedDraws (s.len 0) (s.draw j)).length < s.len 1) ∨
    (randomString r s = .stop .entropyHang ∧
      ∀ m, m ≤ drawLimit s (s.len 1) → (acceptedDraws (s.len 0) (s.draw m)).length < s.len 1) := by
  have hn : ¬(s.len 0 < 2 ∨ 256 < s.len 0) := by omega
  have hlen : (s.buf 0).length = s.len 0 := by simp only [State.buf, memRead_length]
  have h0 : acceptedDraws (s.len 0) ((List.range 0).map s.entropyByte) = [] := rfl
  have spec := pickSymbols_spec (s.buf 0) s.entropyByte (drawLimit s (s.len 1)) (s.len 1) 0
  rw [hlen, h0] at spec
  simp only [List.nil_append, List.length_nil, Nat.zero_add, Nat.zero_le, true_implies] at spec
  rcases spec with ⟨x, m, hp, -, hm, hx, ha, hj⟩ | ⟨hp, hm⟩
  · refine .inl ⟨m, ?_, hm, ?_, hj⟩
    · simp only [randomString, hn, he, hp, State.draw, ha]; rfl
    · rw [State.draw, ha, hx]
  · exact .inr ⟨by simp only [randomString, hn, he, hp]; rfl, hm⟩

/-- The bound is never below what the listed bytes and the length asked for allow (log 7). -/
theorem drawLimit_ge (s : State) (n : Nat) : n + s.entropy.length ≤ drawLimit s n := Nat.le_add_left _ _

/-! The length of RAND_STRING_ENTROPY (R106). -/

/-- The search gives the least power that reaches the target, when its bound allows. -/
theorem leastPower_spec (c target fuel acc : Nat) (h : target ≤ acc * c ^ fuel) :
    target ≤ acc * c ^ leastPower c target fuel acc ∧ leastPower c target fuel acc ≤ fuel ∧
      ∀ j, j < leastPower c target fuel acc → acc * c ^ j < target := by
  induction fuel generalizing acc with
  | zero => simpa [leastPower] using h
  | succ fuel ih =>
    by_cases ht : target ≤ acc
    · simp [leastPower, ht]
    · obtain ⟨g1, g2, g3⟩ := ih (acc * c) (by rwa [Nat.mul_assoc, ← Nat.pow_succ'])
      rw [leastPower, if_neg ht]
      refine ⟨by rwa [Nat.add_comm, Nat.pow_succ', ← Nat.mul_assoc], by omega, fun j hj => ?_⟩
      cases j with
      | zero => simpa using Nat.lt_of_not_le ht
      | succ j => rw [Nat.pow_succ', ← Nat.mul_assoc]; exact g3 j (by omega)

/-- `entropyLength c bits` is the least `k` with `c^k ≥ 2^bits`, for `c ≥ 2` (R106). -/
theorem entropyLength_spec (c bits : Nat) (hc : 2 ≤ c) :
    2 ^ bits ≤ c ^ entropyLength c bits ∧ entropyLength c bits ≤ bits ∧
      ∀ j, j < entropyLength c bits → c ^ j < 2 ^ bits := by
  have h := leastPower_spec c (2 ^ bits) bits 1 (by rw [Nat.one_mul]; exact Nat.pow_le_pow_left hc bits)
  simp only [Nat.one_mul] at h
  exact h

end Sys2Proof.Machine
end

