-- ==== Sys2Proof/Laws/Reset.lean ====
section
/-! SUPPORT. A reset inside a command, said once: what it can do to the state before the core is reset (spec 70_reset_and_hazards.md
R251; log 13). -/

namespace Sys2Proof.Machine

variable {s : State}

/-- Tearing the output of `i` writes memory and the model's counter only, only at admitted bytes of the output buffer inside the
address space, and keeps memory canonical. -/
theorem tearOutput_spec (s : State) (i : Instr) :
    ∃ mem torn, s.tearOutput i = { s with mem := mem, torn := torn } ∧
      (∀ a, ¬s.InOutput i a ∨ admits s.params a = false ∨ 2 ^ s.params.addrW ≤ a → Memory.get mem a = Memory.get s.mem a) ∧
      (s.MemoryOk → (s.tearOutput i).MemoryOk) := by
  cases ho : output i with
  | none => exact ⟨s.mem, s.torn, by simp [State.tearOutput, ho], fun _ _ => rfl, fun h => by simpa [State.tearOutput, ho] using h⟩
  | some k =>
    have he : s.tearOutput i = { s with
        mem := memWrite s.mem (s.ptr k) (s.tornBytes k), torn := s.torn + (s.tornBytes k).length } := by
      simp [State.tearOutput, ho]
    have hl : (s.tornBytes k).length = min (s.len k) (2 ^ s.params.addrW - s.ptr k) := by simp [State.tornBytes]
    refine ⟨_, _, he, fun a ha => ?_, fun h => ?_⟩
    · by_cases hin : a < s.ptr k ∨ s.ptr k + (s.tornBytes k).length ≤ a
      · exact get_memWrite_outside _ _ _ _ hin
      · have hk : s.InOutput i a := ⟨k, ho, by omega, by omega⟩
        have hn : admits s.params a = false := by
          rcases ha with h | h | h
          · exact absurd hk h
          · exact h
          · omega
        have hj : s.ptr k + (a - s.ptr k) = a := by omega
        have := get_memWrite_inside s.mem (s.ptr k) (s.tornBytes k) (a - s.ptr k) (by omega)
        rw [hj] at this
        rw [this]
        simp [State.tornBytes, hj, hn]
    · rw [he]
      refine ⟨wf_memWrite _ _ _ h.1, fun c hc => ?_⟩
      rcases mem_memWrite hc with hb | hc
      · show c.1 < 2 ^ s.params.addrW
        omega
      · exact h.2 c hc

/-- A command cut short: the core is reset from the state in which its output buffer was torn, or from `s` itself when the fault state
ignores the word or the word does not decode. -/
theorem cutShort_cases (w : Word) (s : State) :
    (s.faulted = false ∧ ∃ i, decode s.params w = .ok i ∧ cutShort w s = (s.tearOutput i).resetCore) ∨
      ((s.faulted = true ∨ ∃ e, decode s.params w = .error e) ∧ cutShort w s = s.resetCore) := by
  unfold cutShort
  cases hf : s.faulted
  · cases hd : decode s.params w with
    | ok i => exact .inl ⟨rfl, i, rfl, by simp⟩
    | error e => exact .inr ⟨.inr ⟨e, rfl⟩, by simp⟩
  · exact .inr ⟨.inl rfl, by simp⟩

end Sys2Proof.Machine
end

