-- ==== Sys2Proof/Laws/Step.lean ====
section
/-! SUPPORT. A step, said once: with no host access to come nothing changes, else the host's next access is taken (spec 10_state.md
R20, R23). -/

namespace Sys2Proof.Machine

variable {s : State}

/-- With no host access to come the core is idle. -/
theorem step_idle (hw : s.params.wf = true) (hh : s.host = []) : step s = .next s := by simp [step, takeAccess, hw, hh]

/-- A step takes the host's next access. -/
theorem step_access {a : HostAction} {rest : List HostAction} (hw : s.params.wf = true) (hh : s.host = a :: rest) :
    step s = hostAccess a { s with host := rest } := by
  simp [step, takeAccess, hw, hh]

/-- The access `cmdWrite w` is a write of `w` to CMD. -/
theorem hostAccess_cmdWrite (w : Word) : hostAccess (cmdWrite w) s = writeCmd w s := by
  have hw : (w.setWidth 64).setWidth 32 = w := by ext; simp
  simp only [cmdWrite, hostAccess, accessed, regAt, regWidth, if_true, writeReg, hw]

/-- Only in a well-formed configuration is there a step (R12). -/
theorem step_next_wf {t : State} (h : step s = .next t) : s.params.wf = true := by
  by_cases hw : s.params.wf = true
  · exact hw
  · simp [step, hw] at h

end Sys2Proof.Machine
end

