-- ==== Sys2Proof/Tests/Slice0.lean ====
section
/-! SUPPORT. The model's own tests: ill-formed terms that WellFormed refuses,
    the word of every command written out from the spec's
encoding, one step of every command on the spec's vectors (95_test_vectors.md),
    and for every statement with hypotheses a state that
meets them. -/

namespace Sys2Proof.Tests

open Sys2Proof Sys2Proof.Machine

-- One proof after another: a thread for each of these kernel evaluations at once is more stack than the memory limit allows.
set_option Elab.async false

/-! Helpers. -/

/-- The state after reset with argument registers set, A0 first. -/
def withArgs (args : List Nat) : State :=
  { State.reset with args := Vector.ofFn (fun i => BitVec.ofNat 64 (args.getD i.val 0)) }

/-- A state with bytes in host memory. -/
def withBytes (a : Nat) (bs : Bytes) (s : State) : State := { s with mem := memWrite s.mem a bs }

/-- A step that fetches command word `w` answers a next state that `f` accepts. -/
def stepGives (w : Nat) (s : State) (f : State → Bool) : Bool :=
  match step (s.withFetchWord 32 w) with
  | .next t => f t
  | .fault _ => false
  | .refused _ => false

/-! Well-formedness: each check refuses a term that breaks it (R6, R7, R8, R12, R13, R72, R73). -/

theorem test_wf_reference : Params.reference.wf = true := by decide
theorem test_wf_addrW_zero : ({ Params.reference with addrW := 0 }).wf = false := by decide
theorem test_wf_addrW_65 : ({ Params.reference with addrW := 65 }).wf = false := by decide
theorem test_wf_nCtx_zero : ({ Params.reference with nCtx := 0 }).wf = false := by decide
theorem test_wf_nCtx_17 : ({ Params.reference with nCtx := 17 }).wf = false := by decide
theorem test_wf_no_hash : ({ Params.reference with hashes := [] }).wf = false := by decide
theorem test_wf_17_hashes : ({ Params.reference with hashes := List.replicate 17 HashEngine.sha256 }).wf = false := by decide
theorem test_wf_hash_in_list : ({ Params.reference with hashes := [⟨16, 32, .external 1, true⟩] }).wf = false := by decide
theorem test_wf_digest_zero : HashEngine.wf ⟨64, 0, .external 1, true⟩ = false := by decide
theorem test_wf_digest_above_block : HashEngine.wf ⟨31, 32, .external 1, true⟩ = false := by decide
theorem test_wf_sha256_block : HashEngine.wf ⟨128, 32, .sha256, true⟩ = false := by decide
theorem test_wf_sha256_digest : HashEngine.wf ⟨64, 31, .sha256, true⟩ = false := by decide
theorem test_wf_instr_ctx : (Instr.aeadSeal 4).wf Params.reference = false ∧ (Instr.aeadSeal 3).wf Params.reference = true := by
  decide
theorem test_wf_instr_hash : (Instr.hmacInit 0 1).wf Params.reference = false ∧ (Instr.hmacInit 0 0).wf Params.reference = true := by
  decide

/-! Decoding: the word of every command, its fields RES, HASH, CTX and OP written out from R70 and the table of R75, in a
configuration of 16 contexts and 16 hashes. -/

/-- 16 contexts and 16 hashes. -/
def wide : Params := { Params.reference with nCtx := 16, hashes := List.replicate 16 HashEngine.sha256 }

/-- The word decodes to the command. -/
def decodesTo (w : Word) (i : Instr) : Bool :=
  match decode wide w with
  | .ok j => j == i
  | .error _ => false

theorem test_decode_randBytes : decodesTo 0b0000000000000000_0000_0000_00010000 (.randBytes) = true := by decide
theorem test_decode_randUint32 : decodesTo 0b0000000000000000_0000_0000_00010001 (.randUint32) = true := by decide
theorem test_decode_randString : decodesTo 0b0000000000000000_0000_0000_00010010 (.randString) = true := by decide
theorem test_decode_randStringEntropy : decodesTo 0b0000000000000000_0000_0000_00010011 (.randStringEntropy) = true := by decide
theorem test_decode_chachaStream : decodesTo 0b0000000000000000_0000_0000_00100000 (.chachaStream) = true := by decide
theorem test_decode_chachaStreamXor : decodesTo 0b0000000000000000_0000_0000_00100001 (.chachaStreamXor) = true := by decide
theorem test_decode_poly1305Auth : decodesTo 0b0000000000000000_0000_0000_00110000 (.poly1305Auth) = true := by decide
theorem test_decode_aeadInit : decodesTo 0b0000000000000000_0000_1010_01000000 (.aeadInit 10) = true := by decide
theorem test_decode_aeadSeal : decodesTo 0b0000000000000000_0000_0101_01000001 (.aeadSeal 5) = true := by decide
theorem test_decode_aeadOpen : decodesTo 0b0000000000000000_0000_1100_01000010 (.aeadOpen 12) = true := by decide
theorem test_decode_aeadClean : decodesTo 0b0000000000000000_0000_0011_01000011 (.aeadClean 3) = true := by decide
theorem test_decode_hmacInit : decodesTo 0b0000000000000000_0111_1001_01010000 (.hmacInit 9 7) = true := by decide
theorem test_decode_hmacUpdate : decodesTo 0b0000000000000000_0000_0110_01010001 (.hmacUpdate 6) = true := by decide
theorem test_decode_hmacFinish : decodesTo 0b0000000000000000_0000_1101_01010010 (.hmacFinish 13) = true := by decide
theorem test_decode_hmacReset : decodesTo 0b0000000000000000_0000_0010_01010011 (.hmacReset 2) = true := by decide
theorem test_decode_hmacSave : decodesTo 0b0000000000000000_0000_1011_01010100 (.hmacSave 11) = true := by decide
theorem test_decode_hmacRestore : decodesTo 0b0000000000000000_0000_1010_01010101 (.hmacRestore 10) = true := by decide
theorem test_decode_hmacCleanSaved : decodesTo 0b0000000000000000_0000_0101_01010110 (.hmacCleanSaved 5) = true := by decide
theorem test_decode_hmacClean : decodesTo 0b0000000000000000_0000_1100_01010111 (.hmacClean 12) = true := by decide
theorem test_decode_hkdfInit : decodesTo 0b0000000000000000_0111_0011_01100000 (.hkdfInit 3 7) = true := by decide
theorem test_decode_hkdfExpand : decodesTo 0b0000000000000000_0000_1001_01100001 (.hkdfExpand 9) = true := by decide
theorem test_decode_hkdfClean : decodesTo 0b0000000000000000_0000_0110_01100010 (.hkdfClean 6) = true := by decide
theorem test_decode_ctSelect : decodesTo 0b0000000000000000_0000_0000_01110000 (.ctSelect) = true := by decide
theorem test_decode_ctLessOrEqual : decodesTo 0b0000000000000000_0000_0000_01110001 (.ctLessOrEqual) = true := by decide
theorem test_decode_ctCompare : decodesTo 0b0000000000000000_0000_0000_01110010 (.ctCompare) = true := by decide
theorem test_decode_ctEqual : decodesTo 0b0000000000000000_0000_0000_01110011 (.ctEqual) = true := by decide

/-! Words that do not decode, by the first check of R79 they fail (V-E-1). -/

/-- The word is refused with this reason. -/
def refusedWith (w : Word) (e : DecodeError) : Bool :=
  match decode Params.reference w with
  | .ok _ => false
  | .error d => d == e

theorem test_decode_refused :
    (refusedWith 0x00000373 .contextField && refusedWith 0x00000000 .unassignedOpcode &&
      refusedWith 0x00000014 .unassignedOpcode && refusedWith 0x00000058 .unassignedOpcode &&
      refusedWith 0x00000063 .unassignedOpcode && refusedWith 0x00000074 .unassignedOpcode &&
      refusedWith 0x000000FF .unassignedOpcode && refusedWith 0x80000010 .reservedBits &&
      refusedWith 0x00000110 .contextField && refusedWith 0x00001010 .hashField &&
      refusedWith 0x00001050 .hashField && refusedWith 0x00001061 .hashField) = true := by decide

/-! One step of every command, with the values of the spec's vectors (95_test_vectors.md). -/

/-- V-R-1. -/
theorem test_step_randBytes :
    stepGives 0x10
      { withArgs [0x100, 3] with entropy := [0x9a, 0x00, 0xff] }
      (fun t => t.status == 0 && t.result == 0 && memRead t.mem 0x100 3 == [0x9a, 0x00, 0xff] && t.drawn == 3) = true := by
  decide +kernel

/-- V-R-2. -/
theorem test_step_randUint32 :
    stepGives 0x11
      { State.reset with entropy := [0x78, 0x56, 0x34, 0x12] }
      (fun t => t.status == 0 && t.result == 0x12345678) = true := by
  decide +kernel

/-- V-R-3. -/
theorem test_step_randString :
    stepGives 0x12
      { withBytes 0x200 [0x78, 0x79, 0x7a] (withArgs [0x200, 3, 0x300, 2]) with entropy := [0xff, 0x04, 0x02] }
      (fun t => t.status == 0 && t.result == 0 && memRead t.mem 0x300 2 == [0x79, 0x7a] && t.drawn == 3) = true := by
  decide +kernel

/-- V-R-5. -/
theorem test_step_randString_charset257 :
    stepGives 0x12
      (withArgs [0x200, 0x101, 0x400, 2])
      (fun t => t.status == 0x07 && t.result == 0 && t.drawn == 0) = true := by
  decide +kernel

/-- V-R-5. -/
theorem test_step_randStringEntropy :
    stepGives 0x13
      { withBytes 0x200 [0x30, 0x31] (withArgs [0x200, 2, 0x300, 5, 5]) with entropy := [0x00, 0x01, 0x02, 0x03, 0xff] }
      (fun t => t.status == 0 && t.result == 5 && memRead t.mem 0x300 5 == [0x30, 0x31, 0x30, 0x31, 0x31]) = true := by
  decide +kernel

/-- V-R-5. -/
theorem test_step_randStringEntropy_length :
    stepGives 0x13
      (withArgs [0x200, 62, 0x300, 21, 128])
      (fun t => t.status == 0x03 && t.result == 22 && t.drawn == 0) = true := by
  decide +kernel

/-- V-CC-2. -/
theorem test_step_chachaStream :
    stepGives 0x20
      (withBytes 0x20 (beBytes 16 0x01000000000000090000004a00000000)
          (withBytes 0x0 (beBytes 32 0x000102030405060708090a0b0c0d0e0f101112131415161718191a1b1c1d1e1f) (withArgs [0, 32,
              32, 16, 0x100, 64])))
      (fun t => t.status == 0 && t.result == 2 &&
    memRead t.mem 0x100 64 == (beBytes 64 0x10f1e7e4d13b5915500fdd1fa32071c4c7d1f4c733c068030422aa9ac3d46c4ed2826446079faa0914c2d705d98b02a2b5129cd1de164eb9cbd083e8a2503c4e)) = true := by
  decide +kernel

/-- V-CC-5. -/
theorem test_step_chachaStream_counterOverflow :
    stepGives 0x20
      (withBytes 0x20 (beBytes 4 0xffffffff) (withArgs [128, 32, 32, 16, 0x100, 1]))
      (fun t => t.status == 0xFF && t.result == 0 && t.fault == 0x80002001 && Memory.get t.mem 0x100 == 0) = true := by
  decide +kernel

/-- P4 steps 3 and 4: the keystream over itself, in place. -/
theorem test_step_chachaStreamXor :
    stepGives 0x21
      (withBytes 0x6300 (beBytes 28 0x69a6749f3f630f4122cafe28ec4dc47e26d4346d70b98c73f3e9c53a)
          (withBytes 0x6200 (beBytes 16 0x02000000000000000000004a00000000)
              (withBytes 0x6000 (beBytes 32 0x000102030405060708090a0b0c0d0e0f101112131415161718191a1b1c1d1e1f)
                  (withArgs [0x6000, 32, 0x6200, 16, 0x6300, 28, 0x6300, 28]))))
      (fun t => t.status == 0 && t.result == 3 && memRead t.mem 0x6300 28 == zeros 28) = true := by
  decide +kernel

/-- P4 step 5. -/
theorem test_step_chachaStreamXor_alias :
    stepGives 0x21
      (withArgs [0x6000, 32, 0x6200, 16, 0x6300, 28, 0x6301, 28])
      (fun t => t.status == 0xFF && t.fault == 0x80002103) = true := by
  decide +kernel

/-- V-P-1. -/
theorem test_step_poly1305Auth :
    stepGives 0x30
      (withBytes 0x100 (beBytes 34 0x43727970746f6772617068696320466f72756d2052657365617263682047726f7570)
          (withBytes 0x0 (beBytes 32 0x85d6be7857556d337f4452fe42d506a80103808afb0db2fd4abff6af4149f51b) (withArgs [0, 32,
              0x100, 34, 0x200, 16])))
      (fun t => t.status == 0 && t.result == 0 &&
          memRead t.mem 0x200 16 == (beBytes 16 0xa8061dc1305136c6c22b8baf0c0127a9)) = true := by
  decide +kernel

/-- V-P-4. -/
theorem test_step_poly1305Auth_keyFirst :
    stepGives 0x30
      (withArgs [0, 33, 0x100, 0, 0x200, 15])
      (fun t => t.status == 0x01) = true := by
  decide +kernel

/-- The reset state with an AEAD context of the key of spec 95_test_vectors.md section 2.5. -/
def keyed (s : State) : State := s.setAead 0 ⟨true,
    (beBytes 32 0x808182838485868788898a8b8c8d8e8f909192939495969798999a9b9c9d9e9f)⟩

/-- V-AE-1's key. -/
theorem test_step_aeadInit :
    stepGives 0x40
      (withBytes 0x0 (beBytes 32 0x808182838485868788898a8b8c8d8e8f909192939495969798999a9b9c9d9e9f) (withArgs [0, 32]))
      (fun t => t.status == 0 && (t.aeadCtx 0).valid &&
          (t.aeadCtx 0).key == (beBytes 32 0x808182838485868788898a8b8c8d8e8f909192939495969798999a9b9c9d9e9f)) = true := by
  decide +kernel

/-- V-AE-7. -/
theorem test_step_aeadInit_keyLength :
    stepGives 0x40
      (withArgs [0, 31])
      (fun t => t.status == 0x01 && t.aead == State.reset.aead) = true := by
  decide +kernel

/-- V-AE-4, third row. -/
theorem test_step_aeadSeal :
    stepGives 0x41
      (withBytes 0x1000 (beBytes 12 0x070000004041424344454647) (keyed (withArgs [0x1000, 12, 0x2000, 1, 0x3000, 0,
          0x4000, 17])))
      (fun t => t.status == 0 && t.result == 0 &&
          memRead t.mem 0x4000 17 == (beBytes 17 0x9fbb758e737cb56e18df4748421b085bb0)) = true := by
  decide +kernel

/-- V-AE-6. -/
theorem test_step_aeadSeal_counterOverflow :
    stepGives 0x41
      (withBytes 0x1000 (beBytes 4 0xfeffffff) (keyed (withArgs [0x1000, 16, 0x2000, 1, 0x3000, 0, 0x4000, 17])))
      (fun t => t.status == 0xFF && t.fault == 0x80004101) = true := by
  decide +kernel

/-- V-AE-4, fourth row. -/
theorem test_step_aeadOpen :
    stepGives 0x42
      (withBytes 0x2000 (beBytes 16 0xa0784d7a4716f3feb4f64e7f4b39bf04)
          (withBytes 0x1000 (beBytes 12 0x070000004041424344454647) (keyed (withArgs [0x1000, 12, 0x2000, 16, 0x3000, 0,
              0x4000, 0]))))
      (fun t => t.status == 0 && t.result == 1) = true := by
  decide +kernel

/-- V-AE-4, fifth row, and V-AE-6. -/
theorem test_step_aeadOpen_short :
    stepGives 0x42
      (withBytes 0x1000 (beBytes 4 0xffffffff) (keyed (withArgs [0x1000, 16, 0x2000, 15, 0x3000, 0, 0x4000, 9])))
      (fun t => t.status == 0 && t.result == 0 && t.fault == 0) = true := by
  decide +kernel

/-- R158. -/
theorem test_step_aeadClean :
    stepGives 0x43
      (keyed State.reset)
      (fun t => t.status == 0 && t.aead == State.reset.aead) = true := by
  decide +kernel

/-- The constants of FIPS 180-4, sections 5.3.3 and 4.2.2: the first and last initial words, and the first and last round constants. -/
theorem test_sha256_constants :
    shaInit.abcd.w = 0x6a09e667 ∧ shaInit.efgh.z = 0x5be0cd19 ∧ shaRoundConstants.length = 64 ∧
      shaRoundConstants.getD 0 0 = 0x428a2f98 ∧ shaRoundConstants.getD 63 0 = 0xc67178f2 := by decide +kernel

/-- FIPS 180-4: the digest of the three bytes `abc`. -/
theorem test_sha256_abc :
    sha256 [0x61, 0x62, 0x63] = beBytes 32 0xba7816bf8f01cfea414140de5dae2223b00361a396177a9cb410ff61f20015ad := by
  decide +kernel

/-- V-H-1: the padded key `0b` × 20 under ipad. -/
def ipad1 : Bytes := List.replicate 20 0x3d ++ List.replicate 44 0x36

/-- V-H-1: the padded key under opad. -/
def opad1 : Bytes := List.replicate 20 0x57 ++ List.replicate 44 0x5c

/-- A state whose HMAC context 0 is `x`. -/
def hmacIn (x : HmacCtx) (s : State) : State := s.setHmac 0 x

/-- A context of V-H-1's key that absorbed `m`. -/
def fed (m : Bytes) : HmacCtx := ⟨true, 0, ipad1, opad1, ipad1 ++ m, false, zeros 32, false, []⟩

/-- V-H-1. -/
theorem test_step_hmacInit :
    stepGives 0x50
      (withBytes 0x0 (beBytes 20 0x0b0b0b0b0b0b0b0b0b0b0b0b0b0b0b0b0b0b0b0b) (withArgs [0, 20]))
      (fun t => t.status == 0 && t.hmacCtx 0 == fed []) = true := by
  decide +kernel

/-- V-H-1. -/
theorem test_step_hmacUpdate :
    stepGives 0x51
      (withBytes 0x100 (beBytes 8 0x4869205468657265) (hmacIn (fed []) (withArgs [0x100, 8])))
      (fun t => t.status == 0 && t.hmacCtx 0 == fed (beBytes 8 0x4869205468657265)) = true := by
  decide +kernel

/-- V-H-5. -/
theorem test_step_hmacUpdate_finished :
    stepGives 0x51
      (hmacIn { fed [] with finished := true } State.reset)
      (fun t => t.status == 0xFF && t.fault == 0x80005105) = true := by
  decide +kernel

/-- V-H-1. -/
theorem test_step_hmacFinish :
    stepGives 0x52
      (hmacIn (fed (beBytes 8 0x4869205468657265)) (withArgs [0x200, 32]))
      (fun t => t.status == 0 && (t.hmacCtx 0).finished &&
    memRead t.mem 0x200 32 == (beBytes 32 0xb0344c61d8db38535ca8afceaf0bf12b881dc200c9833da726e9376c2e32cff7)) = true := by
  decide +kernel

/-- V-H-5. -/
theorem test_step_hmacFinish_length :
    stepGives 0x52
      (hmacIn (fed (beBytes 8 0x4869205468657265)) (withArgs [0x200, 31]))
      (fun t => t.status == 0x03 && t.hmacCtx 0 == fed (beBytes 8 0x4869205468657265)) = true := by
  decide +kernel

/-- R175. -/
theorem test_step_hmacReset :
    stepGives 0x53
      (hmacIn
        { fed (beBytes 8 0x4869205468657265) with
          finished := true, cached := zeros 31 ++ [1], savedValid := true, saved := [7] }
        State.reset)
      (fun t => t.status == 0 && t.hmacCtx 0 == { fed [] with savedValid := true, saved := [7] }) = true := by
  decide +kernel

/-- P2 step 3. -/
theorem test_step_hmacSave :
    stepGives 0x54
      (hmacIn (fed (beBytes 8 0x4869205468657265)) State.reset)
      (fun t => t.status == 0 &&
          t.hmacCtx 0 ==
            { fed (beBytes 8 0x4869205468657265) with
              savedValid := true, saved := ipad1 ++ (beBytes 8 0x4869205468657265) }) = true := by
  decide +kernel

/-- V-H-6. -/
theorem test_step_hmacSave_finished :
    stepGives 0x54
      (hmacIn { fed [] with finished := true } State.reset)
      (fun t => t.status == 0xFF && t.fault == 0x80005405) = true := by
  decide +kernel

/-- P2 step 6. -/
theorem test_step_hmacRestore :
    stepGives 0x55
      (hmacIn { fed (beBytes 8 0x4869205468657265) with finished := true, savedValid := true, saved := ipad1 ++ [9]
          } State.reset)
      (fun t => t.status == 0 && t.hmacCtx 0 == { fed [9] with savedValid := true, saved := ipad1 ++ [9] }) = true := by
  decide +kernel

/-- V-H-6, on context 2. -/
theorem test_step_hmacRestore_noSave :
    stepGives 0x255
      (State.reset.setHmac 2 (fed []))
      (fun t => t.status == 0xFF && t.fault == 0x80025505) = true := by
  decide +kernel

/-- P2 step 10. -/
theorem test_step_hmacCleanSaved :
    stepGives 0x56
      (hmacIn { fed [] with savedValid := true, saved := [7] } State.reset)
      (fun t => t.status == 0 && t.hmacCtx 0 == fed []) = true := by
  decide +kernel

/-- V-H-7. -/
theorem test_step_hmacCleanSaved_capability :
    stepGives 0x56
      { hmacIn (fed []) State.reset with params := { Params.reference with hashes := [{ HashEngine.sha256 with ser := false }] } }
      (fun t => t.status == 0x06 && t.hmacCtx 0 == fed []) = true := by
  decide +kernel

/-- P2 step 11. -/
theorem test_step_hmacClean :
    stepGives 0x57
      (hmacIn (fed [7]) State.reset)
      (fun t => t.status == 0 && t.hmac == State.reset.hmac) = true := by
  decide +kernel

/-- V-S-1: the context after HKDF_INIT. -/
def built : HkdfCtx :=
  ⟨true, 0, (beBytes 32 0x077709362c2e32df0ddc3f0dc47bba6390b6c73bb50f9c3122ec844ad7c2b3e5),
    (beBytes 10 0xf0f1f2f3f4f5f6f7f8f9), zeros 32, 32, 0⟩

/-- V-S-1. -/
theorem test_step_hkdfInit :
    stepGives 0x60
      (withBytes 0x30 (beBytes 10 0xf0f1f2f3f4f5f6f7f8f9) (withBytes 0x20 (beBytes 13 0x000102030405060708090a0b0c)
          (withBytes 0x0 (beBytes 22 0x0b0b0b0b0b0b0b0b0b0b0b0b0b0b0b0b0b0b0b0b0b0b) (withArgs [0, 22, 32, 13, 48, 10]))))
      (fun t => t.status == 0 && t.result == 0 && t.hkdfCtx 0 == built) = true := by
  decide +kernel

/-- V-S-1. -/
theorem test_step_hkdfExpand :
    stepGives 0x61
      ((withArgs [0x100, 42]).setHkdf 0 built)
      (fun t => t.status == 0 && t.result == 42 && (t.hkdfCtx 0).ctr == 2 && (t.hkdfCtx 0).pos == 10 &&
    memRead t.mem 0x100 42 == (beBytes 42 0x3cb25f25faacd57a90434f64d0362f2a2d2d0a90cf1a5a4c5db02d56ecc4c5bf34007208d5b887185865)) = true := by
  decide +kernel

/-- V-K-3, first row. -/
theorem test_step_hkdfExpand_exhausted :
    stepGives 0x61
      ((withArgs [0x100, 8161]).setHkdf 0 built)
      (fun t => t.status == 0x04 && t.result == 0 && t.hkdfCtx 0 == built) = true := by
  decide +kernel

/-- P3 step 7. -/
theorem test_step_hkdfClean :
    stepGives 0x62
      (State.reset.setHkdf 0 built)
      (fun t => t.status == 0 && t.hkdf == State.reset.hkdf) = true := by
  decide +kernel

/-- V-CT-1. -/
theorem test_step_ctSelect :
    stepGives 0x70
      (withArgs [1, 0xdeadbeef, 0x12345678])
      (fun t => t.status == 0 && t.result == 0xDEADBEEF) = true := by
  decide +kernel

/-- V-CT-1. -/
theorem test_step_ctSelect_domain :
    stepGives 0x70
      (withArgs [0, 0x100000000, 0])
      (fun t => t.status == 0xFF && t.fault == 0x80007006) = true := by
  decide +kernel

/-- V-CT-2. -/
theorem test_step_ctLessOrEqual :
    stepGives 0x71
      (withArgs [7, 5])
      (fun t => t.status == 0 && t.result == 0) = true := by
  decide +kernel

/-- V-CT-2. -/
theorem test_step_ctLessOrEqual_domain :
    stepGives 0x71
      (withArgs [0x80000000, 0])
      (fun t => t.status == 0xFF && t.fault == 0x80007106) = true := by
  decide +kernel

/-- V-CT-3, second row. -/
theorem test_step_ctCompare :
    stepGives 0x72
      (withBytes 0x110 (beBytes 3 0x010204) (withBytes 0x100 (beBytes 3 0x010203) (withArgs [0x100, 3, 0x110, 3])))
      (fun t => t.status == 0 && t.result == 0) = true := by
  decide +kernel

/-- V-CT-3, fourth row. -/
theorem test_step_ctCompare_empty :
    stepGives 0x72
      (withArgs [0, 0, 0, 0])
      (fun t => t.status == 0 && t.result == 1) = true := by
  decide +kernel

/-- V-CT-4, last row. -/
theorem test_step_ctEqual :
    stepGives 0x73
      (withBytes 0x100 (beBytes 5 0x0102030405) (withArgs [0x100, 5, 0x100, 5]))
      (fun t => t.status == 0 && t.result == 1) = true := by
  decide +kernel

/-- V-CT-4, fourth row. -/
theorem test_step_ctEqual_empty :
    stepGives 0x73
      (withArgs [0, 0, 0, 0])
      (fun t => t.status == 0 && t.result == 0) = true := by
  decide +kernel


/-! Witnesses: for every statement with hypotheses a state and operands that meet all of them, for each clause at a boundary. -/

/-- The checks of the prologue, computed, say that the command's own computation runs. -/
theorem clear_of_checks {i : Instr} {s : State} (h : (s.params.wf && !s.faulted && (s.prologueFault i).isNone) = true) :
    s.Clear i := by
  simp only [Bool.and_eq_true, Bool.not_eq_true', Option.isNone_iff_eq_none] at h
  exact ⟨h.1, (prologueFault_none_iff s i).mp h.2⟩

/-- The state a command's outcome holds. -/
def after (o : Host.Outcome State Fault Refusal) : State :=
  match o with
  | .next t => t
  | .fault _ => State.reset
  | .refused _ => State.reset

/-- The outcome is a next state. -/
def goesOn (o : Host.Outcome State Fault Refusal) : Bool :=
  match o with
  | .next _ => true
  | .fault _ => false
  | .refused _ => false

theorem next_of_goesOn {o : Host.Outcome State Fault Refusal} (h : goesOn o = true) : o = .next (after o) := by
  cases o <;> simp_all [goesOn, after]

/-- The argument registers of another state set to these. -/
def argsIn (s : State) (args : List Nat) : State := { s with args := (withArgs args).args }

/-- The reset state with its host accesses. -/
def hostOf (l : List HostAction) : State := { State.reset with host := l }

/-- A core in the fault state of a CT_COMPARE with a bad buffer (V-E-2). -/
def faultedState : State := { State.reset with fault := 0x80007202, status := 0xFF, cmd := 0x72 }

/-- The reset state without entropy. -/
def noEntropy (s : State) : State := { s with params := { s.params with entropyAvailable := false } }

/-- The reference configuration with a hash that cannot serialize (V-H-7). -/
def noSer (s : State) : State := { s with params := { s.params with hashes := [{ HashEngine.sha256 with ser := false }] } }

/-! Encoding. -/

theorem test_witness_decodeOfEncode : (Instr.hkdfInit 15 15).wf wide = true ∧ (Instr.aeadSeal 3).wf Params.reference = true := by
  decide

theorem test_witness_encodeOfDecode : ∃ i, decode Params.reference 0x00000341 = .ok i := ⟨.aeadSeal 3, by rfl⟩

theorem test_witness_reservedBits :
    (0x00010010 : Word).getLsbD 16 = true ∧ (0x80000010 : Word).getLsbD 31 = true := by decide

theorem test_witness_opZero : (0 : Word).extractLsb' 0 8 = 0 ∧ (0xFFFFFF00 : Word).extractLsb' 0 8 = 0 := by decide

theorem test_witness_firstCommand : ∃ i, decode State.reset.params 0x00000070 = .ok i := ⟨.ctSelect, by rfl⟩

theorem test_witness_illegalCommand : ∃ s : State, s.Ready ∧ s.host = [cmdWrite 0x00000044] ∧
    ∀ i, decode s.params 0x00000044 ≠ .ok i :=
  ⟨hostOf [cmdWrite 0x00000044], ⟨by decide, by decide⟩, rfl, fun i h => by
    have : decode Params.reference 0x00000044 = .error .unassignedOpcode := by rfl
    exact absurd (this.symm.trans h) (by simp)⟩

/-! The step, reset and the register interface. -/

theorem test_witness_stepRuns : ∃ s : State, s.Ready ∧ s.host = [cmdWrite 0x00000070] ∧
    decode s.params 0x00000070 = .ok .ctSelect :=
  ⟨hostOf [cmdWrite 0x00000070], ⟨by decide, by decide⟩, rfl, by rfl⟩

theorem test_witness_faultState :
    (∃ s : State, s.params.wf = true ∧ s.faulted = true ∧ s.host = [cmdWrite 0x00000070]) ∧
    (∃ s : State, s.params.wf = true ∧ s.faulted = true ∧ accessed 0x58 4 = some .fault ∧ s.host = [.regRead 0x58 4]) ∧
    (∃ s t : State, s.params.wf = true ∧ s.faulted = true ∧ step s = .next t ∧ (∀ rest, s.host ≠ .reset :: rest) ∧
      ∀ w rest, s.host ≠ .resetDuring w :: rest) :=
  ⟨⟨{ faultedState with host := [cmdWrite 0x00000070] }, by decide, by decide, rfl⟩,
    ⟨{ faultedState with host := [.regRead 0x58 4] }, by decide, by decide, by decide, rfl⟩,
    ⟨faultedState, faultedState, by decide, by decide, by rfl, fun _ h => (by cases h), fun _ _ h => (by cases h)⟩⟩

theorem test_witness_resetAccess : ∃ s : State, s.params.wf = true ∧ s.host = [.reset] ∧ s.faulted = true :=
  ⟨{ faultedState with host := [.reset] }, by decide, rfl, by decide⟩

theorem test_witness_resetInside : ∃ s : State, s.params.wf = true ∧ s.host = [.resetDuring 0x00000010] ∧
    ¬s.InOutput .randBytes 0x103 ∧ s.InOutput .randBytes 0x102 ∧ admits s.params 0x102 = true ∧
    admits s.params 0x10000 = false ∧ s.faulted = false :=
  ⟨{ withArgs [0x100, 3] with host := [.resetDuring 0x00000010] }, by decide, rfl,
    fun ⟨o, ho, h⟩ => by cases ho; exact absurd h (by decide), ⟨0, rfl, by decide⟩, by decide, by decide, by decide⟩

/-- R251 excepts no command: HMAC_FINISH on a context that is not initialised has its output torn, a descriptor that runs past the
address space only up to its end; in the fault state no command runs (R231). -/
theorem test_resetDuring_tears :
    (cutShort 0x00000052 (withArgs [0x100, 3])).torn = 3 ∧
      (cutShort 0x00000052 (withArgs [0xFFFFFFFFFFFFFFFE, 4])).torn = 2 ∧
      (cutShort 0x00000052 { withArgs [0x100, 3] with fault := 0x80007202 }).torn = 0 := by decide +kernel

/-- R51: of an output across the end of the admitted memory the bytes past it keep their value. -/
theorem test_resetDuring_unadmitted :
    Memory.get (cutShort 0x00000010 (withBytes 0x10000 [7] (withArgs [0xFFFF, 2]))).mem 0x10000 = 7 := by
  obtain ⟨_, i, hi, he⟩ | ⟨_, he⟩ := cutShort_cases 0x00000010 (withBytes 0x10000 [7] (withArgs [0xFFFF, 2]))
  · obtain ⟨m, n, hm, hg, _⟩ := tearOutput_spec (withBytes 0x10000 [7] (withArgs [0xFFFF, 2])) i
    rw [he, hm, resetCore_mem]
    exact (hg 0x10000 (.inr (.inl (by decide +kernel)))).trans (by decide +kernel)
  · rw [he]; decide +kernel

theorem test_witness_hostAccesses :
    (∃ s : State, s.params.wf = true ∧ s.host = [.regWrite (0x08 + 8 * (7 : Fin 8).val) 8 0xFFFFFFFFFFFFFFFF]) ∧
    (∃ s : State, s.params.wf = true ∧ s.host = [.regWrite 0x60 4 1]) ∧
    (∃ s : State, s.params.wf = true ∧ s.host = [.regRead 0x50 8] ∧
      ((0x50, 8, s.result) : Nat × Nat × DWord) ∈ [(0x00, 4, s.cmd.setWidth 64), (0x48, 4, s.status.setWidth 64),
        (0x50, 8, s.result), (0x58, 4, s.fault.setWidth 64), (0x60, 4, s.config.setWidth 64)]) ∧
    (∃ s : State, s.params.wf = true ∧ s.host = [.regRead (0x08 + 8 * (0 : Fin 8).val) 8]) ∧
    (∃ s : State, s.params.wf = true ∧ 0xFFFFFFFFFFFFFFFF + [(7 : Byte)].length ≤ 2 ^ s.params.addrW ∧
      s.host = [.memWrite 0xFFFFFFFFFFFFFFFF [7]]) :=
  ⟨⟨hostOf _, by decide, rfl⟩, ⟨hostOf _, by decide, rfl⟩, ⟨hostOf [.regRead 0x50 8], by decide, rfl, by decide⟩,
    ⟨hostOf _, by decide, rfl⟩, ⟨hostOf [.memWrite 0xFFFFFFFFFFFFFFFF [7]], by decide, by decide, rfl⟩⟩

theorem test_witness_partialAccess :
    ∃ s : State, s.params.wf = true ∧ (0x50, 4) ∉ [(0x00, 4), (0x48, 4), (0x50, 8), (0x58, 4), (0x60, 4)] ∧
      (∀ i : Fin 8, ((0x50, 4) : Nat × Nat) ≠ (0x08 + 8 * i.val, 8)) ∧ s.host = [.regWrite 0x50 4 0] :=
  ⟨hostOf _, by decide, by decide, by decide, rfl⟩

theorem test_witness_partialRead :
    ∃ s : State, s.params.wf = true ∧ (0x48, 8) ∉ [(0x00, 4), (0x48, 4), (0x50, 8), (0x58, 4), (0x60, 4)] ∧
      (∀ i : Fin 8, ((0x48, 8) : Nat × Nat) ≠ (0x08 + 8 * i.val, 8)) ∧ s.host = [.regRead 0x48 8] :=
  ⟨hostOf _, by decide, by decide, by decide, rfl⟩

theorem test_witness_config : (∃ s : State, s.params.wf = true) ∧ ∃ s t : State, step s = .next t :=
  ⟨⟨State.reset, by decide⟩, ⟨State.reset, State.reset, by rfl⟩⟩

/-! The prologue and the outcomes (V-M-1, V-M-2, V-M-3). -/

theorem test_witness_inadmissible :
    (∃ s : State, s.Ready ∧ (0 : Fin 4) ∈ descriptors .ctCompare ∧ ¬s.DescAdmissible 0 ∧ s.ptr 0 = 0xFFF0 ∧ s.len 0 = 17) ∧
    (∃ s : State, s.Ready ∧ (0 : Fin 4) ∈ descriptors .ctCompare ∧ ¬s.DescAdmissible 0 ∧ s.len 0 = 2) :=
  ⟨⟨withArgs [0xFFF0, 17], ⟨by decide, by decide⟩, by decide,
      fun h => absurd ((admissible_iff _ _).mpr h) (by decide +kernel), by decide, by decide⟩,
    ⟨withArgs [0xFFFFFFFFFFFFFFFF, 2], ⟨by decide, by decide⟩, by decide,
      fun h => absurd ((admissible_iff _ _).mpr h) (by decide +kernel), by decide⟩⟩

theorem test_witness_alias : ∃ s : State, s.Ready ∧ s.BuffersOk .chachaStreamXor ∧ s.AliasBroken .chachaStreamXor :=
  ⟨withArgs [0x6000, 32, 0x6200, 16, 0x6300, 28, 0x6301, 28], ⟨by decide, by decide⟩,
    (buffersOk_iff _ _).mp (by decide +kernel), 3, 2, rfl, by decide,
    (overlap_iff _ _ _).mp (by decide +kernel), fun h => absurd h.2.2.2.1 (by decide)⟩

/-- Two inputs may overlap, and the output D3 of CHACHA_STREAM_XOR may be its input D2. -/
theorem test_witness_noAlias :
    (∃ s : State, ¬s.AliasBroken .ctCompare ∧ s.DescOverlap 0 1) ∧
    (∃ s : State, ¬s.AliasBroken .chachaStreamXor ∧ s.DescOverlap 3 2) :=
  ⟨⟨withArgs [0x100, 8, 0x104, 8], (aliasFree_iff _ _).mp (by decide +kernel), (overlap_iff _ _ _).mp (by decide +kernel)⟩,
    ⟨withArgs [0x6000, 32, 0x6200, 16, 0x6300, 28, 0x6300, 28], (aliasFree_iff _ _).mp (by decide +kernel),
      (overlap_iff _ _ _).mp (by decide +kernel)⟩⟩

theorem test_witness_uninitialised :
    (∃ s : State, s.Ready ∧ s.BuffersOk (.aeadSeal 1) ∧ ¬s.AliasBroken (.aeadSeal 1) ∧ (s.aeadCtx 1).valid = false) ∧
    (∃ s : State, s.Ready ∧ s.BuffersOk (.hmacCleanSaved 3) ∧ ¬s.AliasBroken (.hmacCleanSaved 3) ∧
      (s.hmacCtx 3).valid = false) ∧
    (∃ s : State, s.Ready ∧ s.BuffersOk (.hkdfExpand 2) ∧ ¬s.AliasBroken (.hkdfExpand 2) ∧ (s.hkdfCtx 2).valid = false) :=
  ⟨⟨withArgs [0x1000, 17], ⟨by decide, by decide⟩, (buffersOk_iff _ _).mp (by decide +kernel),
      (aliasFree_iff _ _).mp (by decide +kernel), by decide⟩,
    ⟨State.reset, ⟨by decide, by decide⟩, (buffersOk_iff _ _).mp (by decide +kernel),
      (aliasFree_iff _ _).mp (by decide +kernel), by decide⟩,
    ⟨withArgs [0x3100, 1], ⟨by decide, by decide⟩, (buffersOk_iff _ _).mp (by decide +kernel),
      (aliasFree_iff _ _).mp (by decide +kernel), by decide⟩⟩

/-- A completed command, an error with a RESULT, an error without, and a fault. -/
theorem test_witness_outcomes :
    (∃ s t : State, exec .ctLessOrEqual s = .next t) ∧
    (∃ s t : State, exec .randStringEntropy s = .next t ∧ t.status ≠ 0x00 ∧ t.status ≠ 0xFF ∧ t.result ≠ 0) ∧
    (∃ s t : State, exec .poly1305Auth s = .next t ∧ t.status ≠ 0x00 ∧ t.status ≠ 0xFF) ∧
    (∃ s t : State, exec .ctCompare s = .next t ∧ t.status = 0xFF) :=
  ⟨⟨State.reset, _, next_of_goesOn (by decide +kernel)⟩,
    ⟨withArgs [0x200, 62, 0x300, 21, 128], _, next_of_goesOn (by decide +kernel), by decide +kernel, by decide +kernel,
      by decide +kernel⟩,
    ⟨withArgs [0, 33], _, next_of_goesOn (by decide +kernel), by decide +kernel, by decide +kernel⟩,
    ⟨withArgs [0xFFF0, 17], _, next_of_goesOn (by decide +kernel), by decide +kernel⟩⟩

/-! The random byte generator. -/

theorem test_witness_randBytes :
    (∃ s : State, s.Clear .randBytes ∧ s.params.entropyAvailable = true ∧ s.len 0 = 3) ∧
    (∃ s : State, s.Clear .randBytes ∧ s.params.entropyAvailable = false) :=
  ⟨⟨withArgs [0x100, 3], clear_of_checks (by decide +kernel), rfl, by decide⟩,
    ⟨noEntropy (withArgs [0x100, 0]), clear_of_checks (by decide +kernel), rfl⟩⟩

theorem test_witness_randUint32 :
    (∃ s : State, s.Clear .randUint32 ∧ s.params.entropyAvailable = true) ∧
    (∃ s : State, s.Clear .randUint32 ∧ s.params.entropyAvailable = false) :=
  ⟨⟨State.reset, clear_of_checks (by decide +kernel), rfl⟩,
    ⟨noEntropy State.reset, clear_of_checks (by decide +kernel), rfl⟩⟩

theorem test_witness_rejectionSampling : 2 ≤ 3 ∧ 3 ≤ 256 ∧ 2 < 3 ∧ 2 ≤ 256 ∧ 256 ≤ 256 := by decide

/-- V-R-3, with what it draws. -/
def drawing : State := { withBytes 0x200 [0x78, 0x79, 0x7a] (withArgs [0x200, 3, 0x300, 2]) with entropy := [0xff, 0x04, 0x02] }

theorem test_witness_randString :
    (∃ s : State, s.Clear .randString ∧ s.len 0 < 2) ∧
    (∃ s : State, s.Clear .randString ∧ 256 < s.len 0) ∧
    (∃ s : State, s.Clear .randString ∧ 2 ≤ s.len 0 ∧ s.len 0 ≤ 256 ∧ s.params.entropyAvailable = false) ∧
    (∃ (s : State) (m : Nat), s.Clear .randString ∧ 2 ≤ s.len 0 ∧ s.len 0 ≤ 256 ∧ s.params.entropyAvailable = true ∧
      m ≤ drawLimit s (s.len 1) ∧ (acceptedDraws (s.len 0) (s.draw m)).length = s.len 1 ∧
      ∀ j, j < m → (acceptedDraws (s.len 0) (s.draw j)).length < s.len 1) :=
  ⟨⟨withArgs [0x200, 1, 0x300, 2], clear_of_checks (by decide +kernel), by decide⟩,
    ⟨withArgs [0x200, 257, 0x400, 2], clear_of_checks (by decide +kernel), by decide⟩,
    ⟨noEntropy (withArgs [0x200, 256, 0x400, 2]), clear_of_checks (by decide +kernel), by decide, by decide, rfl⟩,
    ⟨drawing, 3, clear_of_checks (by decide +kernel), by decide, by decide, rfl,
      Nat.le_trans (by decide) (drawLimit_ge drawing _), by decide +kernel, by decide +kernel⟩⟩

/-- The case split of R106: a wrong length, no entropy, and V-R-5's five symbols of one bit each. -/
def entropyString : State :=
  { withBytes 0x200 [0x30, 0x31] (withArgs [0x200, 2, 0x300, 5, 5]) with entropy := [0x00, 0x01, 0x02, 0x03, 0xff] }

theorem test_witness_randStringEntropy :
    (∃ s : State, s.Clear .randStringEntropy ∧ 256 < s.len 0) ∧
    (∃ s : State, s.Clear .randStringEntropy ∧ 2 ≤ s.len 0 ∧ s.len 0 ≤ 256 ∧ 2 ^ (s.arg 4).toNat ≤ s.len 0 ^ 22 ∧
      (∀ j, j < 22 → s.len 0 ^ j < 2 ^ (s.arg 4).toNat) ∧ s.len 1 ≠ 22) ∧
    (∃ s : State, s.Clear .randStringEntropy ∧ 2 ≤ s.len 0 ∧ s.len 0 ≤ 256 ∧ 2 ^ (s.arg 4).toNat ≤ s.len 0 ^ 5 ∧
      (∀ j, j < 5 → s.len 0 ^ j < 2 ^ (s.arg 4).toNat) ∧ s.len 1 = 5 ∧ s.params.entropyAvailable = false) ∧
    (∃ s : State, s.Clear .randStringEntropy ∧ 2 ≤ s.len 0 ∧ s.len 0 ≤ 256 ∧ 2 ^ (s.arg 4).toNat ≤ s.len 0 ^ 5 ∧
      (∀ j, j < 5 → s.len 0 ^ j < 2 ^ (s.arg 4).toNat) ∧ s.len 1 = 5 ∧ s.params.entropyAvailable = true ∧
      5 ≤ drawLimit s 5 ∧ (acceptedDraws (s.len 0) (s.draw 5)).length = 5 ∧
      ∀ j, j < 5 → (acceptedDraws (s.len 0) (s.draw j)).length < 5) :=
  ⟨⟨withArgs [0x200, 257, 0x400, 2], clear_of_checks (by decide +kernel), by decide⟩,
    ⟨withArgs [0x200, 62, 0x300, 21, 128], clear_of_checks (by decide +kernel), by decide, by decide, by decide +kernel,
      by decide +kernel, by decide⟩,
    ⟨noEntropy entropyString, clear_of_checks (by decide +kernel), by decide, by decide, by decide +kernel, by decide +kernel,
      by decide, rfl⟩,
    ⟨entropyString, clear_of_checks (by decide +kernel), by decide, by decide, by decide +kernel, by decide +kernel, by decide,
      rfl, Nat.le_trans (by decide) (drawLimit_ge entropyString 5), by decide +kernel, by decide +kernel⟩⟩

/-- R108 for RAND_STRING_ENTROPY, on the state that asks for V-R-5's five symbols. -/
theorem test_witness_randStringEntropy_hang : ∃ (s : State) (k : Nat), s.Clear .randStringEntropy ∧ 2 ≤ s.len 0 ∧
    s.len 0 ≤ 256 ∧ s.params.entropyAvailable = true ∧ 2 ^ (s.arg 4).toNat ≤ s.len 0 ^ k ∧
    (∀ j, j < k → s.len 0 ^ j < 2 ^ (s.arg 4).toNat) ∧ s.len 1 = k :=
  ⟨entropyString, 5, clear_of_checks (by decide +kernel), by decide, by decide, rfl, by decide +kernel, by decide +kernel,
    by decide⟩

/-! ChaCha20 (V-CC-5, V-CC-6). -/

theorem test_witness_chachaStream :
    (∃ s : State, s.Clear .chachaStream ∧ s.len 0 ≠ 32) ∧
    (∃ s : State, s.Clear .chachaStream ∧ s.len 0 = 32 ∧ 16 < s.len 1) ∧
    (∃ s : State, s.Clear .chachaStream ∧ s.len 0 = 32 ∧ s.len 1 ≤ 16 ∧
      2 ^ 32 ≤ leNat ((zeros (16 - s.len 1) ++ s.buf 1).take 4) + (s.len 2 + 63) / 64) ∧
    (∃ s : State, s.Clear .chachaStream ∧ s.len 0 = 32 ∧ s.len 1 ≤ 16 ∧
      leNat ((zeros (16 - s.len 1) ++ s.buf 1).take 4) + (s.len 2 + 63) / 64 < 2 ^ 32) :=
  ⟨⟨withArgs [0, 31, 0x40, 17, 0x100, 1], clear_of_checks (by decide +kernel), by decide⟩,
    ⟨withArgs [0, 32, 0x40, 17, 0x100, 1], clear_of_checks (by decide +kernel), by decide, by decide⟩,
    ⟨withBytes 0x20 (beBytes 4 0xfeffffff) (withArgs [0x80, 32, 0x20, 16, 0x100, 65]), clear_of_checks (by decide +kernel),
      by decide, by decide, by decide +kernel⟩,
    ⟨withBytes 0x20 (beBytes 4 0xfeffffff) (withArgs [0x80, 32, 0x20, 16, 0x100, 64]), clear_of_checks (by decide +kernel),
      by decide, by decide, by decide +kernel⟩⟩

theorem test_witness_chachaStreamXor :
    (∃ s : State, s.Clear .chachaStreamXor ∧ s.len 0 ≠ 32) ∧
    (∃ s : State, s.Clear .chachaStreamXor ∧ s.len 0 = 32 ∧ 16 < s.len 1) ∧
    (∃ s : State, s.Clear .chachaStreamXor ∧ s.len 0 = 32 ∧ s.len 1 ≤ 16 ∧ s.len 3 ≠ s.len 2) ∧
    (∃ s : State, s.Clear .chachaStreamXor ∧ s.len 0 = 32 ∧ s.len 1 ≤ 16 ∧ s.len 3 = s.len 2 ∧
      2 ^ 32 ≤ leNat ((zeros (16 - s.len 1) ++ s.buf 1).take 4) + (s.len 2 + 63) / 64) ∧
    (∃ s : State, s.Clear .chachaStreamXor ∧ s.len 0 = 32 ∧ s.len 1 ≤ 16 ∧ s.len 3 = s.len 2 ∧ s.ptr 3 = s.ptr 2 ∧
      leNat ((zeros (16 - s.len 1) ++ s.buf 1).take 4) + (s.len 2 + 63) / 64 < 2 ^ 32) :=
  ⟨⟨withArgs [0, 33], clear_of_checks (by decide +kernel), by decide⟩,
    ⟨withArgs [0, 32, 0x40, 17], clear_of_checks (by decide +kernel), by decide, by decide⟩,
    ⟨withArgs [0, 32, 0x40, 12, 0x100, 10, 0x200, 11], clear_of_checks (by decide +kernel), by decide, by decide, by decide⟩,
    ⟨withBytes 0x40 (beBytes 4 0xffffffff) (withArgs [0, 32, 0x40, 16, 0x100, 1, 0x200, 1]),
      clear_of_checks (by decide +kernel), by decide, by decide, by decide, by decide +kernel⟩,
    ⟨withBytes 0x40 (beBytes 4 0xffffffff) (withArgs [0, 32, 0x40, 16, 0x100, 0, 0x100, 0]),
      clear_of_checks (by decide +kernel), by decide, by decide, by decide, by decide, by decide +kernel⟩⟩

theorem test_witness_keystream : (63 : Nat) < 65 ∧ (64 : Nat) < 65 := by decide

/-- A message of one byte, its encryption at another place. -/
def xorFirst : State := withBytes 0x100 [0x4c] (withArgs [0, 32, 0x40, 12, 0x100, 1, 0x200, 1])

/-- The same command on what the first one wrote. -/
def xorSecond : State := argsIn (after (exec .chachaStreamXor xorFirst)) [0, 32, 0x40, 12, 0x200, 1, 0x300, 1]

theorem test_witness_xorTwice : ∃ s t u v : State, exec .chachaStreamXor s = .next t ∧ t.status = 0x00 ∧
    exec .chachaStreamXor u = .next v ∧ v.status = 0x00 ∧ u.buf 0 = s.buf 0 ∧ u.buf 1 = s.buf 1 ∧
    u.buf 2 = memRead t.mem (s.ptr 3) (s.len 3) :=
  ⟨xorFirst, _, xorSecond, _, next_of_goesOn (by decide +kernel), by decide +kernel, next_of_goesOn (by decide +kernel),
    by decide +kernel, by decide +kernel, by decide +kernel, by decide +kernel⟩

/-! Poly1305 and the AEAD (V-P-4, V-AE-6, V-AE-7). -/

theorem test_witness_poly1305Auth :
    (∃ s : State, s.Clear .poly1305Auth ∧ s.len 0 ≠ 32) ∧
    (∃ s : State, s.Clear .poly1305Auth ∧ s.len 0 = 32 ∧ s.len 2 ≠ 16) ∧
    (∃ s : State, s.Clear .poly1305Auth ∧ s.len 0 = 32 ∧ s.len 2 = 16) :=
  ⟨⟨withArgs [0, 16], clear_of_checks (by decide +kernel), by decide⟩,
    ⟨withArgs [0, 32, 0x100, 0, 0x200, 15], clear_of_checks (by decide +kernel), by decide, by decide⟩,
    ⟨withArgs [0, 32, 0x100, 0, 0x200, 16], clear_of_checks (by decide +kernel), by decide, by decide⟩⟩

theorem test_witness_aeadInit :
    (∃ s : State, s.Clear (.aeadInit 3) ∧ s.len 0 ≠ 32) ∧ (∃ s : State, s.Clear (.aeadInit 3) ∧ s.len 0 = 32) :=
  ⟨⟨withArgs [0, 31], clear_of_checks (by decide +kernel), by decide⟩,
    ⟨withArgs [0, 32], clear_of_checks (by decide +kernel), by decide⟩⟩

/-- A counter block that starts with these four bytes, at 0x1000. -/
def counterAt (first : Nat) (args : List Nat) : State := withBytes 0x1000 (beBytes 4 first) (keyed (withArgs args))

theorem test_witness_aeadSeal :
    (∃ s : State, s.Clear (.aeadSeal 0) ∧ 16 < s.len 0) ∧
    (∃ s : State, s.Clear (.aeadSeal 0) ∧ s.len 0 ≤ 16 ∧ s.len 3 ≠ s.len 1 + 16) ∧
    (∃ s : State, s.Clear (.aeadSeal 0) ∧ s.len 0 ≤ 16 ∧ s.len 3 = s.len 1 + 16 ∧
      2 ^ 32 ≤ leNat ((zeros (16 - s.len 0) ++ s.buf 0).take 4) + 1 + (s.len 1 + 63) / 64) ∧
    (∃ s : State, s.Clear (.aeadSeal 0) ∧ s.len 0 ≤ 16 ∧ s.len 3 = s.len 1 + 16 ∧
      leNat ((zeros (16 - s.len 0) ++ s.buf 0).take 4) + 1 + (s.len 1 + 63) / 64 < 2 ^ 32) :=
  ⟨⟨counterAt 0 [0x1000, 17, 0x2000, 0, 0x3000, 0, 0x4000, 16], clear_of_checks (by decide +kernel), by decide⟩,
    ⟨counterAt 0 [0x1000, 16, 0x2000, 10, 0x3000, 0, 0x4000, 25], clear_of_checks (by decide +kernel), by decide, by decide⟩,
    ⟨counterAt 0xfeffffff [0x1000, 16, 0x2000, 1, 0x3000, 0, 0x4000, 17], clear_of_checks (by decide +kernel), by decide,
      by decide, by decide +kernel⟩,
    ⟨counterAt 0xfeffffff [0x1000, 16, 0x2000, 0, 0x3000, 0, 0x4000, 16], clear_of_checks (by decide +kernel), by decide,
      by decide, by decide +kernel⟩⟩

/-- The tag of R155 of a state's operands, beside the tag the message carries. -/
def tagOf (s : State) : Bytes :=
  poly1305 ((chachaBlock (s.aeadCtx 0).key (withCounter (zeros (16 - s.len 0) ++ s.buf 0)
    (leNat ((zeros (16 - s.len 0) ++ s.buf 0).take 4)))).take 32) (macData (s.buf 2) ((s.buf 1).take (s.len 1 - 16)))

theorem test_witness_aeadOpen_early :
    (∃ s : State, s.Clear (.aeadOpen 0) ∧ 16 < s.len 0) ∧
    (∃ s : State, s.Clear (.aeadOpen 0) ∧ s.len 0 ≤ 16 ∧ s.len 1 < 16) ∧
    (∃ s : State, s.Clear (.aeadOpen 0) ∧ s.len 0 ≤ 16 ∧ 16 ≤ s.len 1 ∧ s.len 3 ≠ s.len 1 - 16) ∧
    (∃ s : State, s.Clear (.aeadOpen 0) ∧ s.len 0 ≤ 16 ∧ 16 ≤ s.len 1 ∧ s.len 3 = s.len 1 - 16 ∧
      2 ^ 32 ≤ leNat ((zeros (16 - s.len 0) ++ s.buf 0).take 4) + 1) :=
  ⟨⟨counterAt 0 [0x1000, 17, 0x2000, 3, 0x3000, 0, 0x4000, 0], clear_of_checks (by decide +kernel), by decide⟩,
    ⟨counterAt 0xffffffff [0x1000, 16, 0x2000, 15, 0x3000, 0, 0x4000, 9], clear_of_checks (by decide +kernel), by decide,
      by decide⟩,
    ⟨counterAt 0 [0x1000, 16, 0x2000, 20, 0x3000, 0, 0x4000, 5], clear_of_checks (by decide +kernel), by decide, by decide,
      by decide⟩,
    ⟨counterAt 0xffffffff [0x1000, 16, 0x2000, 16, 0x3000, 0, 0x4000, 0], clear_of_checks (by decide +kernel), by decide,
      by decide, by decide, by decide +kernel⟩⟩

theorem test_witness_aeadOpen_badTag :
    ∃ s : State, s.Clear (.aeadOpen 0) ∧ s.len 0 ≤ 16 ∧ 16 ≤ s.len 1 ∧ s.len 3 = s.len 1 - 16 ∧
      leNat ((zeros (16 - s.len 0) ++ s.buf 0).take 4) + 1 < 2 ^ 32 ∧ tagOf s ≠ (s.buf 1).drop (s.len 1 - 16) :=
  ⟨counterAt 0 [0x1000, 12, 0x2000, 16, 0x3000, 0, 0x4000, 0], clear_of_checks (by decide +kernel), by decide, by decide,
    by decide, by decide +kernel, by decide +kernel⟩

/-- V-AE-4: a sealed empty message. -/
def sealedEmpty : State :=
  withBytes 0x2000 (beBytes 16 0xa0784d7a4716f3feb4f64e7f4b39bf04)
    (withBytes 0x1000 (beBytes 12 0x070000004041424344454647)
      (keyed (withArgs [0x1000, 12, 0x2000, 16, 0x3000, 0, 0x4000, 0])))

theorem test_witness_aeadOpen_goodTag :
    ∃ s : State, s.Clear (.aeadOpen 0) ∧ s.len 0 ≤ 16 ∧ 16 ≤ s.len 1 ∧ s.len 3 = s.len 1 - 16 ∧
      tagOf s = (s.buf 1).drop (s.len 1 - 16) ∧
      leNat ((zeros (16 - s.len 0) ++ s.buf 0).take 4) + 1 + (s.len 1 - 16 + 63) / 64 < 2 ^ 32 :=
  ⟨sealedEmpty, clear_of_checks (by decide +kernel), by decide, by decide, by decide, by decide +kernel, by decide +kernel⟩

/-- A message of one byte and its right tag, where the data would start past the last block. -/
def sealedAtEnd : State :=
  let s := withBytes 0x2000 [0x01] (counterAt 0xfeffffff [0x1000, 16, 0x2000, 17, 0x3000, 0, 0x4000, 1])
  withBytes 0x2001 (tagOf s) s

theorem test_witness_aeadOpen_overflow :
    ∃ s : State, s.Clear (.aeadOpen 0) ∧ s.len 0 ≤ 16 ∧ 16 ≤ s.len 1 ∧ s.len 3 = s.len 1 - 16 ∧
      leNat ((zeros (16 - s.len 0) ++ s.buf 0).take 4) + 1 < 2 ^ 32 ∧ tagOf s = (s.buf 1).drop (s.len 1 - 16) ∧
      2 ^ 32 ≤ leNat ((zeros (16 - s.len 0) ++ s.buf 0).take 4) + 1 + (s.len 1 - 16 + 63) / 64 :=
  ⟨sealedAtEnd, clear_of_checks (by decide +kernel), by decide +kernel, by decide +kernel, by decide +kernel,
    by decide +kernel, by decide +kernel, by decide +kernel⟩

/-- Every command without operands runs in a ready state, whatever its context was. -/
theorem test_witness_ready : State.reset.Ready ∧ (keyed State.reset).Ready := ⟨⟨by decide, by decide⟩, by decide, by decide⟩

/-- A one-byte message before sealing. -/
def sealFirst : State := keyed (withArgs [0x1000, 12, 0x2000, 1, 0x3000, 0, 0x4000, 17])

/-- The sealed message, ready to open. -/
def openSecond : State := argsIn (after (exec (.aeadSeal 0) sealFirst)) [0x1000, 12, 0x4000, 17, 0x3000, 0, 0x5000, 1]

theorem test_witness_aeadRoundTrip : ∃ s t u : State, exec (.aeadSeal 0) s = .next t ∧ t.status = 0x00 ∧
    u.Clear (.aeadOpen 0) ∧ (u.aeadCtx 0).key = (s.aeadCtx 0).key ∧ u.buf 0 = s.buf 0 ∧ u.buf 2 = s.buf 2 ∧
    u.buf 1 = memRead t.mem (s.ptr 3) (s.len 3) ∧ u.len 3 = s.len 1 :=
  ⟨sealFirst, _, openSecond, next_of_goesOn (by decide +kernel), by decide +kernel, clear_of_checks (by decide +kernel),
    by decide +kernel, by decide +kernel, by decide +kernel, by decide +kernel, by decide +kernel⟩

/-! HMAC. -/

theorem test_witness_hmacInit :
    (∃ s : State, s.Clear (.hmacInit 0 0) ∧ s.params.hashes[(0 : BitVec 4).toNat]? = some HashEngine.sha256 ∧ s.len 0 = 64) ∧
    (∃ s : State, s.Clear (.hmacInit 0 0) ∧ s.params.hashes[(0 : BitVec 4).toNat]? = some HashEngine.sha256 ∧ s.len 0 = 65) :=
  ⟨⟨withArgs [0, 64], clear_of_checks (by decide +kernel), by rfl, by decide⟩,
    ⟨withArgs [0, 65], clear_of_checks (by decide +kernel), by rfl, by decide⟩⟩

/-- A finished context of V-H-1's key. -/
def finished : HmacCtx := { fed [] with finished := true }

theorem test_witness_hmacUpdate :
    (∃ s : State, s.Clear (.hmacUpdate 0) ∧ (s.hmacCtx 0).finished = true) ∧
    (∃ s : State, s.Clear (.hmacUpdate 0) ∧ (s.hmacCtx 0).finished = false) :=
  ⟨⟨hmacIn finished State.reset, clear_of_checks (by decide +kernel), by decide +kernel⟩,
    ⟨hmacIn (fed []) State.reset, clear_of_checks (by decide +kernel), by decide +kernel⟩⟩

theorem test_witness_hmacFinish :
    (∃ s : State, s.Clear (.hmacFinish 0) ∧ s.params.hashes[(s.hmacCtx 0).hash]? = some HashEngine.sha256 ∧ s.len 0 ≠ 32) ∧
    (∃ s : State, s.Clear (.hmacFinish 0) ∧ s.params.hashes[(s.hmacCtx 0).hash]? = some HashEngine.sha256 ∧ s.len 0 = 32 ∧
      (s.hmacCtx 0).finished = false) ∧
    (∃ s : State, s.Clear (.hmacFinish 0) ∧ s.params.hashes[(s.hmacCtx 0).hash]? = some HashEngine.sha256 ∧ s.len 0 = 32 ∧
      (s.hmacCtx 0).finished = true ∧ (s.hmacCtx 0).cached.length = 32) :=
  ⟨⟨hmacIn (fed []) (withArgs [0, 31]), clear_of_checks (by decide +kernel), by decide +kernel, by decide +kernel⟩,
    ⟨hmacIn (fed []) (withArgs [0, 32]), clear_of_checks (by decide +kernel), by decide +kernel, by decide +kernel,
      by decide +kernel⟩,
    ⟨hmacIn finished (withArgs [0, 32]), clear_of_checks (by decide +kernel), by decide +kernel, by decide +kernel,
      by decide +kernel, by decide +kernel⟩⟩

/-- HMAC_RESET, HMAC_SAVE, HMAC_RESTORE and HMAC_CLEAN_SAVED: without the capability, and with it on each kind of context. -/
theorem test_witness_hmacSaved :
    (∃ (s : State) (e : HashEngine), s.Clear (.hmacReset 0) ∧ s.Clear (.hmacSave 0) ∧ s.Clear (.hmacRestore 0) ∧
      s.Clear (.hmacCleanSaved 0) ∧ s.params.hashes[(s.hmacCtx 0).hash]? = some e ∧ e.ser = false) ∧
    (∃ s : State, s.Clear (.hmacReset 0) ∧ s.Clear (.hmacSave 0) ∧ s.Clear (.hmacRestore 0) ∧ s.Clear (.hmacCleanSaved 0) ∧
      s.params.hashes[(s.hmacCtx 0).hash]? = some HashEngine.sha256 ∧ (s.hmacCtx 0).finished = true ∧
      (s.hmacCtx 0).savedValid = false) ∧
    (∃ s : State, s.Clear (.hmacSave 0) ∧ s.Clear (.hmacRestore 0) ∧
      s.params.hashes[(s.hmacCtx 0).hash]? = some HashEngine.sha256 ∧ (s.hmacCtx 0).finished = false ∧
      (s.hmacCtx 0).savedValid = true) :=
  ⟨⟨noSer (hmacIn (fed []) State.reset), { HashEngine.sha256 with ser := false }, clear_of_checks (by decide +kernel),
      clear_of_checks (by decide +kernel), clear_of_checks (by decide +kernel), clear_of_checks (by decide +kernel),
      by decide +kernel, rfl⟩,
    ⟨hmacIn finished State.reset, clear_of_checks (by decide +kernel), clear_of_checks (by decide +kernel),
      clear_of_checks (by decide +kernel), clear_of_checks (by decide +kernel), by decide +kernel, by decide +kernel,
      by decide +kernel⟩,
    ⟨hmacIn { fed [] with savedValid := true, saved := ipad1 } State.reset, clear_of_checks (by decide +kernel),
      clear_of_checks (by decide +kernel), by decide +kernel, by decide +kernel, by decide +kernel⟩⟩

/-- A session: a key of two bytes, one UPDATE of one byte, ready to finish. -/
def sessionKeyed : State := after (exec (.hmacInit 1 0) (withBytes 0 [0x6b, 0x65] (withArgs [0, 2])))

/-- One UPDATE later. -/
def sessionFed : State := after (exec (.hmacUpdate 1) (argsIn sessionKeyed [1, 1]))

theorem test_witness_hmacSession : ∃ (key m : Bytes) (s u t : State), HmacFed 1 0 key m s ∧
    s.params.hashes[(0 : BitVec 4).toNat]? = some HashEngine.sha256 ∧ u.params = s.params ∧ u.hmacCtx 1 = s.hmacCtx 1 ∧
    exec (.hmacFinish 1) u = .next t ∧ t.status = 0x00 ∧ m.length = 1 :=
  ⟨_, _, sessionFed, argsIn sessionFed [0x100, 32], _,
    .fed [] sessionKeyed (argsIn sessionKeyed [1, 1]) sessionFed
      (.keyed (withBytes 0 [0x6b, 0x65] (withArgs [0, 2])) sessionKeyed rfl (next_of_goesOn (by decide +kernel))
        (by decide +kernel))
      rfl rfl (next_of_goesOn (by decide +kernel)) (by decide +kernel),
    by decide +kernel, rfl, rfl, next_of_goesOn (by decide +kernel), by decide +kernel, by decide +kernel⟩

/-! HKDF. -/

/-- The reference configuration with HKDF_INFO_MAX = 4. -/
def infoMax4 (s : State) : State := { s with params := { s.params with hkdfInfoMax := some 4 } }

theorem test_witness_hkdfInit :
    (∃ s : State, s.Clear (.hkdfInit 0 0) ∧ s.params.hashes[(0 : BitVec 4).toNat]? = some HashEngine.sha256 ∧
      s.params.hkdfInfoMax = some 4 ∧ 4 < s.len 2) ∧
    (∃ s : State, s.Clear (.hkdfInit 0 0) ∧ s.params.hashes[(0 : BitVec 4).toNat]? = some HashEngine.sha256 ∧
      ∀ m, s.params.hkdfInfoMax = some m → s.len 2 ≤ m) :=
  ⟨⟨infoMax4 (withArgs [0, 22, 0x20, 0, 0x30, 5]), clear_of_checks (by decide +kernel), by decide +kernel, rfl, by decide⟩,
    ⟨infoMax4 (withArgs [0, 22, 0x20, 0, 0x30, 4]), clear_of_checks (by decide +kernel), by decide +kernel,
      fun m h => by cases h; decide⟩⟩

/-- A built context, as R33 says. -/
theorem built_slotOk (p : Params) (hp : p.hashes = [HashEngine.sha256] ∧ p.hkdfInfoMax = none ∧ p.nCtx = 4) :
    HkdfSlotOk p 0 built :=
  ⟨fun _ => ⟨by rw [hp.2.2]; decide, HashEngine.sha256, by rw [hashEngine?, hp.1]; rfl, by decide +kernel,
    by rw [infoTooLong, hp.2.1], by decide, by decide, fun _ => ⟨rfl, rfl⟩, fun h => absurd h (by decide)⟩,
    fun h => absurd h (by decide)⟩

/-- A hash that cannot serialize, where HKDF needs one that can (R11). -/
def serNeeded : Params :=
  { Params.reference with hashes := [{ HashEngine.sha256 with ser := false }], hkdfRequiresSer := true }

theorem test_witness_hkdfExpand :
    (∃ s : State, s.Clear (.hkdfExpand 0) ∧ s.params.hashes[(s.hkdfCtx 0).hash]? = some HashEngine.sha256 ∧
      HkdfSlotOk s.params 0 (s.hkdfCtx 0) ∧ (32 - (s.hkdfCtx 0).pos) + (255 - (s.hkdfCtx 0).ctr) * 32 < s.len 0) ∧
    (∃ s : State, s.Clear (.hkdfExpand 0) ∧ s.params.hashes[(s.hkdfCtx 0).hash]? = some HashEngine.sha256 ∧
      HkdfSlotOk s.params 0 (s.hkdfCtx 0) ∧ s.len 0 ≤ (32 - (s.hkdfCtx 0).pos) + (255 - (s.hkdfCtx 0).ctr) * 32 ∧
      s.params.hkdfRequiresSer = false) :=
  ⟨⟨(withArgs [0x100, 8161]).setHkdf 0 built, clear_of_checks (by decide +kernel), by decide +kernel,
      by rw [hkdfCtx_set_self]; exact built_slotOk _ ⟨rfl, rfl, rfl⟩, by decide +kernel⟩,
    ⟨(withArgs [0x100, 8160]).setHkdf 0 built, clear_of_checks (by decide +kernel), by decide +kernel,
      by rw [hkdfCtx_set_self]; exact built_slotOk _ ⟨rfl, rfl, rfl⟩, by decide +kernel, rfl⟩⟩

theorem test_witness_hkdfExpand_capability :
    ∃ (s : State) (e : HashEngine), s.Clear (.hkdfExpand 0) ∧ s.params.hashes[(s.hkdfCtx 0).hash]? = some e ∧
      HkdfSlotOk s.params 0 (s.hkdfCtx 0) ∧ s.params.hkdfRequiresSer = true ∧ e.ser = false ∧
      e.digestLen - (s.hkdfCtx 0).pos < s.len 0 :=
  ⟨({ withArgs [0x100, 1] with params := serNeeded }).setHkdf 0 built, { HashEngine.sha256 with ser := false },
    clear_of_checks (by decide +kernel), by decide +kernel,
    by
      rw [hkdfCtx_set_self]
      exact ⟨fun _ => ⟨by decide, { HashEngine.sha256 with ser := false }, by rfl, by decide +kernel, by rfl, by decide,
        by decide, fun _ => ⟨rfl, rfl⟩, fun h => absurd h (by decide)⟩, fun h => absurd h (by decide)⟩,
    rfl, rfl, by decide +kernel⟩

/-- A built context with one byte asked for. -/
def expandFirst : State := (withArgs [0x100, 1]).setHkdf 0 built

/-- One piece of one byte later. -/
def expandSecond : State := after (exec (.hkdfExpand 0) expandFirst)

/-- Another context, built alike. -/
def expandOther : State := (withArgs [0x100, 1]).setHkdf 3 built

theorem test_witness_hkdfPieces : ∃ (out : Bytes) (s u v t : State), HkdfExpanded 0 s out u ∧ v.params = s.params ∧
    v.hkdfCtx 3 = s.hkdfCtx 0 ∧ v.len 0 = out.length ∧ exec (.hkdfExpand 3) v = .next t ∧ t.status = 0x00 ∧
    out.length = 1 :=
  ⟨_, expandFirst, expandSecond, expandOther, _,
    .piece [] expandFirst expandFirst expandSecond .start rfl rfl (next_of_goesOn (by decide +kernel)) (by decide +kernel),
    rfl, by rw [expandOther, expandFirst, hkdfCtx_set_self, hkdfCtx_set_self],
    by simp only [List.nil_append, memRead_length]; decide +kernel, next_of_goesOn (by decide +kernel), by decide +kernel,
    by simp only [List.nil_append, memRead_length]; decide +kernel⟩

theorem test_witness_absentSalt : HashEngine.sha256.wf = true ∧
    ∃ s t u v : State, s.params.hashes[(0 : BitVec 4).toNat]? = some HashEngine.sha256 ∧ u.params = s.params ∧
      exec (.hkdfInit 0 0) s = .next t ∧ t.status = 0x00 ∧ exec (.hkdfInit 0 0) u = .next v ∧ v.status = 0x00 ∧
      s.len 1 = 0 ∧ u.buf 1 = zeros HashEngine.sha256.digestLen ∧ u.buf 0 = s.buf 0 ∧ u.buf 2 = s.buf 2 :=
  ⟨by decide, withArgs [0, 22], _, withArgs [0, 22, 0x100, 32], _, by decide +kernel, rfl,
    next_of_goesOn (by decide +kernel), by decide +kernel, next_of_goesOn (by decide +kernel), by decide +kernel, by decide,
    by decide +kernel, by decide +kernel, by decide +kernel⟩

/-! The comparator (V-CT-1, V-CT-2, V-CT-3). -/

theorem test_witness_ctSelect :
    (∃ s : State, s.Ready ∧ 1 < (s.arg 0).toNat) ∧ (∃ s : State, s.Ready ∧ 2 ^ 32 ≤ (s.arg 1).toNat) ∧
    (∃ s : State, s.Ready ∧ 2 ^ 32 ≤ (s.arg 2).toNat) ∧
    (∃ s : State, s.Ready ∧ (s.arg 1).toNat < 2 ^ 32 ∧ (s.arg 2).toNat < 2 ^ 32 ∧ s.arg 0 = 1) ∧
    (∃ s : State, s.Ready ∧ (s.arg 1).toNat < 2 ^ 32 ∧ (s.arg 2).toNat < 2 ^ 32 ∧ s.arg 0 = 0) :=
  ⟨⟨withArgs [2], ⟨by decide, by decide⟩, by decide⟩, ⟨withArgs [0, 0x100000000], ⟨by decide, by decide⟩, by decide⟩,
    ⟨withArgs [0, 0, 0x100000000], ⟨by decide, by decide⟩, by decide⟩,
    ⟨withArgs [1, 0xFFFFFFFF], ⟨by decide, by decide⟩, by decide, by decide, by decide⟩,
    ⟨withArgs [0, 0, 0xFFFFFFFF], ⟨by decide, by decide⟩, by decide, by decide, by decide⟩⟩

theorem test_witness_ctLessOrEqual :
    (∃ s : State, s.Ready ∧ 2 ^ 31 ≤ (s.arg 0).toNat) ∧ (∃ s : State, s.Ready ∧ 2 ^ 31 ≤ (s.arg 1).toNat) ∧
    (∃ s : State, s.Ready ∧ (s.arg 0).toNat < 2 ^ 31 ∧ (s.arg 1).toNat < 2 ^ 31 ∧ (s.arg 0).toNat ≤ (s.arg 1).toNat) ∧
    (∃ s : State, s.Ready ∧ (s.arg 0).toNat < 2 ^ 31 ∧ (s.arg 1).toNat < 2 ^ 31 ∧ (s.arg 1).toNat < (s.arg 0).toNat) :=
  ⟨⟨withArgs [0x80000000, 0], ⟨by decide, by decide⟩, by decide⟩, ⟨withArgs [0, 0x80000000], ⟨by decide, by decide⟩, by decide⟩,
    ⟨withArgs [0, 0x7FFFFFFF], ⟨by decide, by decide⟩, by decide, by decide, by decide⟩,
    ⟨withArgs [0x7FFFFFFF, 0], ⟨by decide, by decide⟩, by decide, by decide, by decide⟩⟩

theorem test_witness_ctBuffers :
    (∃ s : State, s.Clear .ctCompare ∧ s.buf 0 = s.buf 1) ∧ (∃ s : State, s.Clear .ctCompare ∧ s.buf 0 ≠ s.buf 1) ∧
    (∃ s : State, s.Clear .ctEqual ∧ s.buf 0 = s.buf 1 ∧ 0 < s.len 0) ∧
    (∃ s : State, s.Clear .ctEqual ∧ s.buf 0 ≠ s.buf 1) ∧ (∃ s : State, s.Clear .ctEqual ∧ s.len 0 = 0) :=
  ⟨⟨withArgs [0, 0, 0, 0], clear_of_checks (by decide +kernel), by decide +kernel⟩,
    ⟨withArgs [0xFFF0, 16, 0, 0], clear_of_checks (by decide +kernel), by decide +kernel⟩,
    ⟨withArgs [0x100, 1, 0x100, 1], clear_of_checks (by decide +kernel), by decide +kernel, by decide⟩,
    ⟨withArgs [0x100, 1, 0x100, 2], clear_of_checks (by decide +kernel), by decide +kernel⟩,
    ⟨withArgs [0x100, 0, 0x100, 0], clear_of_checks (by decide +kernel), by decide⟩⟩

/-! Frames and invariants: a command that completes and a step, from a state that meets every invariant. -/

theorem test_witness_frame : ∃ (i : Instr) (s t : State), exec i s = .next t ∧ drawsEntropy i = false ∧
    ¬s.InOutput i 0x110 ∧ s.InOutput i 0x10F ∧ hmacTarget i = none :=
  ⟨.poly1305Auth, withArgs [0, 32, 0x300, 0, 0x100, 16], _, next_of_goesOn (by decide +kernel), rfl,
    fun ⟨o, ho, h⟩ => by cases ho; exact absurd h (by decide), ⟨2, rfl, by decide⟩, rfl⟩

theorem test_witness_memoryAndReport : ∃ s t : State, s.MemoryOk ∧ s.ReportOk ∧ step s = .next t :=
  ⟨hostOf [cmdWrite 0x00000072], _, ⟨by decide, fun c hc => by cases hc⟩,
    ⟨fun _ => ⟨rfl, by decide, fun _ _ => rfl⟩, fun h => by cases h⟩, next_of_goesOn (by decide +kernel)⟩

/-- An HMAC context with a saved state. -/
def hmacSaved : HmacCtx := { fed [9] with savedValid := true, saved := ipad1 }

/-- A finished HMAC context with its digest. -/
def hmacDone : HmacCtx :=
  { fed [9] with
    finished := true
    cached := hashOf HashEngine.sha256 (opad1 ++ hashOf HashEngine.sha256 (ipad1 ++ [9])) }

/-- An HKDF context that made its first block and handed out 10 bytes of it. -/
def oneBlock : HkdfCtx := { built with t := hkdfT HashEngine.sha256 built.prk built.info 1, pos := 10, ctr := 1 }

/-- The reset state with HMAC_RESTORE on context 0 to come. -/
def restoreNext : State := hostOf [cmdWrite 0x00000055]

/-- Contexts of every kind in use, the first and the last of the configuration among them. -/
def inUse : State :=
  ((((restoreNext.setAead 3 ⟨true, zeros 32⟩).setHmac 0 hmacSaved).setHmac 3 hmacDone).setHkdf 0 built).setHkdf 3 oneBlock

theorem inUse_aeadOk : inUse.AeadOk := by
  have hr : restoreNext.AeadOk := fun c => by
    rw [(by decide : ∀ c, State.aeadCtx restoreNext c = AeadCtx.blank) c]; exact aeadSlotOk_blank
  simpa only [inUse, setHkdf_aeadOk, setHmac_aeadOk] using
    aeadOk_setAead hr (c := 3) (x := ⟨true, zeros 32⟩) ⟨fun _ => ⟨by decide, by decide⟩, fun h => Bool.noConfusion h⟩

theorem hmacSaved_slotOk : HmacSlotOk Params.reference 0 hmacSaved :=
  ⟨fun _ => ⟨by decide, HashEngine.sha256, rfl, by decide +kernel, by decide +kernel, ⟨[9], rfl⟩, fun _ => rfl,
    fun h => Bool.noConfusion h, fun h => Bool.noConfusion h, fun _ => ⟨[], List.append_nil _⟩⟩, fun h => Bool.noConfusion h⟩

theorem hmacDone_slotOk : HmacSlotOk Params.reference 3 hmacDone :=
  ⟨fun _ => ⟨by decide, HashEngine.sha256, rfl, by decide +kernel, by decide +kernel, ⟨[9], rfl⟩,
    fun h => Bool.noConfusion h, fun _ => by simp only [hmacDone, fed], fun _ => rfl, fun h => Bool.noConfusion h⟩,
    fun h => Bool.noConfusion h⟩

theorem inUse_hmacOk : inUse.HmacOk := by
  have hr : restoreNext.HmacOk := fun c => by
    rw [(by decide : ∀ c, State.hmacCtx restoreNext c = HmacCtx.blank) c]; exact hmacSlotOk_blank
  simpa only [inUse, setHkdf_hmacOk] using
    hmacOk_setHmac (c := 3) (hmacOk_setHmac (c := 0) ((setAead_hmacOk _).mpr hr) hmacSaved_slotOk) hmacDone_slotOk

theorem oneBlock_slotOk : HkdfSlotOk Params.reference 3 oneBlock :=
  ⟨fun _ => ⟨by decide, HashEngine.sha256, rfl, by decide +kernel, rfl, by decide, by decide, fun h => Nat.noConfusion h,
    fun _ => by simp only [oneBlock]⟩, fun h => Bool.noConfusion h⟩

theorem inUse_hkdfOk : inUse.HkdfOk := by
  have hr : restoreNext.HkdfOk := fun c => by
    rw [(by decide : ∀ c, State.hkdfCtx restoreNext c = HkdfCtx.blank) c]; exact hkdfSlotOk_blank
  exact hkdfOk_setHkdf (c := 3) (hkdfOk_setHkdf (c := 0) hr (built_slotOk _ ⟨rfl, rfl, rfl⟩)) oneBlock_slotOk

theorem test_witness_contexts : ∃ s t : State, s.AeadOk ∧ s.HmacOk ∧ s.HkdfOk ∧ step s = .next t ∧
    (s.aeadCtx 3).valid = true ∧ (s.hmacCtx 3).finished = true ∧ (s.hmacCtx 0).savedValid = true ∧ (s.hkdfCtx 3).ctr = 1 ∧
    (s.hkdfCtx 1).valid = false :=
  ⟨inUse, _, inUse_aeadOk, inUse_hmacOk, inUse_hkdfOk, next_of_goesOn (by decide +kernel), by decide +kernel,
    by decide +kernel, by decide +kernel, by decide +kernel, by decide +kernel⟩

end Sys2Proof.Tests
end

section
/-! SUPPORT and CERTIFICATES. The fields of the words the core reports, FAULT and CONFIG, read back out of them (spec 10_state.md
R27 to R29). -/

namespace Sys2Proof.Machine

/-! Reading a field out of a word that was put together with OR. -/

/-- A field put at bit `k` reads back at bit `k`. -/
theorem extractLsb'_field_self {n m : Nat} (x : BitVec m) (k : Nat) (h : k + m ≤ n) :
    (x.zeroExtend n <<< k).extractLsb' k m = x := by
  ext j hj
  have hk : k + j < n := by omega
  simp [hk, BitVec.getLsbD_eq_getElem hj]

/-- A field of `m` bits put at bit `k` is not seen in bits that are all below or all above it. -/
theorem extractLsb'_field_disjoint {n m : Nat} (x : BitVec m) (k j l : Nat) (h : j + l ≤ k ∨ k + m ≤ j) :
    (x.zeroExtend n <<< k).extractLsb' j l = 0 := by
  ext b hb
  rcases h with h | h
  · have hk : j + b < k := by omega
    simp [hk]
  · have hm : x.getLsbD (j + b - k) = false := BitVec.getLsbD_of_ge _ _ (by omega)
    simp [hm]

/-- A single bit is a field of one bit. -/
theorem getLsbD_of_extractLsb' {n : Nat} {x : BitVec n} {j : Nat} {b : Bool} (h : x.extractLsb' j 1 = BitVec.ofBool b) :
    x.getLsbD j = b := by
  simpa using congrArg (·.getLsbD 0) h

/-! FAULT (R27, R28, R230). -/

/-- The FAULT word as four fields side by side (R27). -/
theorem faultWord_eq_fields (w : Word) (c : FaultCause) :
    faultWord w c = (1#1).zeroExtend 32 <<< 31 ||| (wordCtx w).zeroExtend 32 <<< 16 ||| (wordOp w).zeroExtend 32 <<< 8 |||
      (causeCode c).zeroExtend 32 <<< 0 := by
  simp [faultWord]

/-- Bits 30 to 20 of FAULT read 0, and CTX, OP and CAUSE are those of the command word and the cause (R27, R28). -/
theorem faultWord_fields (w : Word) (c : FaultCause) :
    (faultWord w c).extractLsb' 20 11 = 0 ∧ (faultWord w c).extractLsb' 16 4 = wordCtx w ∧
      (faultWord w c).extractLsb' 8 8 = wordOp w ∧ (faultWord w c).extractLsb' 0 8 = causeCode c := by
  simp (disch := omega) only [faultWord_eq_fields, BitVec.extractLsb'_or, extractLsb'_field_self,
    extractLsb'_field_disjoint, BitVec.ofNat_eq_ofNat, BitVec.or_zero, BitVec.zero_or, and_self]

/-- A cause is one of the six (R28). -/
theorem causeCode_range (c : FaultCause) : 1 ≤ (causeCode c).toNat ∧ (causeCode c).toNat ≤ 6 := by cases c <;> decide

/-- Settles O17: each field of the FAULT word reads back what was put there, since the others lie beside it. -/
theorem faultWordFields : Obligations.FaultWordFields := fun w c => by
  obtain ⟨hzero, hctx, hop, hcause⟩ := faultWord_fields w c
  exact ⟨faultF_faultWord w c, hzero, hctx, hop, hcause.trans (by cases c <;> rfl)⟩

/-! CONFIG (R29). -/

/-- CONFIG as four fields side by side (R29). -/
theorem configWord_eq_fields (p : Params) :
    configWord p = (BitVec.ofNat 5 p.nCtx).zeroExtend 32 <<< 0 ||| (BitVec.ofNat 5 p.hashes.length).zeroExtend 32 <<< 8 |||
      (BitVec.ofBool p.entropyAvailable).zeroExtend 32 <<< 16 ||| (BitVec.ofNat 7 p.addrW).zeroExtend 32 <<< 24 := by
  simp [configWord]

/-- The fields of CONFIG and its zero bits; bit 16 and bit 31 as fields of one bit (R29). -/
theorem configWord_fields (p : Params) :
    (configWord p).extractLsb' 0 5 = BitVec.ofNat 5 p.nCtx ∧ (configWord p).extractLsb' 5 3 = 0 ∧
      (configWord p).extractLsb' 8 5 = BitVec.ofNat 5 p.hashes.length ∧ (configWord p).extractLsb' 13 3 = 0 ∧
      (configWord p).extractLsb' 16 1 = BitVec.ofBool p.entropyAvailable ∧ (configWord p).extractLsb' 17 7 = 0 ∧
      (configWord p).extractLsb' 24 7 = BitVec.ofNat 7 p.addrW ∧ (configWord p).extractLsb' 31 1 = 0 := by
  simp (disch := omega) only [configWord_eq_fields, BitVec.extractLsb'_or, extractLsb'_field_self,
    extractLsb'_field_disjoint, BitVec.ofNat_eq_ofNat, BitVec.or_zero, BitVec.zero_or, and_self]

/-- The numbers of a well-formed configuration fit the fields of CONFIG (R6 to R8). -/
theorem params_bounds {p : Params} (h : p.wf = true) : p.addrW ≤ 64 ∧ p.nCtx ≤ 16 ∧ p.hashes.length ≤ 16 := by
  simp only [Params.wf, Bool.and_eq_true, decide_eq_true_eq] at h
  omega

end Sys2Proof.Machine
end

section
/-! SUPPORT and CERTIFICATES. What a command keeps, and what one step can do, said once for all accesses of the host (spec
10_state.md R20 to R23, R38; 20_memory.md R50, R59; 60_exceptions.md R231; 70_reset_and_hazards.md R251). -/

namespace Sys2Proof.Machine

variable {s t u : State} {i : Instr}

/-! What a command leaves unchanged (R22, R38, R59, R76). -/

/-- A completed command writes memory only in its output buffer. -/
theorem completesWithin_get (h : CompletesWithin i s t) (a : Nat) (ha : ¬s.InOutput i a) :
    Memory.get t.mem a = Memory.get s.mem a := by
  obtain ⟨-, hmem | ⟨o, bs, ho, hmem⟩, -⟩ := h
  · rw [hmem]
  · have hout : a < s.ptr o ∨ s.ptr o + (bs.take (s.len o)).length ≤ a := by
      by_contra hin
      have hlen : (bs.take (s.len o)).length ≤ s.len o := List.length_take_le _ _
      exact ha ⟨o, ho, by omega, by omega⟩
    rw [hmem, get_memWrite_outside _ _ _ _ hout]

/-- Settles O55: a completed command stays within its effects, and an error and a fault write the report alone. -/
theorem commandFrame : Obligations.CommandFrame := by
  intro i s t h
  obtain ⟨-, ⟨-, r, u, hb, rfl⟩ | ⟨-, e, r, -, rfl⟩ | ⟨c, rfl⟩⟩ := exec_next h
  · obtain ⟨hu, -, -, -, -, hent⟩ := bodyOf_done hb
    refine ⟨?_, ?_, ?_, ?_, ?_, ?_, fun a ha => completesWithin_get (bodyOf_done hb) a ha, hent⟩ <;> rw [hu] <;> rfl
  · exact ⟨rfl, rfl, rfl, rfl, rfl, rfl, fun _ _ => rfl, fun _ => ⟨rfl, rfl⟩⟩
  · exact ⟨rfl, rfl, rfl, rfl, rfl, rfl, fun _ _ => rfl, fun _ => ⟨rfl, rfl⟩⟩

theorem exec_params (h : exec i s = .next t) : t.params = s.params := (commandFrame i s t h).1

/-- A property that a report and a fault keep, and that the command keeps when it completes, its next state has (R220). -/
theorem exec_keeps {P : State → Prop} (hreport : ∀ u code r, P u → P (u.report code r))
    (hfault : ∀ u w c, P u → P (u.enterFault w c)) (hdone : ∀ r u, s.Clear i → bodyOf i s = .done r u → P u)
    (he : exec i s = .next t) (hs : P s) : P t := by
  obtain ⟨-, ⟨hcl, r, u, hb, rfl⟩ | ⟨-, e, r, -, rfl⟩ | ⟨c, rfl⟩⟩ := exec_next he
  · exact hreport _ _ _ (hdone r u hcl hb)
  · exact hreport _ _ _ hs
  · exact hfault _ _ _ hs

/-! What one access of the host can do. -/

/-- What the access `a` can make of the state `u`, in which it is no longer to come. -/
inductive AccessEffect : (a : HostAction) → (u t : State) → Prop where
  /-- A write to a read-only register (R38), or to CMD in the fault state (R231). -/
  | ignored (offset width : Nat) (v : DWord) (u : State) : AccessEffect (.regWrite offset width v) u u
  /-- A write to an argument register (R22). -/
  | argWritten (offset width : Nat) (v : DWord) (u : State) (j : Fin 8) :
      AccessEffect (.regWrite offset width v) u (u.setArg j v)
  /-- A CMD write of a word that does not decode (R80). -/
  | illegal (offset width : Nat) (v : DWord) (u : State) (w : Word) (hf : u.faulted = false) :
      AccessEffect (.regWrite offset width v) u (State.report { u with cmd := w } (errorCode .illegalCommand) 0)
  /-- A CMD write of a word that decodes (R23). -/
  | command (offset width : Nat) (v : DWord) (u t : State) (w : Word) (i : Instr) (hf : u.faulted = false)
      (hd : decode u.params w = .ok i) (he : exec i { u with cmd := w } = .next t) :
      AccessEffect (.regWrite offset width v) u t
  /-- A register read (R38). -/
  | read (offset width : Nat) (u : State) (r : Reg) :
      AccessEffect (.regRead offset width) u { u with readData := readReg u r }
  /-- A write to host memory, inside it (R50). -/
  | memWritten (a : Nat) (bs : Bytes) (u : State) (h : a + bs.length ≤ 2 ^ u.params.addrW) :
      AccessEffect (.memWrite a bs) u { u with mem := memWrite u.mem a bs }
  /-- A reset between commands (R252). -/
  | reset (u : State) : AccessEffect .reset u u.resetCore
  /-- A reset where no command runs: in the fault state, or at a word that does not decode (R231, R251). -/
  | resetIdle (w : Word) (u : State) : AccessEffect (.resetDuring w) u u.resetCore
  /-- A reset inside a command, which leaves its output buffer open (R251). -/
  | resetTorn (w : Word) (u : State) (i : Instr) : AccessEffect (.resetDuring w) u (u.tearOutput i).resetCore

theorem writeCmd_next {w : Word} (h : writeCmd w u = .next t) :
    (u.faulted = true ∧ t = u) ∨
      (u.faulted = false ∧ t = State.report { u with cmd := w } (errorCode .illegalCommand) 0) ∨
      (u.faulted = false ∧ ∃ i, decode u.params w = .ok i ∧ exec i { u with cmd := w } = .next t) := by
  unfold writeCmd at h
  split at h
  · rename_i hf
    cases h
    exact .inl ⟨hf, rfl⟩
  · rename_i hf
    have hf : u.faulted = false := by simpa using hf
    split at h
    · rename_i i hd
      exact .inr (.inr ⟨hf, i, hd, h⟩)
    · cases h
      exact .inr (.inl ⟨hf, rfl⟩)

/-- An access of a register that answers a next state names one, and is a write to it or a read of it (R61). -/
theorem hostAccess_effect {a : HostAction} (h : hostAccess a u = .next t) : AccessEffect a u t := by
  cases a with
  | regWrite offset width v =>
    simp only [hostAccess] at h
    split at h
    · rename_i r _
      cases r with
      | cmd =>
        obtain ⟨-, rfl⟩ | ⟨hf, rfl⟩ | ⟨hf, i, hd, he⟩ := writeCmd_next h
        · exact .ignored ..
        · exact .illegal _ _ _ _ _ hf
        · exact .command _ _ _ _ _ _ _ hf hd he
      | arg j => cases h; exact .argWritten ..
      | status => cases h; exact .ignored ..
      | result => cases h; exact .ignored ..
      | fault => cases h; exact .ignored ..
      | config => cases h; exact .ignored ..
    · cases h
  | regRead offset width =>
    simp only [hostAccess] at h
    split at h <;> cases h
    exact .read ..
  | memWrite addr data =>
    simp only [hostAccess] at h
    split at h <;> cases h
    exact .memWritten _ _ _ ‹_›
  | reset => cases h; exact .reset ..
  | resetDuring w =>
    cases h
    obtain ⟨-, i, -, hc⟩ | ⟨-, hc⟩ := cutShort_cases w u
    · rw [hc]; exact .resetTorn ..
    · rw [hc]; exact .resetIdle ..

/-- A step is idle, or takes the host's next access (R20). -/
theorem step_effect (h : step s = .next t) :
    (s.host = [] ∧ t = s) ∨ ∃ a rest, s.host = a :: rest ∧ AccessEffect a { s with host := rest } t := by
  have hw := step_next_wf h
  cases hh : s.host with
  | nil =>
    rw [step_idle hw hh] at h
    cases h
    exact .inl ⟨rfl, rfl⟩
  | cons a rest =>
    rw [step_access hw hh] at h
    exact .inr ⟨a, rest, rfl, hostAccess_effect h⟩

/-- A property that no access can break, and that does not look at the accesses to come, every step keeps. -/
theorem step_keeps {P : State → Prop} (hhost : ∀ u rest, P u → P { u with host := rest })
    (haccess : ∀ a u t, u.params.wf = true → AccessEffect a u t → P u → P t) (h : step s = .next t) (hs : P s) : P t := by
  have hw : s.params.wf = true := step_next_wf h
  obtain ⟨-, rfl⟩ | ⟨a, rest, -, he⟩ := step_effect h
  · exact hs
  · exact haccess a { s with host := rest } t hw he (hhost s rest hs)

/-! The configuration (R6 to R12, R29). -/

theorem tearOutput_params (s : State) (i : Instr) : (s.tearOutput i).params = s.params := by
  obtain ⟨mem, torn, he, -⟩ := tearOutput_spec s i
  rw [he]

/-- No access changes the configuration. -/
theorem accessEffect_params {a : HostAction} (h : AccessEffect a u t) : t.params = u.params := by
  cases h with
  | command _ _ _ _ _ w i _ _ he => exact (exec_params he).trans rfl
  | resetTorn w _ i => exact tearOutput_params u i
  | _ => rfl

theorem step_params (h : step s = .next t) : t.params = s.params :=
  step_keeps (P := fun u => u.params = s.params) (fun _ _ hu => hu)
    (fun _ _ _ _ he hu => (accessEffect_params he).trans hu) h rfl

/-- Settles O13: the numbers of a well-formed configuration fit their fields, and CONFIG is computed from the configuration,
which no step changes. -/
theorem configRegister : Obligations.ConfigRegister := by
  refine ⟨fun s hw => ?_, fun s t h => congrArg configWord (step_params h)⟩
  obtain ⟨haddr, hctx, hhash⟩ := params_bounds hw
  obtain ⟨f0, f5, f8, f13, f16, f17, f24, f31⟩ := configWord_fields s.params
  refine ⟨?_, f5, ?_, f13, getLsbD_of_extractLsb' f16, f17, ?_, getLsbD_of_extractLsb' (b := false) f31⟩
  · rw [State.config, f0, BitVec.toNat_ofNat]; omega
  · rw [State.config, f8, BitVec.toNat_ofNat]; omega
  · rw [State.config, f24, BitVec.toNat_ofNat]; omega

/-! The register interface (R22, R38, R60). -/

/-- Argument register `j` stands at offset `0x08 + 8 j` and is 8 bytes wide (R38, R60). -/
theorem accessed_arg (j : Fin 8) : accessed (0x08 + 8 * j.val) 8 = some (.arg j) := by revert j; decide

theorem hostAccess_regWrite {offset width : Nat} {r : Reg} (h : accessed offset width = some r) (v : DWord) :
    hostAccess (.regWrite offset width v) u = writeReg r v u := by simp only [hostAccess, h]

theorem hostAccess_regRead {offset width : Nat} {r : Reg} (h : accessed offset width = some r) :
    hostAccess (.regRead offset width) u = .next { u with readData := readReg u r } := by simp only [hostAccess, h]

/-- Settles O11, clause by clause, from what an access of each register and of memory does. -/
theorem hostAccesses : Obligations.HostAccesses := by
  intro s rest hw
  refine ⟨fun j v hh => ?_, fun offset width v hmem hh => ?_, fun offset width v hmem hh => ?_, fun j hh => ?_,
    fun a bs ha hh => ?_⟩
  · refine ⟨State.setArg { s with host := rest } j v, ?_, arg_setArg_self _ j v,
      fun k hk => arg_setArg_ne _ j k v (Ne.symm hk), rfl⟩
    rw [step_access hw hh, hostAccess_regWrite (accessed_arg j), writeReg]
  · rw [step_access hw hh]
    simp only [List.mem_cons, Prod.mk.injEq, List.not_mem_nil, or_false] at hmem
    obtain ⟨rfl, rfl⟩ | ⟨rfl, rfl⟩ | ⟨rfl, rfl⟩ | ⟨rfl, rfl⟩ := hmem <;> rfl
  · rw [step_access hw hh]
    simp only [List.mem_cons, Prod.mk.injEq, List.not_mem_nil, or_false] at hmem
    obtain ⟨rfl, rfl, rfl⟩ | ⟨rfl, rfl, rfl⟩ | ⟨rfl, rfl, rfl⟩ | ⟨rfl, rfl, rfl⟩ | ⟨rfl, rfl, rfl⟩ := hmem <;> rfl
  · rw [step_access hw hh, hostAccess_regRead (accessed_arg j)]; rfl
  · refine ⟨{ s with host := rest, mem := memWrite s.mem a bs }, ?_, memRead_memWrite s.mem a bs,
      fun x hx => get_memWrite_outside s.mem a bs x hx, rfl⟩
    rw [step_access hw hh]
    simp only [hostAccess, if_pos ha]

/-- A CMD write outside the fault state runs the command its word decodes to (R23). -/
theorem writeCmd_decoded {w : Word} (hf : u.faulted = false) (hd : decode u.params w = .ok i) :
    writeCmd w u = exec i { u with cmd := w } := by simp [writeCmd, hf, hd]

/-- Settles O6: the step takes the CMD write, and the write runs the command. -/
theorem stepRunsDecodedCommand : Obligations.StepRunsDecodedCommand := by
  intro s w rest i ⟨hw, hf⟩ hh hd
  rw [step_access hw hh, hostAccess_cmdWrite]
  exact writeCmd_decoded (u := { s with host := rest }) hf hd

end Sys2Proof.Machine
end

section
/-! CERTIFICATE. Every step keeps host memory canonical inside the address space, and STATUS, RESULT and FAULT in agreement (spec
10_state.md R24 to R28; 20_memory.md R50, R52; 60_exceptions.md R221, R230). -/

namespace Sys2Proof.Machine

variable {s t u : State} {i : Instr}

/-! Host memory (R50). -/

/-- A write inside the address space keeps memory in order, whatever else the state changes. -/
theorem memoryOk_memWrite {p : Nat} {bs : Bytes} (h : s.MemoryOk) (hparams : t.params = s.params)
    (hmem : t.mem = memWrite s.mem p bs) (hp : bs = [] ∨ p + bs.length ≤ 2 ^ s.params.addrW) : t.MemoryOk := by
  obtain ⟨hwf, hin⟩ := h
  refine ⟨by rw [hmem]; exact wf_memWrite _ _ _ hwf, fun cell hcell => ?_⟩
  rw [hmem] at hcell
  rw [hparams]
  obtain hb | hc := mem_memWrite hcell
  · obtain rfl | hp := hp
    · simp only [List.length_nil] at hb; omega
    · omega
  · exact hin cell hc

/-- A completed command writes an admissible buffer, which lies in the address space (R52). -/
theorem completesWithin_memoryOk (hcl : s.Clear i) (hc : CompletesWithin i s t) (h : s.MemoryOk) : t.MemoryOk := by
  obtain ⟨-, hbuf, -⟩ := hcl
  obtain ⟨ht, hmem, -⟩ := hc
  have hparams : t.params = s.params := by rw [ht]
  obtain hmem | ⟨o, bs, ho, hmem⟩ := hmem
  · exact memoryOk_memWrite (p := 0) (bs := []) h hparams hmem (.inl rfl)
  · refine memoryOk_memWrite h hparams hmem ?_
    have hdesc : o ∈ descriptors i := by simp [descriptors, ho]
    obtain hlen | ⟨hlen, -⟩ := hbuf o hdesc
    · exact .inl (by rw [hlen, List.take_zero])
    · have htake := List.length_take_le (s.len o) bs
      exact .inr (by omega)

theorem exec_memoryOk (he : exec i s = .next t) (h : s.MemoryOk) : t.MemoryOk :=
  exec_keeps (fun _ _ _ hu => hu) (fun _ _ _ hu => hu)
    (fun _ _ hcl hb => completesWithin_memoryOk hcl (bodyOf_done hb) h) he h

theorem accessEffect_memoryOk {a : HostAction} (he : AccessEffect a u t) (h : u.MemoryOk) : t.MemoryOk := by
  cases he with
  | command _ _ _ _ _ w i _ _ he => exact exec_memoryOk he h
  | memWritten a bs _ ha => exact memoryOk_memWrite h rfl rfl (.inr ha)
  | resetTorn w _ i =>
    obtain ⟨-, -, -, -, hok⟩ := tearOutput_spec u i
    exact hok h
  | _ => exact h

/-! STATUS, RESULT and FAULT (R24 to R28). -/

/-- The code of an error is one of 0x01 to 0x09 (R25). -/
theorem errorCode_range (e : ErrorKind) : 1 ≤ (errorCode e).toNat ∧ (errorCode e).toNat ≤ 9 := by cases e <;> decide

/-- STATUS holds its code (R24). -/
theorem statusWord_toNat (code : BitVec 8) : (statusWord code).toNat = code.toNat := by
  have := code.isLt
  simp only [statusWord, BitVec.truncate_eq_setWidth, BitVec.toNat_setWidth]
  omega

/-- Out of the fault state a report is in agreement when its code is one of R25, and its RESULT one of R221. -/
theorem reportOk_report {code : BitVec 8} {r : DWord} (hf : s.faulted = false) (h : s.ReportOk) (hcode : code.toNat ≤ 9)
    (hr : code = codeOk ∨ code = errorCode .destinationLengthMismatch ∨ r = 0) : (s.report code r).ReportOk := by
  refine ⟨fun _ => ⟨(h.1 hf).1, by rw [report_status, statusWord_toNat]; exact hcode, fun h0 h3 => ?_⟩,
    fun ht => absurd (hf.symm.trans ht) (by decide)⟩
  obtain rfl | rfl | rfl := hr
  · exact absurd rfl h0
  · exact absurd rfl h3
  · rfl

/-- A fault leaves the words of R230. -/
theorem reportOk_enterFault (w : Word) (c : FaultCause) : (s.enterFault w c).ReportOk := by
  obtain ⟨hzero, -, -, hcause⟩ := faultWord_fields w c
  refine ⟨fun hf => absurd ((enterFault_faulted s w c).symm.trans hf) (by decide), fun _ => ⟨rfl, rfl, hzero, ?_⟩⟩
  rw [enterFault_fault, hcause]
  exact causeCode_range c

theorem reportOk_resetCore (s : State) : s.resetCore.ReportOk :=
  ⟨fun _ => ⟨rfl, Nat.zero_le 9, fun h => absurd rfl h⟩, fun hf => absurd ((resetCore_faulted s).symm.trans hf) (by decide)⟩

/-- A completed command leaves the report as it was until it is written at the end. -/
theorem completesWithin_reportOk (hc : CompletesWithin i s t) (h : s.ReportOk) : t.ReportOk := by
  obtain ⟨ht, -⟩ := hc
  rw [ht]
  exact h

theorem exec_reportOk (he : exec i s = .next t) (h : s.ReportOk) : t.ReportOk := by
  obtain ⟨⟨-, hf⟩, ⟨-, r, u, hb, rfl⟩ | ⟨-, e, r, hb, rfl⟩ | ⟨c, rfl⟩⟩ := exec_next he
  · have hc := bodyOf_done hb
    have huf : u.faulted = false := by obtain ⟨hu, -⟩ := hc; rw [hu]; exact hf
    exact reportOk_report huf (completesWithin_reportOk hc h) (by decide) (.inl rfl)
  · refine reportOk_report hf h (errorCode_range e).2 (.inr ?_)
    obtain hr | ⟨-, rfl⟩ := bodyOf_raise hb
    · exact .inr hr
    · exact .inl rfl
  · exact reportOk_enterFault _ _

theorem accessEffect_reportOk {a : HostAction} (he : AccessEffect a u t) (h : u.ReportOk) : t.ReportOk := by
  cases he with
  | command _ _ _ _ _ w i _ _ he => exact exec_reportOk he h
  | illegal _ _ _ _ w hf => exact reportOk_report (s := { u with cmd := w }) hf h (by decide) (.inr (.inr rfl))
  | reset => exact reportOk_resetCore _
  | resetIdle => exact reportOk_resetCore _
  | resetTorn => exact reportOk_resetCore _
  | _ => exact h

/-- Settles O57: both properties are kept by every access, so by every step. -/
theorem stepKeepsMemoryAndReport : Obligations.StepKeepsMemoryAndReport := fun _ _ hmem hrep hstep =>
  step_keeps (P := fun u => u.MemoryOk ∧ u.ReportOk) (fun _ _ h => h)
    (fun _ _ _ _ he ⟨hm, hr⟩ => ⟨accessEffect_memoryOk he hm, accessEffect_reportOk he hr⟩) hstep ⟨hmem, hrep⟩

end Sys2Proof.Machine
end

section
/-! CERTIFICATE. Every step keeps every AEAD, HMAC and HKDF context in the form of its rule, or blank (spec 10_state.md R31 to R33;
45_hmac.md R170 to R179; 46_hkdf.md R190 to R197). -/

namespace Sys2Proof

/-- R72, R73 by the opcode: the CTX field where the opcode uses a context, the HASH field where it takes a hash. -/
theorem instr_wf_iff (p : Params) (i : Instr) :
    i.wf p = true ↔ (opUsesCtx (opcode i) = true → p.hasCtx (ctxField i) = true) ∧
      (opUsesHash (opcode i) = true → p.hasHash (hashField i) = true) := by
  cases i <;> simp [Instr.wf, opcode, opUsesCtx, opUsesHash, ctxField, hashField]

/-- The command a word decodes to is one of the configuration (R72, R73). -/
theorem decode_wf {p : Params} {w : Word} {i : Instr} (h : decode p w = .ok i) : i.wf p = true := by
  obtain ⟨-, hi, hc, hh⟩ := decode_ok h
  obtain ⟨hop, hctx, hhash⟩ := instrOfOpcode_fields hi
  refine (instr_wf_iff p i).mpr ⟨fun hu => ?_, fun hu => ?_⟩
  · rw [hop] at hu
    rw [hctx, if_pos hu]
    rwa [ctxFieldOk, if_pos hu] at hc
  · rw [hop] at hu
    rw [hhash, if_pos hu]
    rwa [hashFieldOk, if_pos hu] at hh

end Sys2Proof

namespace Sys2Proof.Machine

variable {s t u : State} {i : Instr} {c : BitVec 4} {e : HashEngine}

/-! AEAD contexts (R31). -/

/-- A command that completes keeps the AEAD contexts: an INIT loads a key of 32 bytes, a CLEAN wipes (R150, R158). -/
theorem bodyOf_aeadOk {r : DWord} (hi : i.wf s.params = true) (hb : bodyOf i s = .done r t) (h : s.AeadOk) : t.AeadOk := by
  obtain ⟨ht, -, hframe, -⟩ := bodyOf_done hb
  have hparams : t.params = s.params := by rw [ht]
  cases i with
  | aeadInit c =>
    simp only [bodyOf, aeadInit] at hb
    split at hb
    · cases hb
    · rename_i hlen
      cases hb
      have hkey : (s.buf 0).length = 32 := by rw [buf_length]; exact not_not.mp hlen
      exact aeadOk_setAead h ⟨fun _ => ⟨of_decide_eq_true hi, hkey⟩, fun hv => Bool.noConfusion hv⟩
  | aeadClean c => cases hb; exact aeadOk_setAead h aeadSlotOk_blank
  | _ => exact fun d => by rw [hparams, hframe d nofun]; exact h d

/-! HMAC contexts (R32). -/

/-- What R32 says of a keyed context of hash `e`. -/
structure HmacKeyed (e : HashEngine) (x : HmacCtx) : Prop where
  ipad_length : x.ipad.length = e.blockSize
  opad_eq : x.opad = xorByte x.ipad 0x6A
  inner_prefix : x.ipad <+: x.inner
  cached_open : x.finished = false → x.cached = zeros e.digestLen
  cached_finished : x.finished = true → x.cached = hashOf e (x.opad ++ hashOf e x.inner)
  saved_empty : x.savedValid = false → x.saved = []
  saved_prefix : x.savedValid = true → x.ipad <+: x.saved

/-- A valid slot is one of the configuration, keyed for one of its hashes. -/
theorem hmacSlotOk_iff {p : Params} {x : HmacCtx} (hv : x.valid = true) :
    HmacSlotOk p c x ↔ c.toNat < p.nCtx ∧ ∃ e, hashEngine? p x.hash = some e ∧ HmacKeyed e x := by
  constructor
  · rintro ⟨h, -⟩
    obtain ⟨hc, e, he, h1, h2, h3, h4, h5, h6, h7⟩ := h hv
    exact ⟨hc, e, he, h1, h2, h3, h4, h5, h6, h7⟩
  · rintro ⟨hc, e, he, h1, h2, h3, h4, h5, h6, h7⟩
    exact ⟨fun _ => ⟨hc, e, he, h1, h2, h3, h4, h5, h6, h7⟩, fun hn => absurd (hv.symm.trans hn) (by decide)⟩

/-- Writing a keyed context to a slot of the configuration keeps the file good. -/
theorem hmacOk_setKeyed {x : HmacCtx} (h : s.HmacOk) (hc : c.toNat < s.params.nCtx)
    (he : hashEngine? s.params x.hash = some e) (hv : x.valid = true) (hk : HmacKeyed e x) : (s.setHmac c x).HmacOk :=
  hmacOk_setHmac h ((hmacSlotOk_iff hv).mpr ⟨hc, e, he, hk⟩)

/-- `opad` is `ipad` under the XOR of the two pad bytes (R170). -/
theorem hmacOpad_eq (e : HashEngine) (key : Bytes) : hmacOpad e key = xorByte (hmacIpad e key) 0x6A := by
  simp [hmacOpad, hmacIpad, xorByte, BitVec.xor_assoc]

/-- HMAC_INIT keys a context (R172). -/
theorem hmacKeyed_init (he : e.wf = true) (key : Bytes) (h : Nat) :
    HmacKeyed e ⟨true, h, hmacIpad e key, hmacOpad e key, hmacIpad e key, false, zeros e.digestLen, false, []⟩ where
  ipad_length := by simp [hmacIpad, hmacKeyPad_length e key he]
  opad_eq := hmacOpad_eq e key
  inner_prefix := List.prefix_rfl
  cached_open := fun _ => rfl
  cached_finished := nofun
  saved_empty := fun _ => rfl
  saved_prefix := nofun

/-- Absorbing more keeps what was absorbed (R173). -/
theorem HmacKeyed.absorb {x : HmacCtx} (hk : HmacKeyed e x) (hf : x.finished = false) (m : Bytes) :
    HmacKeyed e { x with inner := x.inner ++ m } :=
  { hk with
    inner_prefix := hk.inner_prefix.trans (List.prefix_append _ _)
    cached_finished := fun ht => absurd (hf.symm.trans ht) (by decide) }

/-- The first finish caches the digest, a later one changes nothing (R174). -/
theorem HmacKeyed.finish {x : HmacCtx} (hk : HmacKeyed e x) : HmacKeyed e (finishCtx e x) := by
  unfold finishCtx
  split
  · exact hk
  · exact { hk with cached_open := nofun, cached_finished := fun _ => rfl }

/-- Going back to an inner state that starts with `ipad` opens the context again (R175, R177). -/
theorem HmacKeyed.reopen {x : HmacCtx} (hk : HmacKeyed e x) {m : Bytes} (hm : x.ipad <+: m) :
    HmacKeyed e { x with inner := m, finished := false, cached := zeros e.digestLen } :=
  { hk with inner_prefix := hm, cached_open := fun _ => rfl, cached_finished := nofun }

/-- The inner state may be saved (R176). -/
theorem HmacKeyed.save {x : HmacCtx} (hk : HmacKeyed e x) : HmacKeyed e { x with saved := x.inner, savedValid := true } :=
  { hk with saved_empty := nofun, saved_prefix := fun _ => hk.inner_prefix }

/-- The saved state may be emptied (R178). -/
theorem HmacKeyed.cleanSaved {x : HmacCtx} (hk : HmacKeyed e x) : HmacKeyed e { x with saved := [], savedValid := false } :=
  { hk with saved_empty := fun _ => rfl, saved_prefix := nofun }

/-- A command that completes keeps the HMAC contexts (R172 to R179). -/
theorem bodyOf_hmacOk {r : DWord} (hi : i.wf s.params = true) (hcl : s.Clear i) (hb : bodyOf i s = .done r t)
    (h : s.HmacOk) : t.HmacOk := by
  obtain ⟨ht, -, -, hframe, -⟩ := bodyOf_done hb
  obtain ⟨⟨hp, -⟩, -, -, hv⟩ := hcl
  have hparams : t.params = s.params := by rw [ht]
  have hctx : ∀ d, (s.hmacCtx d).valid = true → d.toNat < s.params.nCtx ∧
      ∃ e, hashEngine? s.params (s.hmacCtx d).hash = some e ∧ HmacKeyed e (s.hmacCtx d) :=
    fun d hd => (hmacSlotOk_iff hd).mp (h d)
  cases i with
  | hmacInit c k =>
    obtain ⟨hc, -⟩ := Bool.and_eq_true_iff.mp hi
    obtain ⟨e, he, hb⟩ := withEngine_some hb nofun
    cases hb
    exact hmacOk_setKeyed h (of_decide_eq_true hc) he rfl (hmacKeyed_init (hashEngine_wf hp he) _ _)
  | hmacUpdate c =>
    obtain ⟨hc, e, he, hk⟩ := hctx c hv
    simp only [bodyOf, hmacUpdate] at hb
    split at hb <;> cases hb
    rename_i hf
    exact hmacOk_setKeyed h hc he hv (hk.absorb (by simpa using hf) _)
  | hmacFinish c =>
    obtain ⟨hc, e, he, hk⟩ := hctx c hv
    simp only [bodyOf, hmacFinish, withEngine_eq he] at hb
    split at hb <;> cases hb
    have hset : (s.setHmac c (finishCtx e (s.hmacCtx c))).HmacOk := by
      refine hmacOk_setKeyed h hc (e := e) ?_ ?_ hk.finish
      · unfold finishCtx; split <;> exact he
      · unfold finishCtx; split <;> exact hv
    exact hset
  | hmacReset c =>
    obtain ⟨hc, e, he, hk⟩ := hctx c hv
    simp only [bodyOf, hmacReset, withEngine_eq he] at hb
    split at hb <;> cases hb
    exact hmacOk_setKeyed h hc he hv (hk.reopen List.prefix_rfl)
  | hmacSave c =>
    obtain ⟨hc, e, he, hk⟩ := hctx c hv
    simp only [bodyOf, hmacSave, withEngine_eq he] at hb
    repeat' split at hb
    all_goals cases hb
    exact hmacOk_setKeyed h hc he hv hk.save
  | hmacRestore c =>
    obtain ⟨hc, e, he, hk⟩ := hctx c hv
    simp only [bodyOf, hmacRestore, withEngine_eq he] at hb
    repeat' split at hb
    all_goals cases hb
    rename_i hsaved
    exact hmacOk_setKeyed h hc he hv (hk.reopen (hk.saved_prefix (by simpa using hsaved)))
  | hmacCleanSaved c =>
    obtain ⟨hc, e, he, hk⟩ := hctx c hv
    simp only [bodyOf, hmacCleanSaved, withEngine_eq he] at hb
    split at hb <;> cases hb
    exact hmacOk_setKeyed h hc he hv hk.cleanSaved
  | hmacClean c => cases hb; exact hmacOk_setHmac h hmacSlotOk_blank
  | _ => exact fun d => by rw [hparams, hframe d nofun]; exact h d

/-! HKDF contexts (R33). -/

/-- A valid slot is one of the configuration, built for one of its hashes, with its block buffer the last block of the stream. -/
theorem hkdfSlotOk_iff {p : Params} {y : HkdfCtx} (hv : y.valid = true) :
    HkdfSlotOk p c y ↔ c.toNat < p.nCtx ∧ ∃ e, hashEngine? p y.hash = some e ∧ y.prk.length = e.digestLen ∧
      infoTooLong p y.info.length = false ∧ BlockOk e y := by
  constructor
  · rintro ⟨h, -⟩
    obtain ⟨hc, e, he, hprk, hinfo, h1, h2, h3, h4⟩ := h hv
    exact ⟨hc, e, he, hprk, hinfo, h1, h2, h3, h4⟩
  · rintro ⟨hc, e, he, hprk, hinfo, h1, h2, h3, h4⟩
    exact ⟨fun _ => ⟨hc, e, he, hprk, hinfo, h1, h2, h3, h4⟩, fun hn => absurd (hv.symm.trans hn) (by decide)⟩

/-- A context in which no block was made yet (R190). -/
theorem blockOk_fresh (e : HashEngine) (h : Nat) (prk info : Bytes) :
    BlockOk e ⟨true, h, prk, info, zeros e.digestLen, e.digestLen, 0⟩ :=
  ⟨Nat.le_refl _, Nat.zero_le _, fun _ => ⟨rfl, rfl⟩, fun h0 => absurd h0 (Nat.lt_irrefl 0)⟩

/-- A command that completes keeps the HKDF contexts: an INIT builds one, an EXPAND leaves the last block made (R190 to R197). -/
theorem bodyOf_hkdfOk {r : DWord} (hi : i.wf s.params = true) (hcl : s.Clear i) (hb : bodyOf i s = .done r t)
    (h : s.HkdfOk) : t.HkdfOk := by
  obtain ⟨ht, -, -, -, hframe, -⟩ := bodyOf_done hb
  obtain ⟨⟨hp, -⟩, -, -, hv⟩ := hcl
  have hparams : t.params = s.params := by rw [ht]
  cases i with
  | hkdfInit c k =>
    obtain ⟨hc, -⟩ := Bool.and_eq_true_iff.mp hi
    obtain ⟨e, he, hb⟩ := withEngine_some hb nofun
    split at hb <;> cases hb
    rename_i hinfo
    refine hkdfOk_setHkdf h ((hkdfSlotOk_iff rfl).mpr ⟨of_decide_eq_true hc, e, he, ?_, ?_, blockOk_fresh ..⟩)
    · exact hmac_length e _ _ (hashEngine_wf hp he)
    · rw [buf_length]; simpa using hinfo
  | hkdfExpand c =>
    obtain ⟨hc, e, he, hprk, hinfo, hblock⟩ := (hkdfSlotOk_iff hv).mp (h c)
    simp only [bodyOf, hkdfExpand, withEngine_eq he] at hb
    split at hb
    · cases hb
    · rename_i havail
      split at hb <;> cases hb
      obtain ⟨-, hsame, -, hblock'⟩ :=
        expandBytes_spec (hashEngine_wf hp he) (s.len 0) (s.hkdfCtx c) hblock (Nat.le_of_not_lt havail)
      have hset : (s.setHkdf c (expandBytes e (s.len 0) (s.hkdfCtx c)).2).HkdfOk := by
        refine hkdfOk_setHkdf h ((hkdfSlotOk_iff ?_).mpr ⟨hc, e, ?_, ?_, ?_, hblock'⟩) <;> rw [hsame] <;> assumption
      exact hset
  | hkdfClean c => cases hb; exact hkdfOk_setHkdf h hkdfSlotOk_blank
  | _ => exact fun d => by rw [hparams, hframe d nofun]; exact h d

/-! The three context files. -/

/-- Every context is in the form of its rule, or blank. -/
def State.ContextsOk (s : State) : Prop := s.AeadOk ∧ s.HmacOk ∧ s.HkdfOk

theorem exec_contextsOk (hi : i.wf s.params = true) (he : exec i s = .next t) (h : s.ContextsOk) : t.ContextsOk := by
  refine exec_keeps (fun _ _ _ hu => hu) (fun _ _ _ hu => hu) (fun r u hcl hb => ?_) he h
  obtain ⟨haead, hhmac, hhkdf⟩ := h
  exact ⟨bodyOf_aeadOk hi hb haead, bodyOf_hmacOk hi hcl hb hhmac, bodyOf_hkdfOk hi hcl hb hhkdf⟩

/-- A reset blanks every context (R250). -/
theorem resetCore_contextsOk (s : State) : s.resetCore.ContextsOk :=
  ⟨fun d => by rw [resetCore_aeadCtx]; exact aeadSlotOk_blank, fun d => by rw [resetCore_hmacCtx]; exact hmacSlotOk_blank,
    fun d => by rw [resetCore_hkdfCtx]; exact hkdfSlotOk_blank⟩

theorem accessEffect_contextsOk {a : HostAction} (he : AccessEffect a u t) (h : u.ContextsOk) : t.ContextsOk := by
  cases he with
  | command _ _ _ _ _ w i _ hd he => exact exec_contextsOk (s := { u with cmd := w }) (decode_wf hd) he h
  | reset => exact resetCore_contextsOk _
  | resetIdle => exact resetCore_contextsOk _
  | resetTorn => exact resetCore_contextsOk _
  | _ => exact h

/-- Settles O58: the commands of a word that decodes keep the contexts, a reset blanks them, and no other access writes one. -/
theorem stepKeepsContexts : Obligations.StepKeepsContexts := fun _ _ haead hhmac hhkdf hstep =>
  step_keeps (P := State.ContextsOk) (fun _ _ h => h) (fun _ _ _ _ he h => accessEffect_contextsOk he h) hstep
    ⟨haead, hhmac, hhkdf⟩

end Sys2Proof.Machine
end

section
/-! SUPPORT and CERTIFICATES. The register interface answers whole registers alone, and which faults of a command are the prologue's
(spec 20_memory.md R53, R55, R60, R61; 60_exceptions.md R230, R233). -/

namespace Sys2Proof.Machine

variable {s u : State} {i : Instr} {c d : FaultCause}

/-! Accesses of a whole register (R60, R61). -/

/-- The byte offset of a register (R60). -/
def regOffset : Reg → Nat
  | .cmd => 0x00
  | .arg j => 0x08 + 8 * j.val
  | .status => 0x48
  | .result => 0x50
  | .fault => 0x58
  | .config => 0x60

theorem regAt_some {offset : Nat} {r : Reg} (h : regAt offset = some r) : offset = regOffset r := by
  unfold regAt at h
  split at h <;> cases h <;> rfl

/-- An access that names a register is at its offset and of its width (R61). -/
theorem accessed_some {offset width : Nat} {r : Reg} (h : accessed offset width = some r) :
    offset = regOffset r ∧ width = regWidth r := by
  unfold accessed at h
  split at h
  · rename_i q hq
    split at h <;> cases h
    rename_i hw
    exact ⟨regAt_some hq, hw.symm⟩
  · cases h

/-- Settles O12: an access that named a register would be at its offset and of its width, and these are all listed. -/
theorem partialAccessRefused : Obligations.PartialAccessRefused := by
  intro s offset width v rest hw hlisted hargs
  have hnone : accessed offset width = none := by
    refine Option.eq_none_iff_forall_ne_some.mpr fun r hr => ?_
    obtain ⟨rfl, rfl⟩ := accessed_some hr
    cases r with
    | arg j => exact hargs j rfl
    | _ => exact hlisted (by decide)
  exact ⟨fun hh => by simp only [step_access hw hh, hostAccess, hnone],
    fun hh => by simp only [step_access hw hh, hostAccess, hnone]⟩

/-! Which cause the prologue names (R233 items 3 and 4). -/

theorem prologueFault_bufferFault_iff : s.prologueFault i = some .bufferFault ↔ ¬s.BuffersOk i := by
  rw [← buffersOk_iff]
  unfold State.prologueFault
  cases (descriptors i).all s.admissible <;> cases s.aliasFree i <;> cases s.contextReady i <;> simp

theorem prologueFault_aliasViolation_iff :
    s.prologueFault i = some .aliasViolation ↔ s.BuffersOk i ∧ s.AliasBroken i := by
  rw [← buffersOk_iff, ← not_not (a := s.AliasBroken i), ← aliasFree_iff]
  unfold State.prologueFault
  cases (descriptors i).all s.admissible <;> cases s.aliasFree i <;> cases s.contextReady i <;> simp

theorem exec_prologueFault (hr : s.Ready) (hp : s.prologueFault i = some c) :
    exec i s = .next (s.enterFault (encode i) c) := by
  rw [exec_eq, runCommand_prologueFault hr hp]

/-- Settles O14: the prologue finds the descriptor before anything else. -/
theorem inadmissibleDescriptorFaults : Obligations.InadmissibleDescriptorFaults := fun _ _ k hr hk hbad =>
  exec_prologueFault hr (prologueFault_bufferFault_iff.mpr fun hok => hbad (hok k hk))

/-! Where a fault comes from: the FAULT word names its cause, and no report is a fault (R25, R28, R230). -/

theorem enterFault_cause_inj {w : Word} (h : s.enterFault w c = s.enterFault w d) : c = d := by
  have hfault : faultWord w c = faultWord w d := congrArg State.fault h
  obtain ⟨-, -, -, hc⟩ := faultWord_fields w c
  obtain ⟨-, -, -, hd⟩ := faultWord_fields w d
  have hcode : causeCode c = causeCode d := by rw [← hc, ← hd, hfault]
  revert hcode
  cases c <;> cases d <;> decide

theorem report_ne_enterFault {code : BitVec 8} (hcode : code.toNat ≤ 9) (r : DWord) (w : Word) :
    u.report code r ≠ s.enterFault w c := by
  intro h
  have hstatus := congrArg (·.status.toNat) h
  simp only [report_status, enterFault_status, statusWord_toNat, codeFaulted, BitVec.reduceToNat] at hstatus
  omega

/-- A command ends with fault `c` only when the prologue names `c`, or its own checks do (R233). -/
theorem exec_enterFault (h : exec i s = .next (s.enterFault (encode i) c)) :
    s.prologueFault i = some c ∨ bodyOf i s = .fault c := by
  obtain ⟨hr, -⟩ := exec_next h
  cases hp : s.prologueFault i with
  | some d =>
    rw [exec_prologueFault hr hp] at h
    exact .inl (congrArg some (enterFault_cause_inj (Host.Outcome.next.inj h)))
  | none =>
    rw [exec_clear ⟨hr, (prologueFault_none_iff s i).mp hp⟩] at h
    cases hb : bodyOf i s with
    | done r u =>
      rw [hb] at h
      exact absurd (Host.Outcome.next.inj h) (report_ne_enterFault (by decide) r _)
    | raise e r =>
      rw [hb] at h
      exact absurd (Host.Outcome.next.inj h) (report_ne_enterFault (errorCode_range e).2 r _)
    | fault d =>
      rw [hb] at h
      exact .inr (congrArg Verdict.fault (enterFault_cause_inj (Host.Outcome.next.inj h)))
    | stop f => rw [hb] at h; cases h

/-! The faults of a command's own checks (R233 item 6). -/

theorem randomString_ne_fault (r : DWord) : randomString r s ≠ .fault c := by
  unfold randomString
  repeat' split
  all_goals nofun

/-- A command's own checks name none of the three causes of the prologue. -/
theorem bodyOf_fault (h : bodyOf i s = .fault c) :
    c = .counterOverflow ∨ c = .stateViolation ∨ c = .operandOutOfContract := by
  cases i with
  | randString => exact absurd h (randomString_ne_fault _)
  | randStringEntropy =>
    simp only [bodyOf, randStringEntropy] at h
    split at h
    · cases h
    · split at h
      · cases h
      · exact absurd h (randomString_ne_fault _)
  | hmacInit => obtain ⟨_, -, h⟩ := withEngine_some h nofun; cases h
  | hmacFinish => obtain ⟨_, -, h⟩ := withEngine_some h nofun; split at h <;> cases h
  | hmacReset => obtain ⟨_, -, h⟩ := withEngine_some h nofun; split at h <;> cases h
  | hmacSave =>
    obtain ⟨_, -, h⟩ := withEngine_some h nofun
    repeat' split at h
    all_goals cases h
    exact .inr (.inl rfl)
  | hmacRestore =>
    obtain ⟨_, -, h⟩ := withEngine_some h nofun
    repeat' split at h
    all_goals cases h
    exact .inr (.inl rfl)
  | hmacCleanSaved => obtain ⟨_, -, h⟩ := withEngine_some h nofun; split at h <;> cases h
  | hkdfInit => obtain ⟨_, -, h⟩ := withEngine_some h nofun; split at h <;> cases h
  | hkdfExpand =>
    obtain ⟨_, -, h⟩ := withEngine_some h nofun
    repeat' split at h
    all_goals cases h
  | _ =>
    simp only [bodyOf, randBytes, randUint32, chachaStream, chachaStreamXor, poly1305Auth, aeadInit, aeadSeal, aeadOpen,
      hmacUpdate, ctSelect, ctLessOrEqual] at h
    repeat' split at h
    all_goals cases h
    all_goals decide

/-- Settles O15: the prologue finds the overlap right after admissibility, and AliasViolation has no other source. -/
theorem overlappingOutputFaults : Obligations.OverlappingOutputFaults := by
  refine ⟨fun i s hr hok hbroken => exec_prologueFault hr (prologueFault_aliasViolation_iff.mpr ⟨hok, hbroken⟩),
    fun i s hfree h => ?_⟩
  obtain hp | hb := exec_enterFault h
  · obtain ⟨-, hbroken⟩ := prologueFault_aliasViolation_iff.mp hp
    exact hfree hbroken
  · obtain hc | hc | hc := bodyOf_fault hb <;> cases hc

end Sys2Proof.Machine
end

section
/-! CERTIFICATE. The decoder and the encoder are inverse to each other on the commands of a configuration, and a CMD write of a word
that does not decode writes the report alone (spec 30_encoding.md R70 to R75, R79 to R81). -/

namespace Sys2Proof

open Machine

variable {p : Params} {w : Word} {i : Instr}

/-! Decoding the word of a command (R79). -/

/-- A word with RES = 0, an opcode of the map and fields of the configuration decodes: with `decode_ok`, R79 is the decoder. -/
theorem decode_of_fields (hres : wordRes w = 0) (hi : instrOfOpcode (wordOp w) (wordCtx w) (wordHash w) = some i)
    (hc : ctxFieldOk p w = true) (hh : hashFieldOk p w = true) : decode p w = .ok i := by
  simp [decode, hres, hi, hc, hh]

/-- A command has 0 in the fields its opcode does not use (R72, R73). -/
theorem unused_fields_zero (i : Instr) :
    (opUsesCtx (opcode i) = false → ctxField i = 0) ∧ (opUsesHash (opcode i) = false → hashField i = 0) := by
  obtain ⟨-, -, -, -, hmap⟩ := Laws.Fields.all i
  obtain ⟨-, hctx, hhash⟩ := instrOfOpcode_fields hmap
  exact ⟨fun hu => by simpa [hu] using hctx, fun hu => by simpa [hu] using hhash⟩

/-- The CTX field of the word of a command of the configuration obeys R72. -/
theorem ctxFieldOk_encode (h : i.wf p = true) : ctxFieldOk p (encode i) = true := by
  obtain ⟨-, hop, hctx, -, -⟩ := Laws.Fields.all i
  rw [ctxFieldOk, hop, hctx]
  split
  next hu => exact ((instr_wf_iff p i).mp h).1 hu
  next hu => simpa using (unused_fields_zero i).1 (by simpa using hu)

/-- The HASH field of the word of a command of the configuration obeys R73. -/
theorem hashFieldOk_encode (h : i.wf p = true) : hashFieldOk p (encode i) = true := by
  obtain ⟨-, hop, -, hhash, -⟩ := Laws.Fields.all i
  rw [hashFieldOk, hop, hhash]
  split
  next hu => exact ((instr_wf_iff p i).mp h).2 hu
  next hu => simpa using (unused_fields_zero i).2 (by simpa using hu)

/-- Settles O2: the word has the command's fields in place, the opcode map reads the command back from them, and a command of the
configuration passes the checks of CTX and HASH. -/
theorem decodeOfEncode : Obligations.DecodeOfEncode := by
  intro p i hwf
  obtain ⟨hres, hop, hctx, hhash, hmap⟩ := Laws.Fields.all i
  exact decode_of_fields hres (by rw [hop, hctx, hhash, hmap]) (ctxFieldOk_encode hwf) (hashFieldOk_encode hwf)

/-! The command of a word (R79, R81). -/

/-- The command a word decodes to has the word's fields: one its opcode does not use is 0 in the word too (R72, R73). -/
theorem decode_fields (h : decode p w = .ok i) :
    opcode i = wordOp w ∧ ctxField i = wordCtx w ∧ hashField i = wordHash w := by
  obtain ⟨-, hmap, hc, hh⟩ := decode_ok h
  obtain ⟨hop, hctx, hhash⟩ := instrOfOpcode_fields hmap
  refine ⟨hop, ?_, ?_⟩
  · cases hu : opUsesCtx (wordOp w) with
    | true => simpa [hu] using hctx
    | false =>
      have hzero : wordCtx w = 0 := by simpa [ctxFieldOk, hu] using hc
      simpa [hu, hzero] using hctx
  · cases hu : opUsesHash (wordOp w) with
    | true => simpa [hu] using hhash
    | false =>
      have hzero : wordHash w = 0 := by simpa [hashFieldOk, hu] using hh
      simpa [hu, hzero] using hhash

/-- Settles O3: the word is its four fields, and they are those of the command. -/
theorem encodeOfDecode : Obligations.EncodeOfDecode := by
  intro p w i h
  obtain ⟨hop, hctx, hhash⟩ := decode_fields h
  obtain ⟨hres, -⟩ := decode_ok h
  refine ⟨?_, decode_wf h⟩
  calc encode i = wordRes w ++ wordHash w ++ wordCtx w ++ wordOp w := by rw [encode, hop, hctx, hhash, hres]; rfl
    _ = w := word_of_fields w

/-- Settles O1: a listed word that decodes is the word of a command of the reference configuration; the decoder is run on each of
the others. -/
theorem knownWordsDecode : Obligations.KnownWordsDecode :=
  have decodes (i : Instr) (h : i.wf .reference = true) : decode .reference (encode i) = .ok i := decodeOfEncode _ i h
  ⟨decodes .randBytes rfl, decodes .chachaStreamXor rfl, decodes .poly1305Auth rfl, decodes (.aeadSeal 3) rfl,
    decodes (.hmacClean 1) rfl, decodes (.hkdfInit 2 0) rfl, decodes .ctEqual rfl, rfl, rfl, rfl, rfl, rfl, rfl⟩

/-! Words that do not decode (R74, R80, R81). -/

/-- Settles O4: bit `j` is bit `j - 16` of RES, which is 0 in a word that decodes. -/
theorem reservedBitsDoNotDecode : Obligations.ReservedBitsDoNotDecode := by
  intro p w j hlo hhi hbit i h
  obtain ⟨hres, -⟩ := decode_ok h
  have hset : (wordRes w).getLsbD (j - 16) = true := by
    rw [wordRes, BitVec.getLsbD_extractLsb', Nat.add_sub_cancel' hlo, hbit, decide_eq_true (by omega : j - 16 < 16), Bool.and_true]
  simp [hres] at hset

/-- OP = 0x00 is not in the opcode map (R75). -/
theorem decode_ne_ok_of_op_zero (h : wordOp w = 0) : decode p w ≠ .ok i := by
  intro hd
  obtain ⟨-, hmap, -⟩ := decode_ok hd
  rw [h] at hmap
  cases hmap

/-- A CMD write, out of the fault state, of a word that does not decode is reported as IllegalCommand (R80). -/
theorem writeCmd_undecodable {s : State} (hf : s.faulted = false) (hd : ∀ i, decode s.params w ≠ .ok i) :
    writeCmd w s = .next (State.report { s with cmd := w } (errorCode .illegalCommand) 0) := by
  cases he : decode s.params w with
  | ok i => exact absurd he (hd i)
  | error e => simp [writeCmd, hf, he]

/-- Settles O5: the step takes the CMD write, which reports IllegalCommand; and no command has OP = 0x00. -/
theorem illegalCommandChangesOnlyTheReport : Obligations.IllegalCommandChangesOnlyTheReport := by
  refine ⟨fun s w rest ⟨hw, hf⟩ hh hd => ?_, fun p w i hop => decode_ne_ok_of_op_zero hop⟩
  rw [step_access hw hh, hostAccess_cmdWrite]
  exact writeCmd_undecodable (s := { s with host := rest }) hf hd

end Sys2Proof
end

section
/-! SUPPORT and CERTIFICATES. The random byte generator: rejection sampling, what a random string ends with, and the four commands
(spec 41_random.md R100 to R108). -/

namespace Sys2Proof.Machine

variable {s : State} {i : Instr} {r : DWord} {c j k m n : Nat}

/-! Rejection sampling (R104). -/

theorem maxByte_eq_mul (c : Nat) : maxByte c = c * (256 / c) := by
  have h := Nat.div_add_mod 256 c
  unfold maxByte
  omega

/-- Below a multiple of `c`, every index below `c` is the remainder of equally many numbers. -/
theorem count_mod_eq (hj : j < c) (n : Nat) : Nat.count (· % c = j) (c * n) = n := by
  have h := Nat.count_modEq_card (c * n) (Nat.zero_lt_of_lt hj) j
  simpa [Nat.ModEq, Nat.mod_eq_of_lt hj, Nat.zero_lt_of_lt hj] using h

/-- Counting below `n` only what is below `m ≤ n` is counting below `m`. -/
theorem count_lt_and (p : Nat → Prop) [DecidablePred p] (h : m ≤ n) : Nat.count (fun b => b < m ∧ p b) n = Nat.count p m := by
  rw [Nat.count_eq_card_filter_range, Nat.count_eq_card_filter_range]
  congr 1
  ext b
  simp only [Finset.mem_filter, Finset.mem_range]
  constructor
  · rintro ⟨-, hb⟩
    exact hb
  · rintro ⟨hb, hp⟩
    exact ⟨by omega, hb, hp⟩

/-- Settles O23: the accepted bytes are those below the multiple `c * (256 / c)` of `c`. -/
theorem rejectionSamplingIsFair : Obligations.RejectionSamplingIsFair := by
  intro c hc _
  have hmul := maxByte_eq_mul c
  have hmod := Nat.mod_lt 256 (show 0 < c by omega)
  have hle : maxByte c ≤ 256 := Nat.sub_le _ _
  refine ⟨⟨256 / c, hmul⟩, hle, by unfold maxByte; omega, fun j hj => ?_⟩
  calc ((List.range 256).filter (fun b => decide (b < maxByte c ∧ b % c = j))).length
      = Nat.count (fun b => b < maxByte c ∧ b % c = j) 256 := by rw [Nat.count, List.countP_eq_length_filter]
    _ = Nat.count (· % c = j) (maxByte c) := count_lt_and _ hle
    _ = 256 / c := by rw [hmul, count_mod_eq hj]
    _ = maxByte c / c := by rw [hmul, Nat.mul_div_cancel_left _ (by omega)]

/-! The end of a command whose own checks are known (R220, R221). -/

theorem exec_done {t : State} (h : s.Clear i) (hb : bodyOf i s = .done r t) : exec i s = .next (t.report 0x00 r) := by
  rw [exec_clear h, hb]; rfl

theorem exec_raise {e : ErrorKind} (h : s.Clear i) (hb : bodyOf i s = .raise e r) :
    exec i s = .next (s.report (errorCode e) r) := by
  rw [exec_clear h, hb]; rfl

/-- A draw and a write of as many bytes as the buffer holds change the entropy device and memory alone. -/
theorem afterDraw_writeBuf_exact (m : Nat) (o : Fin 4) (bs : Bytes) (h : bs.length = s.len o) :
    (s.afterDraw m).writeBuf o bs =
      { s with entropy := s.entropy.drop m, drawn := s.drawn + m, mem := memWrite s.mem (s.ptr o) bs } :=
  writeBuf_exact (s.afterDraw m) o bs h

/-! RAND_BYTES and RAND_UINT32 (R102, R103). -/

theorem randBytes_done (he : s.params.entropyAvailable = true) :
    randBytes s = .done 0 ((s.afterDraw (s.len 0)).writeBuf 0 (s.draw (s.len 0))) := by simp [randBytes, he]

theorem randBytes_noEntropy (he : s.params.entropyAvailable = false) :
    randBytes s = .raise .randomSourceUnavailable 0 := by simp [randBytes, he]

/-- Settles O21: the draw is as long as the buffer. -/
theorem randBytesFillsTheBuffer : Obligations.RandBytesFillsTheBuffer := by
  intro s hcl
  refine ⟨fun he => ?_, fun he => exec_raise hcl (randBytes_noEntropy he)⟩
  rw [exec_done hcl (randBytes_done he), afterDraw_writeBuf_exact _ _ _ (draw_length s _)]

theorem randUint32_done (he : s.params.entropyAvailable = true) :
    randUint32 s = .done (BitVec.ofNat 64 (leNat (s.draw 4))) (s.afterDraw 4) := by simp [randUint32, he]

theorem randUint32_noEntropy (he : s.params.entropyAvailable = false) :
    randUint32 s = .raise .randomSourceUnavailable 0 := by simp [randUint32, he]

/-- Four drawn bytes, read little-endian (R15). -/
theorem leNat_draw_four (s : State) :
    leNat (s.draw 4) = (s.entropyByte 0).toNat + 256 * (s.entropyByte 1).toNat + 65536 * (s.entropyByte 2).toNat +
      16777216 * (s.entropyByte 3).toNat := by
  have hdraw : s.draw 4 = [s.entropyByte 0, s.entropyByte 1, s.entropyByte 2, s.entropyByte 3] := rfl
  simp only [hdraw, leNat]
  omega

/-- Settles O22: four bytes read little-endian are below 2^32, so RESULT holds their value. -/
theorem randUint32ReadsFourBytes : Obligations.RandUint32ReadsFourBytes := by
  intro s hcl
  refine ⟨fun he => ?_, fun he => exec_raise hcl (randUint32_noEntropy he)⟩
  have hlt : leNat (s.draw 4) < 2 ^ 32 := by simpa using leNat_lt (s.draw 4)
  have hval : (BitVec.ofNat 64 (leNat (s.draw 4))).toNat = leNat (s.draw 4) := by
    rw [BitVec.toNat_ofNat]; omega
  exact ⟨_, hval.trans_lt hlt, hval.trans (leNat_draw_four s), exec_done hcl (randUint32_done he)⟩

/-! The random string of RAND_STRING and RAND_STRING_ENTROPY (R105, R106, R108). -/

theorem randomString_invalidCharset (r : DWord) (h : s.len 0 < 2 ∨ 256 < s.len 0) :
    randomString r s = .raise .invalidCharset 0 := by
  rw [randomString, if_pos h]

theorem randomString_noEntropy (r : DWord) (h1 : 2 ≤ s.len 0) (h2 : s.len 0 ≤ 256) (he : s.params.entropyAvailable = false) :
    randomString r s = .raise .randomSourceUnavailable 0 := by
  rw [randomString, if_neg (by omega), he]; rfl

/-- There is one first place where `f` reaches `n`. -/
theorem first_reaching_unique {f : Nat → Nat} (hk : n ≤ f k) (hk' : ∀ j, j < k → f j < n) (hm : n ≤ f m)
    (hm' : ∀ j, j < m → f j < n) : k = m :=
  le_antisymm (not_lt.mp fun h => (hk' m h).not_ge hm) (not_lt.mp fun h => (hm' k h).not_ge hk)

section
variable (hcl : s.Clear i) (hb : bodyOf i s = randomString r s) (h1 : 2 ≤ s.len 0) (h2 : s.len 0 ≤ 256)
  (he : s.params.entropyAvailable = true)
include hcl hb h1 h2 he

/-- A command that makes a random string, when `N1` draws are first accepted among `m` within the bound. -/
theorem exec_randomString_first (hlim : m ≤ drawLimit s (s.len 1)) (hlen : (acceptedDraws (s.len 0) (s.draw m)).length = s.len 1)
    (hfirst : ∀ j, j < m → (acceptedDraws (s.len 0) (s.draw j)).length < s.len 1) :
    exec i s = .next (({ s with
      entropy := s.entropy.drop m
      drawn := s.drawn + m
      mem := memWrite s.mem (s.ptr 1) (symbolsOf (s.buf 0) (acceptedDraws (s.len 0) (s.draw m))) } : State).report 0x00 r) := by
  obtain ⟨n, hdone, -, hn, hn'⟩ | ⟨-, hnone⟩ := randomString_spec r s h1 h2 he
  · obtain rfl : n = m := first_reaching_unique hn.ge hn' hlen.ge hfirst
    rw [exec_done hcl (hb.trans hdone), afterDraw_writeBuf_exact n 1 _ (by rw [symbolsOf, List.length_map, hn])]
  · exact absurd hlen (hnone m hlim).ne

/-- A command that makes a random string hangs, or completes once `N1` draws were accepted (R108). -/
theorem exec_randomString_completes_or_hangs :
    (exec i s = .fault .entropyHang ∧
      ∀ m, m ≤ drawLimit s (s.len 1) → (acceptedDraws (s.len 0) (s.draw m)).length < s.len 1) ∨
    (∃ t m, exec i s = .next t ∧ t.status = 0x00 ∧ t.result = r ∧ m ≤ drawLimit s (s.len 1) ∧ t.drawn = s.drawn + m ∧
      (acceptedDraws (s.len 0) (s.draw m)).length = s.len 1) := by
  obtain ⟨m, hdone, hlim, hm, -⟩ | ⟨hhang, hnone⟩ := randomString_spec r s h1 h2 he
  · exact .inr ⟨_, m, exec_done hcl (hb.trans hdone), rfl, rfl, hlim, rfl, hm⟩
  · exact .inl ⟨by rw [exec_clear hcl, hb, hhang]; rfl, hnone⟩

end

/-- Settles O24: RAND_STRING is the random string with RESULT 0, and two first places where `N1` draws are accepted agree. -/
theorem randStringWritesAcceptedSymbols : Obligations.RandStringWritesAcceptedSymbols := by
  intro s hcl
  refine ⟨fun hc => exec_raise hcl (randomString_invalidCharset 0 hc), fun h1 h2 =>
    ⟨fun he => ?_, fun he m hlim hlen hfirst => ?_⟩⟩
  · exact exec_raise hcl (randomString_noEntropy 0 h1 h2 he)
  · exact exec_randomString_first hcl rfl h1 h2 he hlim hlen hfirst

/-- Settles O25: RAND_STRING is the random string with RESULT 0. -/
theorem randStringCompletesOrHangs : Obligations.RandStringCompletesOrHangs := by
  intro s hcl h1 h2 he
  obtain hhang | ⟨t, m, hnext, hstatus, -, hdone⟩ := exec_randomString_completes_or_hangs hcl rfl h1 h2 he
  · exact .inl hhang
  · exact .inr ⟨t, m, hnext, hstatus, hdone⟩

/-! The length of RAND_STRING_ENTROPY (R106). -/

theorem entropyLength_eq_of_least {bits : Nat} (hc : 2 ≤ c) (hk : 2 ^ bits ≤ c ^ k) (hleast : ∀ j, j < k → c ^ j < 2 ^ bits) :
    entropyLength c bits = k := by
  obtain ⟨hreach, -, hfirst⟩ := entropyLength_spec c bits hc
  exact first_reaching_unique hreach hfirst hk hleast

theorem randStringEntropy_invalidCharset (h : s.len 0 < 2 ∨ 256 < s.len 0) :
    randStringEntropy s = .raise .invalidCharset 0 := by
  rw [randStringEntropy, if_pos h]

section
variable (h1 : 2 ≤ s.len 0) (h2 : s.len 0 ≤ 256) (hk : entropyLength (s.len 0) (s.arg 4).toNat = k)
include h1 h2 hk

theorem randStringEntropy_lengthMismatch (hlen : s.len 1 ≠ k) :
    randStringEntropy s = .raise .destinationLengthMismatch (BitVec.ofNat 64 k) := by
  simp only [randStringEntropy, hk]
  rw [if_neg (by omega), if_pos hlen]

/-- With a destination of `k` symbols RAND_STRING_ENTROPY makes a random string with RESULT `k`. -/
theorem randStringEntropy_eq_randomString (hlen : s.len 1 = k) :
    randStringEntropy s = randomString (BitVec.ofNat 64 k) s := by
  simp only [randStringEntropy, hk]
  rw [if_neg (by omega), if_neg (not_not.mpr hlen)]

end

/-- Settles O26: the least `k` is `entropyLength`, which is at most the number of bits, itself below 2^64. -/
theorem randStringEntropyLength : Obligations.RandStringEntropyLength := by
  intro s hcl
  refine ⟨fun hc => exec_raise hcl (randStringEntropy_invalidCharset hc), fun h1 h2 k hreach hleast => ?_⟩
  have hk := entropyLength_eq_of_least h1 hreach hleast
  obtain ⟨-, hbits, -⟩ := entropyLength_spec (s.len 0) (s.arg 4).toNat h1
  refine ⟨hk ▸ hbits.trans_lt (s.arg 4).isLt, fun hlen => ?_, fun hlen he => ?_, fun hlen he m hlim hm hfirst => ?_⟩
  · exact exec_raise hcl (randStringEntropy_lengthMismatch h1 h2 hk hlen)
  · exact exec_raise hcl ((randStringEntropy_eq_randomString h1 h2 hk hlen).trans (randomString_noEntropy _ h1 h2 he))
  · have hb := randStringEntropy_eq_randomString h1 h2 hk hlen
    rw [← hlen] at hlim hm hfirst
    exact exec_randomString_first hcl hb h1 h2 he hlim hm hfirst

/-- Settles O60: with a destination of `k` symbols RAND_STRING_ENTROPY is the random string with RESULT `k`. -/
theorem randStringEntropyCompletesOrHangs : Obligations.RandStringEntropyCompletesOrHangs := by
  intro s k hcl h1 h2 he hreach hleast hlen
  have hb := randStringEntropy_eq_randomString h1 h2 (entropyLength_eq_of_least h1 hreach hleast) hlen
  have hends := exec_randomString_completes_or_hangs hcl hb h1 h2 he
  rwa [hlen] at hends

end Sys2Proof.Machine
end

section
/-! SUPPORT and CERTIFICATES. The ChaCha20 stream cipher: the bytes of the keystream, what CHACHA_STREAM and CHACHA_STREAM_XOR end
with, and that the XOR undoes itself (spec 42_chacha20.md R123 to R126). -/

namespace Sys2Proof.Machine

variable {s t : State} {i : Instr} {r : DWord}

/-! The keystream (R124). -/

/-- Settles O29: the blocks stand side by side, 64 bytes each, and there are enough of them. -/
theorem keystreamBytes : Obligations.KeystreamBytes := fun key cb n => by
  refine ⟨keystream_length key cb n, fun j hj => ?_⟩
  have hblocks : j < blockCount n * 64 := by unfold blockCount; omega
  rw [keystream, List.getElem?_take_of_lt hj, getElem?_flatMap_blocks _ 64 (fun _ => chachaBlock_length _ _) _ _ hblocks,
    blockCounter]

/-! The end of a command that writes a stream (R123, R125, R126). -/

theorem exec_fault {c : FaultCause} (h : s.Clear i) (hb : bodyOf i s = .fault c) :
    exec i s = .next (s.enterFault (encode i) c) := by
  rw [exec_clear h, hb]; rfl

/-- No error reports the code of a completed command (R25). -/
theorem statusWord_errorCode_ne_zero (e : ErrorKind) : statusWord (errorCode e) ≠ 0x00 := by cases e <;> decide

/-- A completed command is one the prologue passed and whose own checks and computation completed (R220). -/
theorem exec_completed (h : exec i s = .next t) (hok : t.status = 0x00) :
    s.Clear i ∧ ∃ r u, bodyOf i s = .done r u ∧ t = u.report 0x00 r := by
  obtain ⟨-, ⟨hcl, hdone⟩ | ⟨-, e, r, -, rfl⟩ | ⟨c, rfl⟩⟩ := exec_next h
  · exact ⟨hcl, hdone⟩
  · exact absurd hok (statusWord_errorCode_ne_zero e)
  · exact absurd hok (show statusWord codeFaulted ≠ 0x00 by decide)

/-- The counter block of a nonce buffer of `N1` bytes (R123). -/
theorem counterBlock_buf (s : State) (k : Fin 4) : counterBlock (s.buf k) = zeros (16 - s.len k) ++ s.buf k := by
  rw [counterBlock, buf_length]

/-- `c0 + k`: the counter after the blocks that the N2 bytes of a stream command need (R123). -/
def nextCounter (s : State) : Nat := blockCounter (counterBlock (s.buf 1)) + blockCount (s.len 2)

/-- A stream command whose operands have the right lengths: a fault when the counter would wrap, else `bs` in its output `o`. -/
def streamVerdict (s : State) (o : Fin 4) (bs : Bytes) : Verdict :=
  if 2 ^ 32 ≤ nextCounter s then .fault .counterOverflow else .done (BitVec.ofNat 64 (nextCounter s)) (s.writeBuf o bs)

/-- A stream command either faults with CounterOverflow or writes its stream and RESULT = c0 + k (R123). -/
theorem exec_streamVerdict {o : Fin 4} {bs : Bytes} (hcl : s.Clear i) (hb : bodyOf i s = streamVerdict s o bs)
    (hlen : bs.length = s.len o) :
    (2 ^ 32 ≤ nextCounter s → exec i s = .next (s.enterFault (encode i) .counterOverflow)) ∧
    (nextCounter s < 2 ^ 32 → exec i s = .next (({ s with mem := memWrite s.mem (s.ptr o) bs } : State).report 0x00
      (BitVec.ofNat 64 (nextCounter s)))) := by
  refine ⟨fun hover => exec_fault hcl (hb.trans (if_pos hover)), fun hnext => ?_⟩
  rw [exec_done hcl (hb.trans (if_neg (by omega))), writeBuf_exact s o bs hlen]

/-! CHACHA_STREAM (R125). -/

theorem chachaStream_invalidKeyLength (hkey : s.len 0 ≠ 32) : chachaStream s = .raise .invalidKeyLength 0 := by
  rw [chachaStream, if_pos hkey]

theorem chachaStream_invalidNonceLength (hkey : s.len 0 = 32) (hnonce : 16 < s.len 1) :
    chachaStream s = .raise .invalidNonceLength 0 := by
  rw [chachaStream, if_neg (not_not.mpr hkey), if_pos hnonce]

theorem chachaStream_eq (hkey : s.len 0 = 32) (hnonce : s.len 1 ≤ 16) :
    chachaStream s = streamVerdict s 2 (keystream (s.buf 0) (counterBlock (s.buf 1)) (s.len 2)) := by
  rw [chachaStream, if_neg (not_not.mpr hkey), if_neg (by omega)]; rfl

/-- Settles O27: the two length checks, then the stream of as many bytes as D2 holds. -/
theorem chachaStreamWritesKeystream : Obligations.ChachaStreamWritesKeystream := by
  intro s hcl
  refine ⟨fun hkey => exec_raise hcl (chachaStream_invalidKeyLength hkey),
    fun hkey hnonce => exec_raise hcl (chachaStream_invalidNonceLength hkey hnonce), fun hkey hnonce => ?_⟩
  simp only [← counterBlock_buf]
  exact exec_streamVerdict hcl (chachaStream_eq hkey hnonce) (keystream_length _ _ _)

/-! CHACHA_STREAM_XOR (R126). -/

/-- What CHACHA_STREAM_XOR writes: its source XOR the keystream (R126). -/
def streamXorOutput (s : State) : Bytes :=
  xorBytes (s.buf 2) (keystream (s.buf 0) (counterBlock (s.buf 1)) (s.len 2))

@[simp] theorem streamXorOutput_length (s : State) : (streamXorOutput s).length = s.len 2 := by simp [streamXorOutput]

theorem chachaStreamXor_invalidKeyLength (hkey : s.len 0 ≠ 32) : chachaStreamXor s = .raise .invalidKeyLength 0 := by
  rw [chachaStreamXor, if_pos hkey]

theorem chachaStreamXor_invalidNonceLength (hkey : s.len 0 = 32) (hnonce : 16 < s.len 1) :
    chachaStreamXor s = .raise .invalidNonceLength 0 := by
  rw [chachaStreamXor, if_neg (not_not.mpr hkey), if_pos hnonce]

theorem chachaStreamXor_lengthMismatch (hkey : s.len 0 = 32) (hnonce : s.len 1 ≤ 16) (hdst : s.len 3 ≠ s.len 2) :
    chachaStreamXor s = .raise .destinationLengthMismatch 0 := by
  rw [chachaStreamXor, if_neg (not_not.mpr hkey), if_neg (by omega), if_pos hdst]

theorem chachaStreamXor_eq (hkey : s.len 0 = 32) (hnonce : s.len 1 ≤ 16) (hdst : s.len 3 = s.len 2) :
    chachaStreamXor s = streamVerdict s 3 (streamXorOutput s) := by
  rw [chachaStreamXor, if_neg (not_not.mpr hkey), if_neg (by omega), if_neg (not_not.mpr hdst)]; rfl

/-- Settles O28: the three length checks, then the stream of as many bytes as D2, and so D3, holds; D2 is read before D3 is
written. -/
theorem chachaStreamXorWritesXor : Obligations.ChachaStreamXorWritesXor := by
  intro s hcl
  refine ⟨fun hkey => exec_raise hcl (chachaStreamXor_invalidKeyLength hkey),
    fun hkey hnonce => exec_raise hcl (chachaStreamXor_invalidNonceLength hkey hnonce),
    fun hkey hnonce hdst => exec_raise hcl (chachaStreamXor_lengthMismatch hkey hnonce hdst), fun hkey hnonce hdst => ?_⟩
  simp only [← counterBlock_buf]
  exact exec_streamVerdict hcl (chachaStreamXor_eq hkey hnonce hdst) ((streamXorOutput_length s).trans hdst.symm)

theorem chachaStreamXor_done (h : chachaStreamXor s = .done r t) :
    s.len 3 = s.len 2 ∧ t = s.writeBuf 3 (streamXorOutput s) := by
  simp only [chachaStreamXor] at h
  repeat' split at h
  all_goals cases h
  exact ⟨not_not.mp ‹¬s.len 3 ≠ s.len 2›, rfl⟩

/-- After a completed CHACHA_STREAM_XOR the destination holds the source XOR the keystream (R126). -/
theorem memRead_of_streamXor_completed (h : exec .chachaStreamXor s = .next t) (hok : t.status = 0x00) :
    s.len 3 = s.len 2 ∧ memRead t.mem (s.ptr 3) (s.len 3) = streamXorOutput s := by
  obtain ⟨-, r, u, hb, rfl⟩ := exec_completed h hok
  obtain ⟨hdst, rfl⟩ := chachaStreamXor_done hb
  have hlen : (streamXorOutput s).length = s.len 3 := (streamXorOutput_length s).trans hdst.symm
  refine ⟨hdst, ?_⟩
  rw [report_mem, writeBuf_exact s 3 _ hlen, ← hlen, memRead_memWrite]

/-- Settles O30: both commands make the same keystream, since the data they XOR it into is equally long, and XOR with the same
bytes twice is the identity. -/
theorem streamXorTwiceIsIdentity : Obligations.StreamXorTwiceIsIdentity := by
  intro s t u v hst ht huv hv hkey hnonce hdata
  obtain ⟨-, hfirst⟩ := memRead_of_streamXor_completed hst ht
  obtain ⟨-, hsecond⟩ := memRead_of_streamXor_completed huv hv
  have hsrc : u.buf 2 = streamXorOutput s := hdata.trans hfirst
  have hlen : u.len 2 = s.len 2 := by rw [← buf_length, hsrc, streamXorOutput_length]
  calc memRead v.mem (u.ptr 3) (u.len 3)
      = xorBytes (streamXorOutput s) (keystream (s.buf 0) (counterBlock (s.buf 1)) (s.len 2)) := by
        rw [hsecond, streamXorOutput, hsrc, hkey, hnonce, hlen]
    _ = s.buf 2 := xorBytes_cancel _ _ (by simp)

end Sys2Proof.Machine
end

section
/-! SUPPORT and CERTIFICATES. The Poly1305 MAC: its Horner loop evaluates the polynomial of the blocks, and what POLY1305_AUTH ends
with (spec 43_poly1305.md R140 to R143). -/

namespace Sys2Proof.Machine

variable {s : State}

/-! The polynomial of the blocks (R141, R142). -/

/-- The number of block `j` of `m`, its padding bit directly above its last byte (R141). -/
def polyBlock (m : Bytes) (j : Nat) : Nat := leNat ((m.drop (16 * j)).take 16 ++ [0x01])

/-- `Σ n_j · r^(q − j)` over the first `q` blocks of `m`, counted from 0 (R142). -/
def polySum (r q : Nat) (m : Bytes) : Nat := ∑ j ∈ Finset.range q, polyBlock m j * r ^ (q - j)

theorem polyBlock_drop (m : Bytes) (j : Nat) : polyBlock (m.drop 16) j = polyBlock m (j + 1) := by
  rw [polyBlock, polyBlock, List.drop_drop, Nat.mul_add_one, Nat.add_comm 16]

/-- The first block has the highest power, and the blocks after it are those of the rest of the message. -/
theorem polySum_succ (r q : Nat) (m : Bytes) :
    polySum r (q + 1) m = polyBlock m 0 * r ^ (q + 1) + polySum r q (m.drop 16) := by
  simp only [polySum, polyBlock_drop]
  rw [Finset.sum_range_succ', Nat.add_comm]
  simp only [Nat.add_sub_add_right, Nat.sub_zero]

theorem polyAccumulate_succ (r q acc : Nat) (m : Bytes) :
    polyAccumulate r (q + 1) m acc = polyAccumulate r q (m.drop 16) ((acc + polyBlock m 0) * r % polyP) := rfl

/-- Horner's rule: the loop evaluates the polynomial modulo `2^130 − 5`, the accumulator being the coefficient above it. -/
theorem polyAccumulate_eq_polySum (r q acc : Nat) (m : Bytes) (hacc : acc < polyP) :
    polyAccumulate r q m acc = (acc * r ^ q + polySum r q m) % polyP := by
  induction q generalizing m acc with
  | zero => simpa [polyAccumulate, polySum] using (Nat.mod_eq_of_lt hacc).symm
  | succ q ih =>
    have hlt : (acc + polyBlock m 0) * r % polyP < polyP := Nat.mod_lt _ (by decide)
    have hstep : (acc + polyBlock m 0) * r * r ^ q + polySum r q (m.drop 16) =
        acc * r ^ (q + 1) + polySum r (q + 1) m := by
      rw [polySum_succ]; ring
    calc polyAccumulate r (q + 1) m acc
        = ((acc + polyBlock m 0) * r % polyP * r ^ q + polySum r q (m.drop 16)) % polyP := by
          rw [polyAccumulate_succ, ih _ _ hlt]
      _ = ((acc + polyBlock m 0) * r * r ^ q + polySum r q (m.drop 16)) % polyP :=
          ((Nat.mod_modEq _ _).mul_right _).add_right _
      _ = (acc * r ^ (q + 1) + polySum r (q + 1) m) % polyP := by rw [hstep]

/-- Settles O32: the loop starts at accumulator 0, so that Horner's rule leaves the polynomial of the blocks alone. -/
theorem poly1305IsPolynomial : Obligations.Poly1305IsPolynomial := by
  intro key m r q
  have hloop : polyAccumulate r q m 0 = polySum r q m % polyP := by
    rw [polyAccumulate_eq_polySum r q 0 m (by decide), Nat.zero_mul, Nat.zero_add]
  calc poly1305 key m = leBytes 16 ((polyAccumulate r q m 0 + polyS key) % 2 ^ 128) := rfl
    _ = leBytes 16 ((polySum r q m % polyP + polyS key) % 2 ^ 128) := by rw [hloop]

/-! POLY1305_AUTH (R143). -/

theorem poly1305Auth_invalidKeyLength (hkey : s.len 0 ≠ 32) : poly1305Auth s = .raise .invalidKeyLength 0 := by
  rw [poly1305Auth, if_pos hkey]

theorem poly1305Auth_lengthMismatch (hkey : s.len 0 = 32) (htag : s.len 2 ≠ 16) :
    poly1305Auth s = .raise .destinationLengthMismatch 0 := by
  rw [poly1305Auth, if_neg (not_not.mpr hkey), if_pos htag]

theorem poly1305Auth_done (hkey : s.len 0 = 32) (htag : s.len 2 = 16) :
    poly1305Auth s = .done 0 (s.writeBuf 2 (poly1305 (s.buf 0) (s.buf 1))) := by
  rw [poly1305Auth, if_neg (not_not.mpr hkey), if_neg (not_not.mpr htag)]

/-- Settles O31: the two length checks, then a write of the 16 bytes of the tag, as many as D2 holds. -/
theorem poly1305AuthWritesTag : Obligations.Poly1305AuthWritesTag := by
  intro s hcl
  refine ⟨fun hkey => exec_raise hcl (poly1305Auth_invalidKeyLength hkey),
    fun hkey htag => exec_raise hcl (poly1305Auth_lengthMismatch hkey htag), fun hkey htag => ?_⟩
  have hlen : (poly1305 (s.buf 0) (s.buf 1)).length = s.len 2 := (poly1305_length _ _).trans htag.symm
  rw [exec_done hcl (poly1305Auth_done hkey htag), writeBuf_exact s 2 _ hlen]

end Sys2Proof.Machine
end

section
/-! SUPPORT and CERTIFICATES. The AEAD: what AEAD_INIT, AEAD_SEAL, AEAD_OPEN and AEAD_CLEAN end with, and that opening what was
sealed gives the plaintext (spec 44_aead.md R150 to R160). -/

namespace Sys2Proof.Machine

variable {c d : BitVec 4} {s t : State} {r : DWord}

/-! AEAD_INIT and AEAD_CLEAN (R150, R158). -/

theorem aeadInit_invalidKeyLength (hkey : s.len 0 ≠ 32) : aeadInit c s = .raise .invalidKeyLength 0 := by
  rw [aeadInit, if_pos hkey]

theorem aeadInit_done (hkey : s.len 0 = 32) : aeadInit c s = .done 0 (s.setAead c ⟨true, s.buf 0⟩) := by
  rw [aeadInit, if_neg (not_not.mpr hkey)]

/-- Settles O33: the one length check, then the key. -/
theorem aeadInitLoadsKey : Obligations.AeadInitLoadsKey := fun _ _ hcl =>
  ⟨fun hkey => exec_raise hcl (aeadInit_invalidKeyLength hkey), fun hkey => exec_done hcl (aeadInit_done hkey)⟩

/-- Settles O36: AEAD_CLEAN has no descriptor and needs no valid context, so that a ready core runs it; the wiped context is the
blank one. -/
theorem aeadCleanWipesKey : Obligations.AeadCleanWipesKey := fun _ _ hready =>
  exec_done (clear_of_noDescriptors hready rfl rfl) rfl

/-! What the AEAD makes of a message (R151 to R153). -/

/-- The counter after the blocks that `n` bytes need, the first of them at `c0 + 1` (R152, R154). -/
def aeadNextCounter (s : State) (n : Nat) : Nat := blockCounter (counterBlock (s.buf 0)) + 1 + blockCount n

/-- What sealing makes of a plaintext: the ciphertext, then its tag (R154). -/
def aeadSealed (key cb aad plain : Bytes) : Bytes :=
  aeadCrypt key cb plain ++ aeadTag key cb aad (aeadCrypt key cb plain)

@[simp] theorem aeadSealed_length (key cb aad plain : Bytes) : (aeadSealed key cb aad plain).length = plain.length + 16 := by
  simp [aeadSealed]

theorem take_aeadSealed (key cb aad plain : Bytes) :
    (aeadSealed key cb aad plain).take plain.length = aeadCrypt key cb plain :=
  List.take_left' (aeadCrypt_length key cb plain)

theorem drop_aeadSealed (key cb aad plain : Bytes) :
    (aeadSealed key cb aad plain).drop plain.length = aeadTag key cb aad (aeadCrypt key cb plain) :=
  List.drop_left' (aeadCrypt_length key cb plain)

/-- Of bytes that are not empty the constant-time comparison answers 0 exactly when the others differ (R213). -/
theorem ctEqual_eq_zero_iff {a b : Bytes} (ha : a.length ≠ 0) : ctEqual a b = 0 ↔ a ≠ b := by
  rw [ctEqual, ctCompare_eq]
  by_cases hab : a = b
  · subst hab; simp [ha]
  · simp [hab]

/-- A buffer written with as many bytes as it holds reads back what was written (R16). -/
theorem memRead_writeBuf_exact {k : Fin 4} {bs : Bytes} (hlen : bs.length = s.len k) :
    memRead (s.writeBuf k bs).mem (s.ptr k) (s.len k) = bs := by
  rw [writeBuf_exact s k bs hlen, ← hlen, memRead_memWrite]

/-! AEAD_SEAL (R154). -/

/-- What AEAD_SEAL writes. -/
def sealOutput (c : BitVec 4) (s : State) : Bytes :=
  aeadSealed (s.aeadCtx c).key (counterBlock (s.buf 0)) (s.buf 2) (s.buf 1)

@[simp] theorem sealOutput_length (c : BitVec 4) (s : State) : (sealOutput c s).length = s.len 1 + 16 := by simp [sealOutput]

/-- An AEAD_SEAL whose operands have the right lengths: a fault when the counter would wrap, else the sealed message in D3. -/
def sealVerdict (c : BitVec 4) (s : State) : Verdict :=
  if 2 ^ 32 ≤ aeadNextCounter s (s.len 1) then .fault .counterOverflow else .done 0 (s.writeBuf 3 (sealOutput c s))

theorem aeadSeal_invalidNonceLength (hnonce : 16 < s.len 0) : aeadSeal c s = .raise .invalidNonceLength 0 := by
  rw [aeadSeal, if_pos hnonce]

theorem aeadSeal_lengthMismatch (hnonce : s.len 0 ≤ 16) (hdst : s.len 3 ≠ s.len 1 + 16) :
    aeadSeal c s = .raise .destinationLengthMismatch 0 := by
  rw [aeadSeal, if_neg (by omega), if_pos hdst]

theorem aeadSeal_eq (hnonce : s.len 0 ≤ 16) (hdst : s.len 3 = s.len 1 + 16) : aeadSeal c s = sealVerdict c s := by
  rw [aeadSeal, if_neg (by omega), if_neg (not_not.mpr hdst)]; rfl

/-- Settles O34: the two length checks and the counter check, then a write of the `N1 + 16` bytes that D3 holds. -/
theorem aeadSealWritesCiphertextAndTag : Obligations.AeadSealWritesCiphertextAndTag := by
  intro c s hcl
  refine ⟨fun hnonce => exec_raise hcl (aeadSeal_invalidNonceLength hnonce),
    fun hnonce hdst => exec_raise hcl (aeadSeal_lengthMismatch hnonce hdst), fun hnonce hdst => ?_⟩
  have hbody : bodyOf (.aeadSeal c) s = sealVerdict c s := aeadSeal_eq hnonce hdst
  have hlen : (sealOutput c s).length = s.len 3 := (sealOutput_length c s).trans hdst.symm
  simp only [← counterBlock_buf]
  refine ⟨fun hover => exec_fault hcl (hbody.trans (if_pos hover)), fun hnext => ?_⟩
  rw [exec_done hcl (hbody.trans (if_neg (Nat.not_le_of_lt hnext))), writeBuf_exact s 3 _ hlen]
  simp only [sealOutput, aeadSealed, aeadCrypt, aeadTag, oneTimeKey, blockCounter, buf_length]

/-- An AEAD_SEAL that completes passed its checks and wrote the sealed message (R154). -/
theorem aeadSeal_done (h : aeadSeal c s = .done r t) :
    s.len 0 ≤ 16 ∧ s.len 3 = s.len 1 + 16 ∧ aeadNextCounter s (s.len 1) < 2 ^ 32 ∧ t = s.writeBuf 3 (sealOutput c s) := by
  simp only [aeadSeal] at h
  repeat' split at h
  all_goals cases h
  rename_i hnonce hdst hnext
  exact ⟨Nat.le_of_not_lt hnonce, not_not.mp hdst, Nat.lt_of_not_le hnext, rfl⟩

/-- After a completed AEAD_SEAL the destination holds the sealed message (R154). -/
theorem memRead_of_seal_completed (h : exec (.aeadSeal c) s = .next t) (hok : t.status = 0x00) :
    s.len 0 ≤ 16 ∧ aeadNextCounter s (s.len 1) < 2 ^ 32 ∧ memRead t.mem (s.ptr 3) (s.len 3) = sealOutput c s := by
  obtain ⟨-, r, u, hb, rfl⟩ := exec_completed h hok
  obtain ⟨hnonce, hdst, hnext, rfl⟩ := aeadSeal_done hb
  exact ⟨hnonce, hnext, memRead_writeBuf_exact ((sealOutput_length c s).trans hdst.symm)⟩

/-! AEAD_OPEN (R155, R156). -/

/-- The ciphertext of the message that AEAD_OPEN reads: all but its last 16 bytes. -/
def openCiphertext (s : State) : Bytes := (s.buf 1).take (s.len 1 - 16)

@[simp] theorem openCiphertext_length (s : State) : (openCiphertext s).length = s.len 1 - 16 := by simp [openCiphertext]

/-- The tag of the message that AEAD_OPEN reads: its last 16 bytes. -/
def openTag (s : State) : Bytes := (s.buf 1).drop (s.len 1 - 16)

/-- The tag that AEAD_OPEN computes. -/
def expectedTag (c : BitVec 4) (s : State) : Bytes :=
  aeadTag (s.aeadCtx c).key (counterBlock (s.buf 0)) (s.buf 2) (openCiphertext s)

/-- What AEAD_OPEN writes when the tag is right. -/
def openOutput (c : BitVec 4) (s : State) : Bytes :=
  aeadCrypt (s.aeadCtx c).key (counterBlock (s.buf 0)) (openCiphertext s)

@[simp] theorem openOutput_length (c : BitVec 4) (s : State) : (openOutput c s).length = s.len 1 - 16 := by simp [openOutput]

/-- An AEAD_OPEN whose operands have the right lengths: the counter of the tag's key, the tag, the counter of the message, and the
plaintext in D3. -/
def openVerdict (c : BitVec 4) (s : State) : Verdict :=
  if 2 ^ 32 ≤ blockCounter (counterBlock (s.buf 0)) + 1 then .fault .counterOverflow
  else if expectedTag c s ≠ openTag s then .done 0 s
  else if 2 ^ 32 ≤ aeadNextCounter s (s.len 1 - 16) then .fault .counterOverflow
  else .done 1 (s.writeBuf 3 (openOutput c s))

theorem aeadOpen_invalidNonceLength (hnonce : 16 < s.len 0) : aeadOpen c s = .raise .invalidNonceLength 0 := by
  rw [aeadOpen, if_pos hnonce]

section
variable (hnonce : s.len 0 ≤ 16)
include hnonce

theorem aeadOpen_shortMessage (hshort : s.len 1 < 16) : aeadOpen c s = .done 0 s := by
  rw [aeadOpen, if_neg (by omega), if_pos hshort]

variable (hlong : 16 ≤ s.len 1)
include hlong

theorem aeadOpen_lengthMismatch (hdst : s.len 3 ≠ s.len 1 - 16) : aeadOpen c s = .raise .destinationLengthMismatch 0 := by
  rw [aeadOpen, if_neg (by omega), if_neg (by omega), if_pos hdst]

variable (hdst : s.len 3 = s.len 1 - 16)
include hdst

/-- The comparison of the tags, which are not empty, is their inequality. -/
theorem aeadOpen_eq : aeadOpen c s = openVerdict c s := by
  have htag : ctEqual (expectedTag c s) (openTag s) = 0 ↔ expectedTag c s ≠ openTag s :=
    ctEqual_eq_zero_iff (by simp [expectedTag])
  simp only [openVerdict, ← htag]
  rw [aeadOpen, if_neg (by omega), if_neg (by omega), if_neg (not_not.mpr hdst)]
  rfl

theorem aeadOpen_done (htag : expectedTag c s = openTag s) (hnext : aeadNextCounter s (s.len 1 - 16) < 2 ^ 32) :
    aeadOpen c s = .done 1 (s.writeBuf 3 (openOutput c s)) := by
  have hfirst : blockCounter (counterBlock (s.buf 0)) + 1 < 2 ^ 32 := (Nat.le_add_right _ _).trans_lt hnext
  rw [aeadOpen_eq hnonce hlong hdst, openVerdict, if_neg (Nat.not_le_of_lt hfirst), if_neg (not_not.mpr htag),
    if_neg (Nat.not_le_of_lt hnext)]

end

/-- Settles O35: the checks in their order, each before the next, then a write of the `N1 − 16` bytes that D3 holds. -/
theorem aeadOpenVerifiesThenDecrypts : Obligations.AeadOpenVerifiesThenDecrypts := by
  intro c s hcl
  refine ⟨fun hnonce => exec_raise hcl (aeadOpen_invalidNonceLength hnonce),
    fun hnonce hshort => exec_done hcl (aeadOpen_shortMessage hnonce hshort),
    fun hnonce hlong hdst => exec_raise hcl (aeadOpen_lengthMismatch hnonce hlong hdst), fun hnonce hlong hdst => ?_⟩
  have hbody : bodyOf (.aeadOpen c) s = openVerdict c s := aeadOpen_eq hnonce hlong hdst
  have hlen : (openOutput c s).length = s.len 3 := (openOutput_length c s).trans hdst.symm
  simp only [← counterBlock_buf]
  refine ⟨fun hover => exec_fault hcl (hbody.trans (if_pos hover)), fun hfirst htag => exec_done hcl (hbody.trans ?_),
    fun hfirst htag hover => exec_fault hcl (hbody.trans ?_), fun htag hnext => ?_⟩
  · exact (if_neg (Nat.not_le_of_lt hfirst)).trans (if_pos htag)
  · exact (if_neg (Nat.not_le_of_lt hfirst)).trans ((if_neg (not_not.mpr htag)).trans (if_pos hover))
  · rw [exec_done hcl (aeadOpen_done hnonce hlong hdst htag hnext), writeBuf_exact s 3 _ hlen]
    simp only [openOutput, aeadCrypt, openCiphertext_length]
    rfl

/-! The round trip (R160). -/

section
variable {u : State} (hkey : (u.aeadCtx d).key = (s.aeadCtx c).key) (hnonce : u.buf 0 = s.buf 0)
  (haad : u.buf 2 = s.buf 2) (hmsg : u.buf 1 = sealOutput c s)

include hmsg in
theorem len_of_sealed : u.len 1 = s.len 1 + 16 := by
  rw [← buf_length, hmsg, sealOutput_length]

include hmsg in
theorem openCiphertext_of_sealed :
    openCiphertext u = aeadCrypt (s.aeadCtx c).key (counterBlock (s.buf 0)) (s.buf 1) := by
  rw [openCiphertext, len_of_sealed hmsg, Nat.add_sub_cancel, hmsg, ← buf_length]
  exact take_aeadSealed _ _ _ _

include hkey hnonce haad hmsg

/-- The tag of a sealed message is the one AEAD_OPEN computes. -/
theorem expectedTag_of_sealed : expectedTag d u = openTag u := by
  have htag : openTag u = aeadTag (s.aeadCtx c).key (counterBlock (s.buf 0)) (s.buf 2)
      (aeadCrypt (s.aeadCtx c).key (counterBlock (s.buf 0)) (s.buf 1)) := by
    rw [openTag, len_of_sealed hmsg, Nat.add_sub_cancel, hmsg, ← buf_length]
    exact drop_aeadSealed _ _ _ _
  rw [htag, expectedTag, hkey, hnonce, haad, openCiphertext_of_sealed hmsg]

omit haad in
/-- The keystream undoes itself. -/
theorem openOutput_of_sealed : openOutput d u = s.buf 1 := by
  rw [openOutput, hkey, hnonce, openCiphertext_of_sealed hmsg, aeadCrypt_aeadCrypt]

end

/-- Settles O37: AEAD_OPEN passes the checks that AEAD_SEAL passed, finds the tag that AEAD_SEAL computed, and XORs the ciphertext
with the same keystream. -/
theorem aeadRoundTrip : Obligations.AeadRoundTrip := by
  intro c d s t u hseal hok hcl hkey hnonce haad hread hdst
  obtain ⟨hle, hnext, hsealed⟩ := memRead_of_seal_completed hseal hok
  have hmsg : u.buf 1 = sealOutput c s := hread.trans hsealed
  have hlen0 : u.len 0 = s.len 0 := by rw [← buf_length, hnonce, buf_length]
  have hlen1 : u.len 1 - 16 = s.len 1 := by rw [len_of_sealed hmsg, Nat.add_sub_cancel]
  have hcounter : aeadNextCounter u (u.len 1 - 16) = aeadNextCounter s (s.len 1) := by
    rw [hlen1, aeadNextCounter, hnonce, aeadNextCounter]
  have hopen : bodyOf (.aeadOpen d) u = .done 1 (u.writeBuf 3 (openOutput d u)) :=
    aeadOpen_done (hlen0 ▸ hle) (len_of_sealed hmsg ▸ Nat.le_add_left 16 _) (hdst.trans hlen1.symm)
      (expectedTag_of_sealed hkey hnonce haad hmsg) (hcounter ▸ hnext)
  refine ⟨_, exec_done hcl hopen, rfl, rfl, ?_⟩
  rw [report_mem, memRead_writeBuf_exact ((openOutput_length d u).trans (hlen1.trans hdst.symm)),
    openOutput_of_sealed hkey hnonce hmsg]

end Sys2Proof.Machine
end

section
/-! SUPPORT and CERTIFICATES. HMAC: what the eight commands end with, and that a session of INIT, UPDATEs and FINISH writes the HMAC
of the data under the key (spec 45_hmac.md R170 to R179). -/

namespace Sys2Proof.Machine

variable {c h : BitVec 4} {e : HashEngine} {key m : Bytes} {s t : State} {r : DWord}

/-! HMAC_INIT, HMAC_UPDATE and HMAC_CLEAN (R172, R173, R179). -/

/-- A context keyed with `key` for hash `h`, nothing saved, whose inner hash has absorbed `m` after `ipad` (R172, R173). -/
def sessionCtx (e : HashEngine) (h : BitVec 4) (key m : Bytes) : HmacCtx :=
  ⟨true, h.toNat, hmacIpad e key, hmacOpad e key, hmacIpad e key ++ m, false, zeros e.digestLen, false, []⟩

theorem hmacInit_done (he : hashEngine? s.params h.toNat = some e) :
    hmacInit c h s = .done 0 (s.setHmac c (sessionCtx e h (s.buf 0) [])) := by
  rw [hmacInit, withEngine_eq he, sessionCtx, List.append_nil]

/-- Settles O38: there is no check of its own; the key to pad is hashed when `N0`, its length, is above the block size. -/
theorem hmacInitKeysContext : Obligations.HmacInitKeysContext := by
  intro c h e s hcl he
  rw [exec_done hcl (hmacInit_done he), sessionCtx, List.append_nil]
  simp only [hmacIpad, hmacOpad, hmacKeyPad, buf_length]

theorem hmacUpdate_finished (hf : (s.hmacCtx c).finished = true) : hmacUpdate c s = .fault .stateViolation := if_pos hf

theorem hmacUpdate_open (hf : (s.hmacCtx c).finished = false) :
    hmacUpdate c s = .done 0 (s.setHmac c { s.hmacCtx c with inner := (s.hmacCtx c).inner ++ s.buf 0 }) :=
  if_neg (ne_true_of_eq_false hf)

/-- Settles O39: the one check is that the context is not finished. -/
theorem hmacUpdateAppends : Obligations.HmacUpdateAppends := fun _ _ hcl =>
  ⟨fun hf => exec_fault hcl (hmacUpdate_finished hf), fun hf => exec_done hcl (hmacUpdate_open hf)⟩

/-- Settles O45: HMAC_CLEAN has no descriptor and needs no valid context, so that a ready core runs it; the wiped context is the
blank one. -/
theorem hmacCleanWipesContext : Obligations.HmacCleanWipesContext := fun _ _ hready =>
  exec_done (clear_of_noDescriptors hready rfl rfl) rfl

/-! The commands that need the serializable-state capability (R175 to R178). -/

section
variable {n : Nat} (he : hashEngine? s.params n = some e)
include he

theorem withEngine_noSer (hser : e.ser = false) (body : HashEngine → Verdict) :
    withEngine s n (fun e => if !e.ser then .raise .capabilityUnsupported 0 else body e) = .raise .capabilityUnsupported 0 := by
  rw [withEngine_eq he, hser]; rfl

theorem withEngine_ser (hser : e.ser = true) (body : HashEngine → Verdict) :
    withEngine s n (fun e => if !e.ser then .raise .capabilityUnsupported 0 else body e) = body e := by
  rw [withEngine_eq he, hser]; rfl

end

/-- Settles O41: the capability is the one check. -/
theorem hmacResetReturnsToKeySchedule : Obligations.HmacResetReturnsToKeySchedule := fun _ _ _ hcl he =>
  ⟨fun hser => exec_raise hcl (withEngine_noSer he hser _), fun hser => exec_done hcl (withEngine_ser he hser _)⟩

/-- Settles O42: the capability, then whether the context is finished. -/
theorem hmacSaveSnapshots : Obligations.HmacSaveSnapshots := fun _ _ _ hcl he =>
  ⟨fun hser => exec_raise hcl (withEngine_noSer he hser _),
    fun hser hf => exec_fault hcl ((withEngine_ser he hser _).trans (if_pos hf)),
    fun hser hf => exec_done hcl ((withEngine_ser he hser _).trans (if_neg (ne_true_of_eq_false hf)))⟩

/-- Settles O43: the capability, then whether a state is saved. -/
theorem hmacRestorePutsSavedBack : Obligations.HmacRestorePutsSavedBack := fun _ _ _ hcl he =>
  ⟨fun hser => exec_raise hcl (withEngine_noSer he hser _),
    fun hser hsaved => exec_fault hcl ((withEngine_ser he hser _).trans (if_pos (by rw [hsaved]; rfl))),
    fun hser hsaved => exec_done hcl ((withEngine_ser he hser _).trans (if_neg (by rw [hsaved]; decide)))⟩

/-- Settles O44: the capability is the one check. -/
theorem hmacCleanSavedEmptiesSlot : Obligations.HmacCleanSavedEmptiesSlot := fun _ _ _ hcl he =>
  ⟨fun hser => exec_raise hcl (withEngine_noSer he hser _), fun hser => exec_done hcl (withEngine_ser he hser _)⟩

/-! HMAC_FINISH (R174). -/

theorem finishCtx_open {x : HmacCtx} (hf : x.finished = false) :
    finishCtx e x = { x with cached := hashOf e (x.opad ++ hashOf e x.inner), finished := true } :=
  if_neg (ne_true_of_eq_false hf)

/-- The first finish keeps a digest of `L` bytes (R174). -/
theorem finishCtx_cached_length {x : HmacCtx} (he : e.wf = true) (hf : x.finished = false) :
    (finishCtx e x).cached.length = e.digestLen := by
  rw [finishCtx_open hf]; exact hashOf_length e _ he

theorem finishCtx_finished {x : HmacCtx} (hf : x.finished = true) : finishCtx e x = x := if_pos hf

section
variable (he : hashEngine? s.params (s.hmacCtx c).hash = some e)
include he

theorem hmacFinish_lengthMismatch (hdst : s.len 0 ≠ e.digestLen) :
    hmacFinish c s = .raise .destinationLengthMismatch 0 := by
  rw [hmacFinish, withEngine_eq he, if_pos hdst]

theorem hmacFinish_eq (hdst : s.len 0 = e.digestLen) :
    hmacFinish c s =
      .done 0 ((s.setHmac c (finishCtx e (s.hmacCtx c))).writeBuf 0 (finishCtx e (s.hmacCtx c)).cached) := by
  rw [hmacFinish, withEngine_eq he, if_neg (not_not.mpr hdst)]

theorem hmacFinish_done (hb : hmacFinish c s = .done r t) :
    s.len 0 = e.digestLen ∧
      t = (s.setHmac c (finishCtx e (s.hmacCtx c))).writeBuf 0 (finishCtx e (s.hmacCtx c)).cached := by
  by_cases hdst : s.len 0 = e.digestLen
  · rw [hmacFinish_eq he hdst] at hb
    cases hb
    exact ⟨hdst, rfl⟩
  · rw [hmacFinish_lengthMismatch he hdst] at hb
    cases hb

end

/-- Settles O40: the one length check, then the context after the finish and a write of the `L` bytes that D0 holds; a later finish
writes the context back as it was. -/
theorem hmacFinishWritesDigest : Obligations.HmacFinishWritesDigest := by
  intro c e s hcl he
  have ⟨⟨hp, _⟩, _⟩ := hcl
  refine ⟨fun hdst => exec_raise hcl (hmacFinish_lengthMismatch he hdst), fun hdst hf => ?_, fun hdst hf hlen => ?_⟩
  · have hcached := finishCtx_cached_length (hashEngine_wf hp he) hf
    rw [exec_done hcl (hmacFinish_eq he hdst), writeBuf_exact (s.setHmac c _) 0 _ (hcached.trans hdst.symm), finishCtx_open hf]
    rfl
  · rw [exec_done hcl (hmacFinish_eq he hdst), finishCtx_finished hf, setHmac_self, writeBuf_exact s 0 _ (hlen.trans hdst.symm)]

/-! A session (R171). -/

/-- A completed HMAC_INIT keyed the context. -/
theorem hmacCtx_of_init_completed (hx : exec (.hmacInit c h) s = .next t) (hok : t.status = 0x00)
    (he : hashEngine? s.params h.toNat = some e) : t.hmacCtx c = sessionCtx e h (s.buf 0) [] := by
  obtain ⟨-, r, u, hb, rfl⟩ := exec_completed hx hok
  cases (hmacInit_done he).symm.trans hb
  simp

/-- A completed HMAC_UPDATE appended its data, if the context was not finished. -/
theorem hmacCtx_of_update_completed (hx : exec (.hmacUpdate c) s = .next t) (hok : t.status = 0x00)
    (hf : (s.hmacCtx c).finished = false) :
    t.hmacCtx c = { s.hmacCtx c with inner := (s.hmacCtx c).inner ++ s.buf 0 } := by
  obtain ⟨-, r, u, hb, rfl⟩ := exec_completed hx hok
  cases (hmacUpdate_open hf).symm.trans hb
  simp

/-- A completed command keeps the configuration. -/
theorem params_of_completed {i : Instr} (hx : exec i s = .next t) (hok : t.status = 0x00) : t.params = s.params := by
  obtain ⟨-, r, u, hb, rfl⟩ := exec_completed hx hok
  obtain ⟨hu, -⟩ := bodyOf_done hb
  rw [report_params, hu]

/-- In a session the context is the keyed one that has absorbed the data so far. -/
theorem hmacCtx_of_fed (hs : HmacFed c h key m s) (he : hashEngine? s.params h.toNat = some e) :
    s.hmacCtx c = sessionCtx e h key m := by
  induction hs with
  | keyed s t hkey hx hok =>
    rw [params_of_completed hx hok] at he
    rw [hmacCtx_of_init_completed hx hok he, hkey]
  | fed m s u t _ hparams hctx hx hok ih =>
    rw [params_of_completed hx hok, hparams] at he
    have hu : u.hmacCtx c = sessionCtx e h key m := hctx.trans (ih he)
    rw [hmacCtx_of_update_completed hx hok (by rw [hu]; rfl), hu]
    simp [sessionCtx]

/-- A completed HMAC_FINISH on a context that is not finished wrote the digest of both hashes (R174). -/
theorem memRead_of_finish_completed (hx : exec (.hmacFinish c) s = .next t) (hok : t.status = 0x00)
    (he : hashEngine? s.params (s.hmacCtx c).hash = some e) (hf : (s.hmacCtx c).finished = false) :
    memRead t.mem (s.ptr 0) (s.len 0) = hashOf e ((s.hmacCtx c).opad ++ hashOf e (s.hmacCtx c).inner) := by
  obtain ⟨⟨⟨hp, -⟩, -⟩, r, u, hb, rfl⟩ := exec_completed hx hok
  obtain ⟨hdst, rfl⟩ := hmacFinish_done he hb
  have hcached := finishCtx_cached_length (hashEngine_wf hp he) hf
  have hread := memRead_writeBuf_exact (s := s.setHmac c (finishCtx e (s.hmacCtx c))) (k := 0) (hcached.trans hdst.symm)
  rwa [finishCtx_open hf] at hread ⊢

/-- Settles O46: by induction on the UPDATEs the inner hash has absorbed `ipad ++ m` when the FINISH comes, and that one is the
first. -/
theorem hmacSessionWritesHmac : Obligations.HmacSessionWritesHmac := by
  intro c h e key m s u t hs he hparams hctx hx hok
  have hu : u.hmacCtx c = sessionCtx e h key m := hctx.trans (hmacCtx_of_fed hs he)
  have heu : hashEngine? u.params (u.hmacCtx c).hash = some e := by rw [hparams, hu]; exact he
  have hf : (u.hmacCtx c).finished = false := by rw [hu]; rfl
  rw [memRead_of_finish_completed hx hok heu hf, hu]
  rfl

end Sys2Proof.Machine
end

section
/-! SUPPORT and CERTIFICATES. HKDF: what the three commands end with, that pieces of the output stream are what one command of the
total length writes, and that an absent salt is one of zero bytes (spec 46_hkdf.md R190 to R197). -/

namespace Sys2Proof.Machine

variable {c d h : BitVec 4} {e : HashEngine} {out : Bytes} {s t u : State} {r : DWord} {y : HkdfCtx}

/-! HKDF_INIT and HKDF_CLEAN (R190, R191, R197). -/

theorem infoTooLong_true {p : Params} {m n : Nat} (hmax : p.hkdfInfoMax = some m) (hn : m < n) : infoTooLong p n = true := by
  rw [infoTooLong, hmax]; exact decide_eq_true hn

theorem infoTooLong_false {p : Params} {n : Nat} (hn : ∀ m, p.hkdfInfoMax = some m → n ≤ m) : infoTooLong p n = false := by
  unfold infoTooLong
  split
  · rfl
  · next m hmax => exact decide_eq_false (Nat.not_lt_of_le (hn m hmax))

/-- A context keyed with `key` under `salt` for hash `h`, no block of whose stream was made yet (R190). -/
def extractedCtx (e : HashEngine) (h : BitVec 4) (key salt info : Bytes) : HkdfCtx :=
  ⟨true, h.toNat, hmac e salt key, info, zeros e.digestLen, e.digestLen, 0⟩

section
variable (he : hashEngine? s.params h.toNat = some e)
include he

theorem hkdfInit_capacityExceeded (hinfo : infoTooLong s.params (s.len 2) = true) :
    hkdfInit c h s = .raise .capacityExceeded 0 := by
  rw [hkdfInit, withEngine_eq he, if_pos hinfo]

theorem hkdfInit_eq (hinfo : infoTooLong s.params (s.len 2) = false) :
    hkdfInit c h s = .done 0 (s.setHkdf c (extractedCtx e h (s.buf 0) (hkdfSalt e (s.buf 1)) (s.buf 2))) := by
  rw [hkdfInit, withEngine_eq he, if_neg (ne_true_of_eq_false hinfo), extractedCtx]

end

/-- Settles O47: the one check is that of HKDF_INFO_MAX. -/
theorem hkdfInitExtracts : Obligations.HkdfInitExtracts := by
  intro c h e s hcl he
  refine ⟨fun m hmax hlt => exec_raise hcl (hkdfInit_capacityExceeded he (infoTooLong_true hmax hlt)), fun hle => ?_⟩
  rw [exec_done hcl (hkdfInit_eq he (infoTooLong_false hle)), hkdfSalt, buf_length, extractedCtx]

/-- Settles O49: HKDF_CLEAN has no descriptor and needs no valid context, so that a ready core runs it; the wiped context is the
blank one. -/
theorem hkdfCleanWipesContext : Obligations.HkdfCleanWipesContext := fun _ _ hready =>
  exec_done (clear_of_noDescriptors hready rfl rfl) rfl

/-! The absent salt (R192). -/

/-- Zero bytes that fit in a block are padded to a block of zero bytes. -/
theorem hmacKeyPad_zeros {n : Nat} (hn : n ≤ e.blockSize) : hmacKeyPad e (zeros n) = zeros e.blockSize := by
  simp only [hmacKeyPad, zeros_length, if_neg (Nat.not_lt_of_le hn)]
  rw [zeros, zeros, List.replicate_append_replicate, Nat.add_sub_cancel' hn, zeros]

theorem hmacKeyPad_nil : hmacKeyPad e [] = zeros e.blockSize := hmacKeyPad_zeros (n := 0) (Nat.zero_le _)

/-- A digest fits in a block (R12). -/
theorem digestLen_le_blockSize (he : e.wf = true) : e.digestLen ≤ e.blockSize := by
  simp only [HashEngine.wf, Bool.and_eq_true, decide_eq_true_eq] at he
  exact he.1.2

/-- An HMAC depends on its key through the padded key alone (R170, R171). -/
theorem hmac_congr_keyPad {k k' : Bytes} (hk : hmacKeyPad e k = hmacKeyPad e k') (m : Bytes) : hmac e k m = hmac e k' m := by
  simp only [hmac, hmacOpad, hmacIpad, hk]

theorem hmac_zeros_digestLen (he : e.wf = true) (m : Bytes) : hmac e (zeros e.digestLen) m = hmac e [] m :=
  hmac_congr_keyPad ((hmacKeyPad_zeros (digestLen_le_blockSize he)).trans hmacKeyPad_nil.symm) m

theorem hkdfSalt_nil : hkdfSalt e [] = zeros e.digestLen := rfl

theorem hkdfSalt_zeros : hkdfSalt e (zeros e.digestLen) = zeros e.digestLen := ite_eq_right_iff.mpr fun _ => rfl

/-- A completed HKDF_INIT extracted the key under the salt. -/
theorem hkdfCtx_of_init_completed (hx : exec (.hkdfInit c h) s = .next t) (hok : t.status = 0x00)
    (he : hashEngine? s.params h.toNat = some e) :
    t.hkdfCtx c = extractedCtx e h (s.buf 0) (hkdfSalt e (s.buf 1)) (s.buf 2) := by
  obtain ⟨-, r, u, hb, rfl⟩ := exec_completed hx hok
  cases hinfo : infoTooLong s.params (s.len 2) with
  | true => cases (hkdfInit_capacityExceeded he hinfo).symm.trans hb
  | false =>
    cases (hkdfInit_eq he hinfo).symm.trans hb
    simp

/-- Settles O51: both commands extract under `L` zero bytes, which are padded as the empty key is. -/
theorem absentSaltIsZeroSalt : Obligations.AbsentSaltIsZeroSalt := by
  refine ⟨fun e he => ⟨hmacKeyPad_nil, hmacKeyPad_zeros (digestLen_le_blockSize he)⟩, ?_⟩
  intro c h e s t u v he hparams hst ht huv hv habsent hzero hkey hinfo
  obtain ⟨⟨⟨hp, -⟩, -⟩, -⟩ := exec_completed hst ht
  have hnil : s.buf 1 = [] := List.length_eq_zero_iff.mp ((buf_length s 1).trans habsent)
  have hctx : t.hkdfCtx c = extractedCtx e h (s.buf 0) (zeros e.digestLen) (s.buf 2) := by
    rw [hkdfCtx_of_init_completed hst ht he, hnil, hkdfSalt_nil]
  refine ⟨?_, ?_⟩
  · rw [hctx, hkdfCtx_of_init_completed huv hv (hparams ▸ he), hzero, hkey, hinfo, hkdfSalt_zeros]
  · rw [hctx]; exact hmac_zeros_digestLen (hashEngine_wf hp he) _

/-! The output loop (R194). -/

/-- The context from which the next byte is handed out: a block is made when the last one is used up (R194). -/
def refill (e : HashEngine) (y : HkdfCtx) : HkdfCtx := if y.pos = e.digestLen then nextBlock e y else y

theorem refill_hash : (refill e y).hash = y.hash := by unfold refill; split <;> rfl

theorem expandBytes_succ (n : Nat) :
    expandBytes e (n + 1) y =
      ((refill e y).t.getD (refill e y).pos 0 :: (expandBytes e n { refill e y with pos := (refill e y).pos + 1 }).1,
        (expandBytes e n { refill e y with pos := (refill e y).pos + 1 }).2) := rfl

@[simp] theorem expandBytes_hash (n : Nat) (y : HkdfCtx) : (expandBytes e n y).2.hash = y.hash := by
  induction n generalizing y with
  | zero => rfl
  | succ n ih => rw [expandBytes_succ]; exact (ih _).trans refill_hash

/-- The position is past the last byte handed out, so that no block is made in advance (R194). -/
theorem expandBytes_pos (n : Nat) (y : HkdfCtx) : 0 < (expandBytes e (n + 1) y).2.pos := by
  induction n generalizing y with
  | zero => exact Nat.succ_pos _
  | succ n ih => rw [expandBytes_succ]; exact ih _

/-- Handing out `m + n` bytes is handing out `m` and then, from the context they leave, `n` (R195). -/
theorem expandBytes_add (m n : Nat) (y : HkdfCtx) :
    expandBytes e (m + n) y =
      ((expandBytes e m y).1 ++ (expandBytes e n (expandBytes e m y).2).1, (expandBytes e n (expandBytes e m y).2).2) := by
  induction m generalizing y with
  | zero => rw [Nat.zero_add]; rfl
  | succ m ih => rw [Nat.add_right_comm, expandBytes_succ, expandBytes_succ, ih]; rfl

/-- A valid context in the form of R33 has a block of its own hash's stream in the buffer. -/
theorem blockOk_of_slotOk {p : Params} (hok : HkdfSlotOk p c y) (hv : y.valid = true) (he : hashEngine? p y.hash = some e) :
    BlockOk e y := by
  obtain ⟨-, e', he', -, -, hblock⟩ := (hkdfSlotOk_iff hv).mp hok
  cases he.symm.trans he'
  exact hblock

/-- A valid context in the form of R33 stays so when only its block buffer, position and counter change, to a block of the stream. -/
theorem hkdfSlotOk_of_blockOk {p : Params} {z : HkdfCtx} (hok : HkdfSlotOk p c y) (hv : y.valid = true)
    (he : hashEngine? p y.hash = some e) (hz : z = { y with t := z.t, pos := z.pos, ctr := z.ctr }) (hblock : BlockOk e z) :
    HkdfSlotOk p c z := by
  obtain ⟨hc, e', he', hprk, hinfo, -⟩ := (hkdfSlotOk_iff hv).mp hok
  cases he.symm.trans he'
  refine (hkdfSlotOk_iff ?_).mpr ⟨hc, e, ?_, ?_, ?_, hblock⟩ <;> rw [hz] <;> assumption

/-! HKDF_EXPAND (R194). -/

section
variable (he : hashEngine? s.params (s.hkdfCtx c).hash = some e)
include he

theorem hkdfExpand_limitExceeded (havail : hkdfAvail e (s.hkdfCtx c) < s.len 0) :
    hkdfExpand c s = .raise .expansionLimitExceeded 0 := by
  simp only [hkdfExpand, withEngine_eq he, if_pos havail]

section
variable (havail : s.len 0 ≤ hkdfAvail e (s.hkdfCtx c))
include havail

theorem hkdfExpand_capabilityUnsupported
    (hser : s.params.hkdfRequiresSer = true ∧ e.ser = false ∧ e.digestLen - (s.hkdfCtx c).pos < s.len 0) :
    hkdfExpand c s = .raise .capabilityUnsupported 0 := by
  obtain ⟨hreq, hno, hblock⟩ := hser
  simp only [hkdfExpand, withEngine_eq he, if_neg (Nat.not_lt_of_le havail), hreq, hno, decide_eq_true hblock]
  rfl

theorem hkdfExpand_eq
    (hser : ¬(s.params.hkdfRequiresSer = true ∧ e.ser = false ∧ e.digestLen - (s.hkdfCtx c).pos < s.len 0)) :
    hkdfExpand c s = .done (BitVec.ofNat 64 (s.len 0))
      ((s.setHkdf c (expandBytes e (s.len 0) (s.hkdfCtx c)).2).writeBuf 0 (expandBytes e (s.len 0) (s.hkdfCtx c)).1) := by
  have hcheck : ¬(s.params.hkdfRequiresSer && !e.ser && decide (e.digestLen - (s.hkdfCtx c).pos < s.len 0)) = true := by
    simpa [and_assoc] using hser
  simp only [hkdfExpand, withEngine_eq he, if_neg (Nat.not_lt_of_le havail), if_neg hcheck]

end

end

/-- Settles O48: the two checks in their order, then the output loop, whose bytes are the next of the stream and as many as D0
holds. -/
theorem hkdfExpandHandsOutStream : Obligations.HkdfExpandHandsOutStream := by
  intro c e s hcl he hok
  obtain ⟨⟨hp, -⟩, -, -, hv⟩ := id hcl
  refine ⟨fun hlt => exec_raise hcl (hkdfExpand_limitExceeded he hlt),
    fun hle hser => exec_raise hcl (hkdfExpand_capabilityUnsupported he hle hser), fun hle hser => ?_⟩
  obtain ⟨hbytes, hsame, hhanded, hblock⟩ :=
    expandBytes_spec (hashEngine_wf hp he) (s.len 0) (s.hkdfCtx c) (blockOk_of_slotOk hok hv he) hle
  refine ⟨(expandBytes e (s.len 0) (s.hkdfCtx c)).2, ?_, hsame, hhanded, hkdfSlotOk_of_blockOk hok hv he hsame hblock,
    fun hn => ?_, fun hn => ?_⟩
  · have hlen : (expandBytes e (s.len 0) (s.hkdfCtx c)).1.length = s.len 0 := expandBytes_length e _ _
    rw [exec_done hcl (hkdfExpand_eq he hle hser), writeBuf_exact (s.setHkdf c _) 0 _ hlen, hbytes]
    rfl
  · rw [hn]; rfl
  · obtain ⟨n, hn⟩ := Nat.exists_eq_succ_of_ne_zero hn.ne'
    rw [hn]; exact expandBytes_pos n _

/-! Pieces of the stream (R195). -/

theorem hkdfExpand_done (hb : hkdfExpand c s = .done r t) :
    ∃ e, hashEngine? s.params (s.hkdfCtx c).hash = some e ∧
      t = (s.setHkdf c (expandBytes e (s.len 0) (s.hkdfCtx c)).2).writeBuf 0 (expandBytes e (s.len 0) (s.hkdfCtx c)).1 := by
  obtain ⟨e, he, hb⟩ := withEngine_some hb nofun
  refine ⟨e, he, ?_⟩
  repeat' split at hb
  all_goals cases hb
  rfl

/-- A completed HKDF_EXPAND ran the output loop of the context's hash. -/
theorem expand_completed (hx : exec (.hkdfExpand c) s = .next t) (hok : t.status = 0x00) :
    ∃ e, hashEngine? s.params (s.hkdfCtx c).hash = some e ∧
      expandBytes e (s.len 0) (s.hkdfCtx c) = (memRead t.mem (s.ptr 0) (s.len 0), t.hkdfCtx c) := by
  obtain ⟨-, r, u, hb, rfl⟩ := exec_completed hx hok
  obtain ⟨e, he, rfl⟩ := hkdfExpand_done hb
  have hread := memRead_writeBuf_exact (s := s.setHkdf c (expandBytes e (s.len 0) (s.hkdfCtx c)).2) (k := 0)
    (expandBytes_length e (s.len 0) (s.hkdfCtx c))
  refine ⟨e, he, Prod.ext hread.symm ?_⟩
  simp

/-- Pieces write what one run of the output loop of their total length hands out, and leave the context as it does. -/
theorem expandBytes_of_expanded (hs : HkdfExpanded c s out u) (he : hashEngine? s.params (s.hkdfCtx c).hash = some e) :
    u.params = s.params ∧ expandBytes e out.length (s.hkdfCtx c) = (out, u.hkdfCtx c) := by
  induction hs with
  | start => exact ⟨rfl, rfl⟩
  | piece out u v t _ hparams hctx hx hok ih =>
    obtain ⟨hu, hloop⟩ := ih
    have hv : v.params = s.params := hparams.trans hu
    have hafter : (expandBytes e out.length (s.hkdfCtx c)).2 = v.hkdfCtx c := by rw [hloop, hctx]
    have hhash : (v.hkdfCtx c).hash = (s.hkdfCtx c).hash := by rw [← hafter, expandBytes_hash]
    obtain ⟨e', he', hpiece⟩ := expand_completed hx hok
    rw [hv, hhash] at he'
    cases he.symm.trans he'
    refine ⟨(params_of_completed hx hok).trans hv, ?_⟩
    rw [List.length_append, memRead_length, expandBytes_add, hafter, hpiece, hloop]

/-- Settles O50: the one command of the total length runs the same output loop from the same context. -/
theorem hkdfPiecesEqualBatch : Obligations.HkdfPiecesEqualBatch := by
  intro c d out s u v t hs hparams hctx hlen hx hok
  obtain ⟨e, he, hbatch⟩ := expand_completed hx hok
  rw [hparams, hctx] at he
  obtain ⟨-, hpieces⟩ := expandBytes_of_expanded hs he
  rw [hlen, hctx, hpieces, ← hlen] at hbatch
  obtain ⟨hout, hend⟩ := Prod.mk.inj hbatch
  exact ⟨hout.symm, hend.symm⟩

end Sys2Proof.Machine
end

section
/-! SUPPORT and CERTIFICATES. The constant-time comparator: the masking picks one of the two choices, and what CT_SELECT,
CT_LESS_OR_EQUAL, CT_COMPARE and CT_EQUAL end with (spec 47_ct_compare.md R210 to R214). -/

namespace Sys2Proof.Machine

variable {s : State}

/-! CT_COMPARE and CT_EQUAL (R212 to R214). -/

/-- CT_EQUAL answers 1 exactly on equal sequences that are not empty (R213, R214). -/
theorem ctEqual_eq (a b : Bytes) : ctEqual a b = if a = b ∧ 0 < a.length then 1 else 0 := by
  rw [ctEqual, ctCompare_eq]
  by_cases hab : a = b
  · subst hab
    by_cases ha : a.length = 0
    · rw [if_pos (.inl ha), if_neg (by omega)]
    · rw [if_neg (by omega), if_pos rfl, if_pos ⟨rfl, by omega⟩]
  · rw [if_neg hab, ite_self, if_neg fun h => hab h.1]

/-- Settles O54: neither command has a check of its own, so that a clear state completes with the comparison of the two buffers; the
length of a buffer is that of its descriptor. -/
theorem ctCompareAndEqual : Obligations.CtCompareAndEqual := by
  have compared (s : State) (hcl : s.Clear .ctCompare) :
      exec .ctCompare s = .next (s.report 0x00 (ctCompare (s.buf 0) (s.buf 1))) := exec_done hcl rfl
  have equalled (s : State) (hcl : s.Clear .ctEqual) :
      exec .ctEqual s = .next (s.report 0x00 (ctEqual (s.buf 0) (s.buf 1))) := exec_done hcl rfl
  refine ⟨fun s hcl => ⟨fun heq => ?_, fun hne => ?_⟩, fun s hcl => ⟨fun heq hlen => ?_, fun hdiff => ?_⟩⟩
  · rw [compared s hcl, ctCompare_eq, if_pos heq]
  · rw [compared s hcl, ctCompare_eq, if_neg hne]
  · rw [equalled s hcl, ctEqual_eq, buf_length, if_pos ⟨heq, hlen⟩]
  · have hnot : ¬(s.buf 0 = s.buf 1 ∧ 0 < s.len 0) := fun ⟨heq, hlen⟩ => hdiff.elim (· heq) hlen.ne'
    rw [equalled s hcl, ctEqual_eq, buf_length, if_neg hnot]

/-! CT_SELECT (R210). -/

theorem ctMask_one (x y : Word) : ctMask 1 x y = x := by
  have hmask : (0 - (1 : DWord).setWidth 32 : Word) = BitVec.allOnes 32 := by decide
  rw [ctMask, hmask, BitVec.allOnes_and, BitVec.not_allOnes, BitVec.zero_and, BitVec.or_zero]

theorem ctMask_zero (x y : Word) : ctMask 0 x y = y := by
  have hmask : (0 - (0 : DWord).setWidth 32 : Word) = 0#32 := by decide
  rw [ctMask, hmask, BitVec.zero_and, BitVec.not_zero, BitVec.allOnes_and, BitVec.zero_or]

theorem ctSelect_outOfContract (h : 1 < (s.arg 0).toNat ∨ 2 ^ 32 ≤ (s.arg 1).toNat ∨ 2 ^ 32 ≤ (s.arg 2).toNat) :
    ctSelect s = .fault .operandOutOfContract := if_pos h

theorem ctSelect_done (hbit : (s.arg 0).toNat ≤ 1) (hone : (s.arg 1).toNat < 2 ^ 32) (hzero : (s.arg 2).toNat < 2 ^ 32) :
    ctSelect s = .done ((ctMask (s.arg 0) ((s.arg 1).setWidth 32) ((s.arg 2).setWidth 32)).setWidth 64) s :=
  if_neg (by omega)

/-- Settles O52: the domain check, then the masking, whose choice is narrowed and widened again without loss. -/
theorem ctSelectChooses : Obligations.CtSelectChooses := by
  intro s hr
  have hcl : s.Clear .ctSelect := clear_of_noDescriptors hr rfl rfl
  refine ⟨fun hout => exec_fault hcl (ctSelect_outOfContract hout), fun hone hzero => ⟨fun hbit => ?_, fun hbit => ?_⟩⟩
  · rw [exec_done hcl (ctSelect_done (by rw [hbit]; decide) hone hzero), hbit, ctMask_one,
      BitVec.setWidth_setWidth_eq_self hone]
  · rw [exec_done hcl (ctSelect_done (by rw [hbit]; decide) hone hzero), hbit, ctMask_zero,
      BitVec.setWidth_setWidth_eq_self hzero]

/-! CT_LESS_OR_EQUAL (R211). -/

theorem ctLessOrEqual_outOfContract (h : 2 ^ 31 ≤ (s.arg 0).toNat ∨ 2 ^ 31 ≤ (s.arg 1).toNat) :
    ctLessOrEqual s = .fault .operandOutOfContract := if_pos h

theorem ctLessOrEqual_done (h0 : (s.arg 0).toNat < 2 ^ 31) (h1 : (s.arg 1).toNat < 2 ^ 31) :
    ctLessOrEqual s = .done (if (s.arg 0).toNat ≤ (s.arg 1).toNat then 1 else 0) s := if_neg (by omega)

/-- Settles O53: the domain check, then the comparison of the two values. -/
theorem ctLessOrEqualCompares : Obligations.CtLessOrEqualCompares := by
  intro s hr
  have hcl : s.Clear .ctLessOrEqual := clear_of_noDescriptors hr rfl rfl
  refine ⟨fun hout => exec_fault hcl (ctLessOrEqual_outOfContract hout), fun h0 h1 => ⟨fun hle => ?_, fun hlt => ?_⟩⟩
  · rw [exec_done hcl (ctLessOrEqual_done h0 h1), if_pos hle]
  · rw [exec_done hcl (ctLessOrEqual_done h0 h1), if_neg (Nat.not_le_of_lt hlt)]

end Sys2Proof.Machine
end

section
/-! CERTIFICATES. How a command ends, told apart by STATUS, and the fault state: errors and faults are precise, an uninitialised
context faults, and a faulted core runs nothing (spec 60_exceptions.md R220, R221, R230 to R233). -/

namespace Sys2Proof.Machine

variable {s t u : State} {i : Instr}

/-! The three outcomes, told apart by STATUS (R220). -/

/-- No error reports the code of the fault state (R25). -/
theorem statusWord_errorCode_ne_faulted (e : ErrorKind) : statusWord (errorCode e) ≠ 0xFF := by cases e <;> decide

/-- A completed command leaves the fault bit as it was. -/
theorem completesWithin_faulted (h : CompletesWithin i s t) : t.faulted = s.faulted := by
  obtain ⟨ht, -⟩ := h
  rw [ht]; rfl

/-- A command that ends neither completed nor in the fault state is one whose own checks raised an error (R221). -/
theorem exec_error_of_status (h : exec i s = .next t) (hok : t.status ≠ 0x00) (hfault : t.status ≠ 0xFF) :
    s.Ready ∧ ∃ e r, bodyOf i s = .raise e r ∧ t = s.report (errorCode e) r := by
  obtain ⟨hr, ⟨-, r, u, -, rfl⟩ | ⟨-, herror⟩ | ⟨c, rfl⟩⟩ := exec_next h
  · exact absurd rfl hok
  · exact ⟨hr, herror⟩
  · exact absurd rfl hfault

/-- A command that ends with the code of the fault state took one of the six faults (R230). -/
theorem exec_fault_of_status (h : exec i s = .next t) (hfault : t.status = 0xFF) :
    ∃ c, t = s.enterFault (encode i) c := by
  obtain ⟨-, ⟨-, r, u, -, rfl⟩ | ⟨-, e, r, -, rfl⟩ | hcause⟩ := exec_next h
  · exact absurd hfault (show statusWord codeOk ≠ 0xFF by decide)
  · exact absurd hfault (statusWord_errorCode_ne_faulted e)
  · exact hcause

/-- Settles O18: a completion keeps the fault bit, an error writes its code, and a fault enters the fault state. -/
theorem threeOutcomes : Obligations.ThreeOutcomes := by
  intro i s t h
  obtain ⟨⟨-, hf⟩, ⟨-, r, u, hb, rfl⟩ | ⟨-, e, r, -, rfl⟩ | ⟨c, rfl⟩⟩ := exec_next h
  · exact ⟨hf, .inl ⟨rfl, (completesWithin_faulted (bodyOf_done hb)).trans hf⟩⟩
  · obtain ⟨hlow, hhigh⟩ := errorCode_range e
    rw [← statusWord_toNat] at hlow hhigh
    exact ⟨hf, .inr (.inl ⟨hlow, hhigh, rfl⟩)⟩
  · exact ⟨hf, .inr (.inr ⟨rfl, enterFault_faulted s _ c, rfl⟩)⟩

/-- Settles O19: an error is a report on the state it started from, which was ready, and only R106's has a RESULT. -/
theorem errorsArePrecise : Obligations.ErrorsArePrecise := by
  intro i s t h hok hfault
  obtain ⟨hr, e, r, hb, rfl⟩ := exec_error_of_status h hok hfault
  refine ⟨rfl, hr, fun hresult => ?_⟩
  obtain hzero | ⟨hi, rfl⟩ := bodyOf_raise hb
  · exact absurd hzero hresult
  · exact ⟨hi, rfl⟩

/-- Settles O20: the one way into the fault state writes the word of the formula, with one of the six causes. -/
theorem faultsArePrecise : Obligations.FaultsArePrecise := by
  intro i s t h hfault
  obtain ⟨c, rfl⟩ := exec_fault_of_status h hfault
  obtain ⟨hlow, hhigh⟩ := causeCode_range c
  exact ⟨causeCode c, hlow, hhigh, rfl⟩

/-! An uninitialised context (R232, R233 item 5). -/

theorem prologueFault_contextInvalid_iff :
    s.prologueFault i = some .contextInvalid ↔ s.BuffersOk i ∧ ¬s.AliasBroken i ∧ s.contextReady i = false := by
  rw [← buffersOk_iff, ← aliasFree_iff]
  unfold State.prologueFault
  cases (descriptors i).all s.admissible <;> cases s.aliasFree i <;> cases s.contextReady i <;> simp

/-- ContextInvalid has no other source than a context that is not initialised. -/
theorem exec_ne_contextInvalid (hready : s.contextReady i = true) :
    exec i s ≠ .next (s.enterFault (encode i) .contextInvalid) := by
  intro h
  obtain hp | hb := exec_enterFault h
  · obtain ⟨-, -, hinvalid⟩ := prologueFault_contextInvalid_iff.mp hp
    exact absurd (hready.symm.trans hinvalid) (by decide)
  · obtain hc | hc | hc := bodyOf_fault hb <;> cases hc

/-- Settles O16: the prologue asks the nine commands for their context, and the INIT and CLEAN commands for none. -/
theorem uninitialisedContextFaults : Obligations.UninitialisedContextFaults := by
  refine ⟨fun i c s hr hbuf halias huninit => ?_, fun i c h s hinit => exec_ne_contextInvalid ?_⟩
  · have hready : s.contextReady i = false := by
      obtain ⟨rfl | rfl, hvalid⟩ | ⟨rfl | rfl | rfl | rfl | rfl | rfl, hvalid⟩ | ⟨rfl, hvalid⟩ := huninit <;> exact hvalid
    exact exec_prologueFault hr (prologueFault_contextInvalid_iff.mpr ⟨hbuf, halias, hready⟩)
  · obtain rfl | rfl | rfl | rfl | rfl | rfl := hinit <;> rfl

/-! The fault state (R231). -/

theorem writeCmd_faulted (hf : u.faulted = true) (w : Word) : writeCmd w u = .next u := if_pos hf

theorem exec_faulted (hw : s.params.wf = true) (hf : s.faulted = true) (i : Instr) : exec i s = .refused .faultState := by
  simp [exec_eq, runCommand, hw, hf]

/-- In the fault state no access but a reset writes FAULT, STATUS, RESULT or CMD. -/
theorem accessEffect_faulted {a : HostAction} (h : AccessEffect a u t) (hf : u.faulted = true) (hreset : a ≠ .reset)
    (hduring : ∀ w, a ≠ .resetDuring w) :
    t.fault = u.fault ∧ t.status = u.status ∧ t.result = u.result ∧ t.cmd = u.cmd := by
  cases h with
  | illegal _ _ _ _ _ hnot => exact absurd (hf.symm.trans hnot) (by decide)
  | command _ _ _ _ _ _ _ hnot _ _ => exact absurd (hf.symm.trans hnot) (by decide)
  | reset => exact absurd rfl hreset
  | resetIdle w => exact absurd rfl (hduring w)
  | resetTorn w => exact absurd rfl (hduring w)
  | ignored | argWritten | read | memWritten => exact ⟨rfl, rfl, rfl, rfl⟩

/-- Settles O7: a CMD write is ignored, `exec` refuses, a read takes its value, and the step's one access keeps the registers. -/
theorem faultStateRefusesCommands : Obligations.FaultStateRefusesCommands := by
  intro s hw hf
  refine ⟨fun w rest hh => ?_, exec_faulted hw hf, fun offset width r rest hr hh => ?_, fun t hstep hreset hduring => ?_⟩
  · rw [step_access hw hh, hostAccess_cmdWrite]
    exact writeCmd_faulted (u := { s with host := rest }) hf w
  · rw [step_access hw hh, hostAccess_regRead hr]; rfl
  · obtain ⟨-, rfl⟩ | ⟨a, rest, hh, he⟩ := step_effect hstep
    · exact ⟨rfl, rfl, rfl, rfl⟩
    · exact accessEffect_faulted (u := { s with host := rest }) he hf (fun ha => hreset rest (ha ▸ hh))
        (fun w ha => hduring w rest (ha ▸ hh))

end Sys2Proof.Machine
end

section
/-! CERTIFICATES. Reset between commands and inside one, the state it leaves, and which contexts a command may change (spec
70_reset_and_hazards.md R250 to R252, R261; log 13). -/

namespace Sys2Proof.Machine

/-! The state after a reset (R250). -/

@[simp] theorem resetCore_arg (s : State) (j : Fin 8) : s.resetCore.arg j = 0 := by simp [State.arg]

theorem reset_ready : State.reset.Ready := ⟨by decide, by decide⟩

/-- No address is listed after reset. -/
theorem reset_memoryOk : State.reset.MemoryOk := ⟨rfl, fun _ hcell => absurd hcell List.not_mem_nil⟩

/-- Settles O59: memory lists nothing, and the report and the contexts are those a reset leaves. -/
theorem resetMeetsInvariants : Obligations.ResetMeetsInvariants := by
  obtain ⟨haead, hhmac, hhkdf⟩ := resetCore_contextsOk State.reset
  exact ⟨reset_ready, reset_memoryOk, reportOk_resetCore State.reset, haead, hhmac, hhkdf⟩

/-- Putting a whole word before the core is a CMD write of that word. -/
theorem withFetchWord_toNat (s : State) (w : Word) :
    s.withFetchWord 32 w.toNat = { s with host := cmdWrite w :: s.host } := by
  rw [State.withFetchWord, Nat.mod_eq_of_lt w.isLt, BitVec.ofNat_toNat, BitVec.setWidth_eq]

/-- Settles O8: every field is the one a reset writes, CONFIG is that of the reference configuration, and the core is ready, so
that the first CMD write runs its command. -/
theorem resetState : Obligations.ResetState := by
  refine ⟨rfl, resetCore_arg State.reset, rfl, rfl, rfl, by decide, resetCore_aeadCtx State.reset,
    resetCore_hmacCtx State.reset, resetCore_hkdfCtx State.reset, fun w i hd => ?_⟩
  rw [withFetchWord_toNat]
  exact stepRunsDecodedCommand { State.reset with host := [cmdWrite w] } w [] i reset_ready rfl hd

/-! Reset between commands (R252). -/

/-- Settles O9: the access is `resetCore`, which writes no other field. -/
theorem resetAccess : Obligations.ResetAccess := fun s rest hw hh =>
  ⟨State.resetCore { s with host := rest }, step_access hw hh, rfl, rfl, rfl, rfl, rfl, rfl, resetCore_arg _, rfl, rfl, rfl,
    resetCore_faulted _, resetCore_aeadCtx _, resetCore_hmacCtx _, resetCore_hkdfCtx _⟩

/-! Reset inside a command (R251). -/

/-- A command cut short leaves what a reset makes of `s` with other bytes, if any, only at admitted addresses of the output buffer
of the command its word decodes to, and none in the fault state (R231; log 13). -/
theorem cutShort_spec (w : Word) (s : State) :
    ∃ mem torn, cutShort w s = State.resetCore { s with mem := mem, torn := torn } ∧
      (∀ a, (∀ i, decode s.params w = .ok i → ¬s.InOutput i a) → Memory.get mem a = Memory.get s.mem a) ∧
      (∀ a, admits s.params a = false ∨ 2 ^ s.params.addrW ≤ a → Memory.get mem a = Memory.get s.mem a) ∧
      (s.faulted = true → mem = s.mem) := by
  obtain ⟨hf, i, hd, hcut⟩ | ⟨-, hcut⟩ := cutShort_cases w s
  · obtain ⟨mem, torn, htear, hget, -⟩ := tearOutput_spec s i
    exact ⟨mem, torn, by rw [hcut, htear], fun a ha => hget a (.inl (ha i hd)), fun a ha => hget a (.inr ha),
      fun hfault => absurd (hf.symm.trans hfault) (by decide)⟩
  · exact ⟨s.mem, s.torn, hcut, fun _ _ => rfl, fun _ _ => rfl, fun _ => rfl⟩

/-- Settles O10: the core is reset from a state that differs from `s` only where `cutShort_spec` lets memory differ. -/
theorem resetInsideCommand : Obligations.ResetInsideCommand := by
  intro s w rest hw hh
  obtain ⟨mem, torn, hcut, houtside, hclosed, hfault⟩ := cutShort_spec w { s with host := rest }
  exact ⟨State.resetCore { s with host := rest, mem := mem, torn := torn },
    (step_access hw hh).trans (congrArg Host.Outcome.next hcut), rfl, rfl, rfl, rfl, rfl, resetCore_arg _, rfl, rfl, rfl,
    resetCore_aeadCtx _, resetCore_hmacCtx _, resetCore_hkdfCtx _, houtside, hclosed, hfault⟩

/-! The contexts a command may change (R261). -/

/-- Settles O56: a completed command stays within its own context, and an error and a fault write none. -/
theorem contextFrame : Obligations.ContextFrame := by
  intro i s t h
  obtain ⟨-, ⟨-, r, u, hb, rfl⟩ | ⟨-, e, r, -, rfl⟩ | ⟨c, rfl⟩⟩ := exec_next h
  · obtain ⟨-, -, haead, hhmac, hhkdf, -⟩ := bodyOf_done hb
    exact ⟨haead, hhmac, hhkdf⟩
  · exact ⟨fun _ _ => rfl, fun _ _ => rfl, fun _ _ => rfl⟩
  · exact ⟨fun _ _ => rfl, fun _ _ => rfl, fun _ _ => rfl⟩

end Sys2Proof.Machine
end
